-- ==== Sys2Proof/Word.lean ====
section
/-! DEFINITION. The bit vectors of the unit: the values the spec treats as bits (00_scope.md R6, R10; 30_encoding.md R71, R72). -/

namespace Sys2Proof

/-- A byte of BUF or of a stream (00_scope.md R6: BYTE = 8). -/
abbrev Byte := BitVec 8

/-- An operand A, B, C or a result V: 64 bits, two's complement (00_scope.md R6: VALUE_W = 64). -/
abbrev Word := BitVec 64

/-- A command word CW (00_scope.md R6: CW_W = 16). -/
abbrev CmdWord := BitVec 16

/-- The field N of a command word (30_encoding.md R72). -/
abbrev NField := BitVec 6

/-- A status code in ST or ERR, 3 bits (60_exceptions.md R211). -/
abbrev Code := BitVec 3

end Sys2Proof
end

