-- ==== Sys2Proof/Syntax.lean ====
section
/-! DEFINITION. The 27 commands of 30_encoding.md R74, one constructor each. A command carries the number N where its format uses it; A, B, C and IN come with the packet (R71). -/

namespace Sys2Proof

/-- A command as its command word spells it. `n` is the field N: a register number for GETREG
(format G), a bit count for the four field commands (format F). -/
inductive Instr where
  | getreg (n : NField)
  | rdOpen
  | rdBitsU (n : NField)
  | rdBitsI (n : NField)
  | rdAlign
  | rdU8
  | rdI8
  | rdU16LE
  | rdI16LE
  | rdU16BE
  | rdI16BE
  | wrOpen
  | wrBitsU (n : NField)
  | wrBitsI (n : NField)
  | wrAlign
  | wrU8
  | wrI8
  | wrU16LE
  | wrI16LE
  | wrU16BE
  | wrI16BE
  | rleEnc
  | rleDec
  | rle3Enc
  | rle3Dec
  | b64Enc
  | b64Dec
deriving DecidableEq, Repr

end Sys2Proof
end

