-- ==== Sys2Proof/WellFormed.lean ====
section
/-! DEFINITION. Which terms of `Instr` a command word can spell. -/

namespace Sys2Proof

/-- GETREG names one of the seven registers (10_state.md R26, 30_encoding.md R73); every bit count
of a field command decodes (R73), and the other commands carry no number. -/
def Instr.wellFormed : Instr → Bool
  | .getreg n => decide (n.toNat ≤ 6)
  | .rdOpen | .rdBitsU _ | .rdBitsI _ | .rdAlign | .rdU8 | .rdI8 | .rdU16LE | .rdI16LE | .rdU16BE
  | .rdI16BE | .wrOpen | .wrBitsU _ | .wrBitsI _ | .wrAlign | .wrU8 | .wrI8 | .wrU16LE | .wrI16LE
  | .wrU16BE | .wrI16BE | .rleEnc | .rleDec | .rle3Enc | .rle3Dec | .b64Enc | .b64Dec => true

end Sys2Proof
end

