-- ==== Sys2Proof/Decode.lean ====
section
/-! DEFINITION. Command words: decoding as 30_encoding.md R75 orders its tests, and the encoder after it. Words that spell no command are rejected by name. -/

namespace Sys2Proof

/-- Why a word spells no command (30_encoding.md R75, R76). Each of them is answered with
IllegalCommand; the names only say which test refused the word. -/
inductive Illegal where
  | reservedBits      -- `CW[7:6] ≠ 0`
  | unknownOpcode     -- OPC is not in the table of R74
  | nonzeroN          -- format Z with `N ≠ 0`
  | reservedRegister  -- format G with `N > 6`
deriving DecidableEq, Repr

/-- The three formats of 30_encoding.md R73. -/
inductive Format where
  | F
  | G
  | Z
deriving DecidableEq, Repr

/-- OPC, `CW[15:8]` (30_encoding.md R72). -/
def opcField (w : CmdWord) : Nat := (w.extractLsb' 8 8).toNat

/-- RSV, `CW[7:6]` (30_encoding.md R72). -/
def rsvField (w : CmdWord) : Nat := (w.extractLsb' 6 2).toNat

/-- N, `CW[5:0]` (30_encoding.md R72). -/
def nField (w : CmdWord) : NField := w.extractLsb' 0 6

/-- The opcode map of 30_encoding.md R74: the format of an opcode and the command it selects,
given N. -/
def opcodeMap (opc : Nat) : Option (Format × (NField → Instr)) :=
  match opc with
  | 0x01 => some (.G, .getreg)
  | 0x10 => some (.Z, fun _ => .rdOpen)
  | 0x11 => some (.F, .rdBitsU)
  | 0x12 => some (.F, .rdBitsI)
  | 0x13 => some (.Z, fun _ => .rdAlign)
  | 0x14 => some (.Z, fun _ => .rdU8)
  | 0x15 => some (.Z, fun _ => .rdI8)
  | 0x16 => some (.Z, fun _ => .rdU16LE)
  | 0x17 => some (.Z, fun _ => .rdI16LE)
  | 0x18 => some (.Z, fun _ => .rdU16BE)
  | 0x19 => some (.Z, fun _ => .rdI16BE)
  | 0x20 => some (.Z, fun _ => .wrOpen)
  | 0x21 => some (.F, .wrBitsU)
  | 0x22 => some (.F, .wrBitsI)
  | 0x23 => some (.Z, fun _ => .wrAlign)
  | 0x24 => some (.Z, fun _ => .wrU8)
  | 0x25 => some (.Z, fun _ => .wrI8)
  | 0x26 => some (.Z, fun _ => .wrU16LE)
  | 0x27 => some (.Z, fun _ => .wrI16LE)
  | 0x28 => some (.Z, fun _ => .wrU16BE)
  | 0x29 => some (.Z, fun _ => .wrI16BE)
  | 0x30 => some (.Z, fun _ => .rleEnc)
  | 0x31 => some (.Z, fun _ => .rleDec)
  | 0x32 => some (.Z, fun _ => .rle3Enc)
  | 0x33 => some (.Z, fun _ => .rle3Dec)
  | 0x34 => some (.Z, fun _ => .b64Enc)
  | 0x35 => some (.Z, fun _ => .b64Dec)
  | _ => none

/-- Decoding a command word, with the tests in the order of 30_encoding.md R75. Total. -/
def decode (w : CmdWord) : Except Illegal Instr :=
  if rsvField w ≠ 0 then .error .reservedBits
  else
    match opcodeMap (opcField w) with
    | none => .error .unknownOpcode
    | some (f, mk) =>
      if f = .Z ∧ nField w ≠ 0 then .error .nonzeroN
      else if f = .G ∧ (nField w).toNat > 6 then .error .reservedRegister
      else .ok (mk (nField w))

/-- The opcode of a command (30_encoding.md R74). -/
def Instr.opcode : Instr → BitVec 8
  | .getreg _ => 0x01
  | .rdOpen => 0x10
  | .rdBitsU _ => 0x11
  | .rdBitsI _ => 0x12
  | .rdAlign => 0x13
  | .rdU8 => 0x14
  | .rdI8 => 0x15
  | .rdU16LE => 0x16
  | .rdI16LE => 0x17
  | .rdU16BE => 0x18
  | .rdI16BE => 0x19
  | .wrOpen => 0x20
  | .wrBitsU _ => 0x21
  | .wrBitsI _ => 0x22
  | .wrAlign => 0x23
  | .wrU8 => 0x24
  | .wrI8 => 0x25
  | .wrU16LE => 0x26
  | .wrI16LE => 0x27
  | .wrU16BE => 0x28
  | .wrI16BE => 0x29
  | .rleEnc => 0x30
  | .rleDec => 0x31
  | .rle3Enc => 0x32
  | .rle3Dec => 0x33
  | .b64Enc => 0x34
  | .b64Dec => 0x35

/-- The field N of a command's word: its number in formats F and G, 0 in format Z
(30_encoding.md R73). -/
def Instr.number : Instr → NField
  | .getreg n | .rdBitsU n | .rdBitsI n | .wrBitsU n | .wrBitsI n => n
  | .rdOpen | .rdAlign | .rdU8 | .rdI8 | .rdU16LE | .rdI16LE | .rdU16BE | .rdI16BE | .wrOpen
  | .wrAlign | .wrU8 | .wrI8 | .wrU16LE | .wrI16LE | .wrU16BE | .wrI16BE | .rleEnc | .rleDec
  | .rle3Enc | .rle3Dec | .b64Enc | .b64Dec => 0

/-- The command word of a command: OPC in bits 15 to 8, RSV zero, N in bits 5 to 0
(30_encoding.md R72). -/
def encode (i : Instr) : CmdWord := (i.opcode ++ (0 : BitVec 2)) ++ i.number

/-- One row of the opcode table of 30_encoding.md R74: a word `w` selects it when
`w AND mask = match`. -/
structure OpcodeRow where
  mnemonic : String
  format : Format
  pattern : CmdWord
  mask : CmdWord
deriving DecidableEq, Repr

/-- The opcode table of 30_encoding.md R74 in its columns mnemonic, format, match and mask. -/
def opcodeTable : List OpcodeRow :=
  [⟨"GETREG", .G, 0x0100, 0xFFC0⟩, ⟨"RD.OPEN", .Z, 0x1000, 0xFFFF⟩,
   ⟨"RD.BITSU", .F, 0x1100, 0xFFC0⟩, ⟨"RD.BITSI", .F, 0x1200, 0xFFC0⟩,
   ⟨"RD.ALIGN", .Z, 0x1300, 0xFFFF⟩, ⟨"RD.U8", .Z, 0x1400, 0xFFFF⟩,
   ⟨"RD.I8", .Z, 0x1500, 0xFFFF⟩, ⟨"RD.U16LE", .Z, 0x1600, 0xFFFF⟩,
   ⟨"RD.I16LE", .Z, 0x1700, 0xFFFF⟩, ⟨"RD.U16BE", .Z, 0x1800, 0xFFFF⟩,
   ⟨"RD.I16BE", .Z, 0x1900, 0xFFFF⟩] ++
  [⟨"WR.OPEN", .Z, 0x2000, 0xFFFF⟩, ⟨"WR.BITSU", .F, 0x2100, 0xFFC0⟩,
   ⟨"WR.BITSI", .F, 0x2200, 0xFFC0⟩, ⟨"WR.ALIGN", .Z, 0x2300, 0xFFFF⟩,
   ⟨"WR.U8", .Z, 0x2400, 0xFFFF⟩, ⟨"WR.I8", .Z, 0x2500, 0xFFFF⟩,
   ⟨"WR.U16LE", .Z, 0x2600, 0xFFFF⟩, ⟨"WR.I16LE", .Z, 0x2700, 0xFFFF⟩,
   ⟨"WR.U16BE", .Z, 0x2800, 0xFFFF⟩, ⟨"WR.I16BE", .Z, 0x2900, 0xFFFF⟩] ++
  [⟨"RLE.ENC", .Z, 0x3000, 0xFFFF⟩, ⟨"RLE.DEC", .Z, 0x3100, 0xFFFF⟩,
   ⟨"RLE3.ENC", .Z, 0x3200, 0xFFFF⟩, ⟨"RLE3.DEC", .Z, 0x3300, 0xFFFF⟩,
   ⟨"B64.ENC", .Z, 0x3400, 0xFFFF⟩, ⟨"B64.DEC", .Z, 0x3500, 0xFFFF⟩]

/-- Whether a word selects a row of the table (30_encoding.md R74). -/
def OpcodeRow.selects (r : OpcodeRow) (w : CmdWord) : Bool := decide (w &&& r.mask = r.pattern)

/-- The command word that holds the low `nbits` bits of `w`, the bits above them 0. A command is one
word (30_encoding.md R72). -/
def tableWord (nbits w : Nat) : CmdWord := BitVec.ofNat 16 (w % 2 ^ nbits)

/-- What the decoder reads from an instruction whose bits are `w`. -/
def decodeTableWord (nbits w : Nat) : Option Instr := (decode (tableWord nbits w)).toOption

end Sys2Proof
end

