-- ==== Sys2Proof/Config.lean ====
section
/-! DEFINITION. The parameters the spec leaves open (92_eei_decisions.md, "Open parameters"). The opaque ones have no body: nothing can be proved of their values. -/

namespace Sys2Proof

/-- BUF_BYTES as a bounded number: `8 * BUF_BYTES < 2^63` (00_scope.md R6) says that it is below `2^60`. -/
opaque Config.bufBytesIndex : Fin (2 ^ 60)

/-- BUF_BYTES of `State.reset` (00_scope.md R6, 93_implementation_defined.md U1). DESIGN CHOICE (log entry 4), safe. -/
def Config.bufBytes : Nat := Config.bufBytesIndex.val

/-- The content of the byte of BUF at an address that nothing has written or loaded: any value
(10_state.md R31, 93_implementation_defined.md U2). DESIGN CHOICE (log entry 5), safe. -/
opaque Config.initialByte : Nat → Byte

/-- The default of the parameter CODEC_ALIGNS (45_codec_macros.md R154). -/
def Config.codecAligns : Bool := false

end Sys2Proof
end

