-- ==== Sys2Proof/Machine/State.lean ====
section
/-! DEFINITION. The whole state of the unit (10_state.md R20), the interface fields of the model, the reasons a step can stop, and the state after reset. -/

namespace Sys2Proof.Machine

/-- The error kinds of 60_exceptions.md R210, R211. The unit raises every one but `structureError`,
which only the host-side expansions raise (45_codec_macros.md R166). -/
inductive ErrorKind where
  | boundsError
  | valueRangeError
  | structureError
  | formatError
  | illegalCommand
deriving DecidableEq, Repr

/-- The bytes of BUF that have been loaded or written, as pairs of address and byte with the
addresses strictly rising (`Memory.wf`). An address that is not listed holds no recorded value; what
a read of it gives is `unlistedByte`. -/
abbrev Memory := List Host.Cell

/-- The three registers of a context: the region's byte address and size in bytes, and the cursor
in bits from the region's start (10_state.md R22, R23). -/
structure Context where
  base : Nat
  size : Nat
  cur : Nat
deriving DecidableEq, Repr

/-- A command packet (30_encoding.md R71): command word, three signed operands, input stream. -/
structure Packet where
  cw : CmdWord
  a : Word
  b : Word
  c : Word
  inp : List Byte
deriving DecidableEq, Repr

/-- A response (30_encoding.md R71): status, result value, output stream. -/
structure Response where
  st : Code
  v : Word
  out : List Byte
deriving DecidableEq, Repr

/-- What the host can do next: issue a command (30_encoding.md R70), or assert the reset input
between two commands (70_reset_and_hazards.md R240, R241). -/
inductive Input where
  | reset
  | command (p : Packet)
deriving DecidableEq, Repr

/-- The state of the unit (10_state.md R20): BUF, the two contexts and ERR, with BUF_BYTES, the size
of BUF, beside them. The last three fields are the model's own and hold the transaction interface of
30_encoding.md R70 and R71 (log entry 1). -/
structure State where
  /-- BUF (10_state.md R21): the bytes loaded or written. -/
  buf : Memory
  /-- BUF_BYTES, the number of bytes of BUF (10_state.md R21). No command changes it. -/
  bufBytes : Nat
  /-- RD.BASE, RD.SIZE, RD.CUR (10_state.md R22). -/
  rd : Context
  /-- WR.BASE, WR.SIZE, WR.CUR (10_state.md R23). -/
  wr : Context
  /-- ERR, the sticky error register (10_state.md R25). -/
  err : Code
  /-- The command packet in execution. -/
  packet : Packet
  /-- What the host does next, in order. -/
  inputs : List Input
  /-- The responses given so far, oldest first. -/
  responses : List Response
deriving DecidableEq, Repr

/-- Why the machine stops with a fault. -/
inductive Fault where
  /-- An access to BUF at an address that does not exist, `addr ≥ BUF_BYTES` (20_memory.md R50).
  Raised by the byte accesses of the field and aligned commands. SAFE: the invariant of 10_state.md
  R24 excludes it in every reachable state. -/
  | outsideBuf (addr : Nat)
deriving DecidableEq, Repr

/-- Why an instruction is refused. -/
inductive Refusal where
  /-- An instruction that has no meaning yet, by its mnemonic. SAFE. No arm of `exec` raises it. -/
  | notModelled (mnemonic : String)
deriving DecidableEq, Repr

/-- What a command ends in. -/
abbrev Result := Host.Outcome State Fault Refusal

/-- The registers of a context after reset: an empty region (10_state.md R31). -/
def Context.reset : Context := ⟨0, 0, 0⟩

/-- The packet field before the first command. DESIGN CHOICE (log entry 1), safe: every command
overwrites it before it is read. -/
def Packet.idle : Packet := ⟨0, 0, 0, 0, []⟩

/-- The machine right after reset, over a BUF of `n` bytes with content `m` (10_state.md R31,
70_reset_and_hazards.md R240: BUF_BYTES and the initial content of BUF are arguments). -/
def State.resetOver (n : Nat) (m : Memory) : State :=
  { buf := m, bufBytes := n, rd := Context.reset, wr := Context.reset, err := 0
    packet := Packet.idle, inputs := [], responses := [] }

/-- The machine right after reset (10_state.md R31): registers and ERR zero, BUF of open size and
open content, no command issued yet. -/
def State.reset : State := State.resetOver Config.bufBytes []

end Sys2Proof.Machine
end

