-- ==== Sys2Proof/Machine/Flags.lean ====
section
/-! DEFINITION. Status. The unit has no condition flags (10_state.md R29): its only status is the response status ST and the sticky register ERR. -/

namespace Sys2Proof.Machine

/-- Status 0, OK (60_exceptions.md R211). -/
def okCode : Code := 0

/-- The code of an error kind (60_exceptions.md R211). -/
def ErrorKind.code : ErrorKind → Code
  | .boundsError => 1
  | .valueRangeError => 2
  | .structureError => 3
  | .formatError => 4
  | .illegalCommand => 5

/-- The error kind of a status code; 0 is OK, 6 and 7 are unused (60_exceptions.md R211). -/
def errorOfCode (c : Code) : Option ErrorKind :=
  match c.toNat with
  | 1 => some .boundsError
  | 2 => some .valueRangeError
  | 3 => some .structureError
  | 4 => some .formatError
  | 5 => some .illegalCommand
  | _ => none

/-- ERR after a command failed with `e`: the code when ERR was 0, else unchanged (10_state.md R25,
60_exceptions.md R214 item 2). -/
def stickyErr (err : Code) (e : ErrorKind) : Code := if err = 0 then e.code else err

end Sys2Proof.Machine
end

