-- ==== Sys2Proof/Machine/Operands.lean ====
section
/-! DEFINITION. Operands and results: ranges of fields, the two's-complement bias and its inverse, cursor alignment, the splitting of a value into bytes. All over unbounded integers (41_bit_write.md R113). -/

namespace Sys2Proof.Machine

/-- The largest bit count of a field command (00_scope.md R6: FIELD_MAX). -/
def fieldMax : Nat := 32

/-- Operand A as the signed integer it encodes (30_encoding.md R73). -/
def State.opA (s : State) : Int := s.packet.a.toInt

/-- Operand B as the signed integer it encodes. -/
def State.opB (s : State) : Int := s.packet.b.toInt

/-- Operand C as the signed integer it encodes. -/
def State.opC (s : State) : Int := s.packet.c.toInt

/-- Whether `v` fits an unsigned field of `n` bits (00_scope.md R10). -/
def fitsUnsigned (n : Nat) (v : Int) : Bool := decide (0 ≤ v ∧ v < 2 ^ n)

/-- Whether `v` fits a signed field of `n ≥ 1` bits, `-2^(n-1) ≤ v ≤ 2^(n-1) - 1`
(00_scope.md R10, 41_bit_write.md R111). -/
def fitsSigned (n : Nat) (v : Int) : Bool :=
  decide (-(2 ^ (n - 1)) ≤ v ∧ v ≤ 2 ^ (n - 1) - 1)

/-- The unsigned pattern of a signed value: "biasing negative values by `2^n`"
(41_bit_write.md R111). -/
def biased (n : Nat) (v : Int) : Nat := (if v < 0 then v + 2 ^ n else v).toNat

/-- `sext_n(u)`: `u - 2^n` when `u ≥ 2^(n-1)`, else `u` (00_scope.md R9). -/
def signExtend (n : Nat) (u : Nat) : Int :=
  if 2 ^ (n - 1) ≤ u then (u : Int) - 2 ^ n else (u : Int)

/-- A field's pattern taken as the integer it is. -/
def zeroExtend (u : Nat) : Int := (u : Int)

/-- An integer as the 64-bit result V (30_encoding.md R71). -/
def resultWord (v : Int) : Word := BitVec.ofInt 64 v

/-- `alignup(k)`, the least multiple of 8 not below `k` (00_scope.md R9). -/
def alignUp (k : Nat) : Nat := 8 * ((k + 7) / 8)

/-- `ceil(a / b)` for `b > 0` (00_scope.md R7). -/
def ceilDiv (a b : Nat) : Nat := (a + (b - 1)) / b

/-- The one byte of an 8-bit value. -/
def oneByte (u : Nat) : List Nat := [u]

/-- The two bytes of a 16-bit value, `u[7:0]` first (43_aligned_write.md R133). -/
def lowFirst (u : Nat) : List Nat := [u % 256, u / 256 % 256]

/-- The two bytes of a 16-bit value, `u[15:8]` first (43_aligned_write.md R135). -/
def highFirst (u : Nat) : List Nat := [u / 256 % 256, u % 256]

/-- The value of bytes read in address order, the lowest address least significant
(44_aligned_read.md R143). -/
def valueLowFirst : List Nat → Nat
  | [] => 0
  | b :: bs => b + 256 * valueLowFirst bs

/-- The value of bytes read in address order, the lowest address most significant
(44_aligned_read.md R145). -/
def valueHighFirst (bs : List Nat) : Nat := valueLowFirst bs.reverse

end Sys2Proof.Machine
end

