-- ==== Sys2Proof/Machine/Ops.lean ====
section
/-! DEFINITION. The named operations: bytes of BUF, the two bit primitives of 20_memory.md, the registers of a context, answering a command and raising an error, the reset input, and taking the host's next input. -/

namespace Sys2Proof.Machine

/-! ### Bytes of BUF -/

/-- What a byte of BUF that nothing has written or loaded reads as: any value (10_state.md R31,
93_implementation_defined.md U2). DESIGN CHOICE (log entry 5), safe: the value is free. -/
def unlistedByte (a : Nat) : Byte := Config.initialByte a

/-- The byte recorded at an address, if one is. -/
def Memory.lookup : Memory → Nat → Option Byte
  | [], _ => none
  | (a', b) :: m, a => if a' = a then some b else Memory.lookup m a

/-- Record a byte at an address, keeping the addresses strictly rising. -/
def Memory.set : Memory → Nat → Byte → Memory
  | [], a, b => [(a, b)]
  | (a', b') :: m, a, b =>
    if a < a' then (a, b) :: (a', b') :: m
    else if a = a' then (a, b) :: m
    else (a', b') :: Memory.set m a b

/-- The canonical form: addresses strictly rising (log entry 6). -/
def Memory.wf : Memory → Bool
  | [] => true
  | [_] => true
  | (a, _) :: (a', b') :: m => decide (a < a') && Memory.wf ((a', b') :: m)

/-- The byte of BUF at an address. -/
def Memory.byteAt (m : Memory) (a : Nat) : Byte := (Memory.lookup m a).getD (unlistedByte a)

/-- The byte `BUF[a]` of a state. -/
def State.bufByte (s : State) (a : Nat) : Byte := Memory.byteAt s.buf a

/-- `MemRead(a, 1)` in a BUF of `size` bytes (00_scope.md R9): an address that does not exist faults. -/
def memRead (size : Nat) (m : Memory) (a : Nat) : Except Fault Byte :=
  if a < size then .ok (Memory.byteAt m a) else .error (.outsideBuf a)

/-- `MemWrite(a, 1, b)` in a BUF of `size` bytes (00_scope.md R9). -/
def memWrite (size : Nat) (m : Memory) (a : Nat) (b : Byte) : Except Fault Memory :=
  if a < size then .ok (Memory.set m a b) else .error (.outsideBuf a)

/-! ### The two bit primitives -/

/-- LOWMASK, the table of 20_memory.md R56. -/
def lowMask (t : Nat) : Byte :=
  ([0x00, 0x01, 0x03, 0x07, 0x0F, 0x1F, 0x3F, 0x7F, 0xFF] : List Byte).getD t 0xFF

/-- Bit `k` of a byte as 0 or 1: `(b div 2^k) mod 2` (20_memory.md R54). -/
def bitOfByte (b : Byte) (k : Nat) : Nat := b.toNat / 2 ^ k % 2

/-- `GetBits` over the region at `base` (20_memory.md R54): the sum over `j < n` of cursor bit
`k + j` times `2^j`. -/
def getBits (size : Nat) (m : Memory) (base k : Nat) : Nat → Except Fault Nat
  | 0 => .ok 0
  | n + 1 =>
    match getBits size m base k n with
    | .error f => .error f
    | .ok u =>
      match memRead size m (base + (k + n) / 8) with
      | .error f => .error f
      | .ok b => .ok (u + bitOfByte b ((k + n) % 8) * 2 ^ n)

/-- The byte that a partial write leaves: `keep OR (chunk * 2^p)`, where `keep` is the old byte
without the `t` bits from bit `p` (20_memory.md R55). -/
def mergeByte (old : Byte) (p t chunk : Nat) : Byte :=
  (old &&& (0xFF ^^^ (lowMask t <<< p))) ||| (BitVec.ofNat 8 chunk <<< p)

/-- The loop of `PutBits` (20_memory.md R55): `rem` bits of `v` remain to be written from cursor
bit `pos`. Each round writes at least one bit, so `rem` rounds are enough. -/
def putLoop (size base : Nat) : Nat → Memory → Nat → Nat → Nat → Except Fault Memory
  | 0, m, _, _, _ => .ok m
  | rounds + 1, m, pos, rem, v =>
    if rem = 0 then .ok m
    else
      let a := base + pos / 8
      let p := pos % 8
      let t := min (8 - p) rem
      match memRead size m a with
      | .error f => .error f
      | .ok old =>
        match memWrite size m a (mergeByte old p t (v % 2 ^ t)) with
        | .error f => .error f
        | .ok m' => putLoop size base rounds m' (pos + t) (rem - t) (v / 2 ^ t)

/-- `PutBits` over the region at `base` (20_memory.md R55): the `n` bits of `u` to cursor bits `k`
to `k + n - 1`. -/
def putBits (size : Nat) (m : Memory) (base k n u : Nat) : Except Fault Memory :=
  putLoop size base n m k n u

/-- `PutBits` of whole bytes, one after another from cursor bit `k` (43_aligned_write.md R133). -/
def putBytes (size : Nat) (m : Memory) (base k : Nat) : List Nat → Except Fault Memory
  | [] => .ok m
  | b :: bs =>
    match putBits size m base k 8 b with
    | .error f => .error f
    | .ok m' => putBytes size m' base (k + 8) bs

/-- `GetBits` of `n` whole bytes, one after another from cursor bit `k` (44_aligned_read.md R143). -/
def getBytes (size : Nat) (m : Memory) (base k : Nat) : Nat → Except Fault (List Nat)
  | 0 => .ok []
  | n + 1 =>
    match getBits size m base k 8 with
    | .error f => .error f
    | .ok b =>
      match getBytes size m base (k + 8) n with
      | .error f => .error f
      | .ok bs => .ok (b :: bs)

/-! ### Contexts -/

/-- The two contexts (10_state.md R22, R23). -/
inductive Side where
  | rd
  | wr
deriving DecidableEq, Repr

/-- The registers of a context. -/
def State.ctx (s : State) : Side → Context
  | .rd => s.rd
  | .wr => s.wr

/-- Write all three registers of a context. -/
def State.setCtx (s : State) (side : Side) (c : Context) : State :=
  match side with
  | .rd => { s with rd := c }
  | .wr => { s with wr := c }

/-- Write the cursor of a context. -/
def State.setCur (s : State) (side : Side) (k : Nat) : State :=
  s.setCtx side { s.ctx side with cur := k }

/-- Write BUF. -/
def State.setBuf (s : State) (m : Memory) : State := { s with buf := m }

/-- `cap(ctx)`, the capacity of a region in bits (20_memory.md R51). -/
def Context.cap (c : Context) : Nat := 8 * c.size

/-- The alignment of a cursor: stage 1 of the aligned commands, and all of RD.ALIGN and WR.ALIGN
(20_memory.md R60). -/
def State.alignCur (s : State) (side : Side) : State := s.setCur side (alignUp (s.ctx side).cur)

/-! ### Answering a command -/

/-- Give a response (30_encoding.md R70). -/
def State.respond (s : State) (r : Response) : State := { s with responses := s.responses ++ [r] }

/-- TAKING AN ERROR (60_exceptions.md R214): the response is the code with `V = 0` and OUT empty, and
ERR takes the code when it was 0. Nothing else changes; there is no handler to go to and nothing to
return from (R215). -/
def State.raised (s : State) (e : ErrorKind) : State :=
  { s with err := stickyErr s.err e }.respond ⟨e.code, 0, []⟩

/-- `raise e` (00_scope.md R9). -/
def raise (e : ErrorKind) (s : State) : Result := .next (s.raised e)

/-- `return (v)` (00_scope.md R9). -/
def reply (v : Word) (s : State) : Result := .next (s.respond ⟨okCode, v, []⟩)

/-- `return` after `emit(out)`: the end of a stream command (00_scope.md R9). -/
def replyStream (out : List Byte) (s : State) : Result := .next (s.respond ⟨okCode, 0, out⟩)

/-- The end of a stream command that may fail: the whole output, or the error and no output
(46_rle.md R182). -/
def endStream (r : Except ErrorKind (List Byte)) (s : State) : Result :=
  match r with
  | .error e => raise e s
  | .ok out => replyStream out s

/-! ### Fields and aligned values -/

/-- The bounds test and the rest of a field write: `n` bits of `u` at the writer's cursor
(41_bit_write.md R110, 20_memory.md R57). -/
def writeField (n u : Nat) (s : State) : Result :=
  if s.wr.cur + n > s.wr.cap then raise .boundsError s
  else
    match putBits s.bufBytes s.buf s.wr.base s.wr.cur n u with
    | .error f => .fault f
    | .ok m => reply 0 ((s.setBuf m).setCur .wr (s.wr.cur + n))

/-- The bounds test and the rest of a field read: `n` bits at the reader's cursor, the result read
by `interp` (42_bit_read.md R120). -/
def readField (n : Nat) (interp : Nat → Int) (s : State) : Result :=
  if s.rd.cur + n > s.rd.cap then raise .boundsError s
  else
    match getBits s.bufBytes s.buf s.rd.base s.rd.cur n with
    | .error f => .fault f
    | .ok u => reply (resultWord (interp u)) (s.setCur .rd (s.rd.cur + n))

/-- The bounds test and stage 3 of an aligned write: the bytes `bs` at the writer's aligned cursor
(43_aligned_write.md R130). -/
def writeBytes (bs : List Nat) (s : State) : Result :=
  if s.wr.cur + 8 * bs.length > s.wr.cap then raise .boundsError s
  else
    match putBytes s.bufBytes s.buf s.wr.base s.wr.cur bs with
    | .error f => .fault f
    | .ok m => reply 0 ((s.setBuf m).setCur .wr (s.wr.cur + 8 * bs.length))

/-- The bounds test and stage 3 of an aligned read of `len` bytes, the result read by `interp`
(44_aligned_read.md R140). -/
def readBytes (len : Nat) (interp : List Nat → Int) (s : State) : Result :=
  if s.rd.cur + 8 * len > s.rd.cap then raise .boundsError s
  else
    match getBytes s.bufBytes s.buf s.rd.base s.rd.cur len with
    | .error f => .fault f
    | .ok bs => reply (resultWord (interp bs)) (s.setCur .rd (s.rd.cur + 8 * len))

/-- An aligned write (43_aligned_write.md R130): align the writer's cursor, check the range of the
value A, check the bounds, write the bytes. The alignment stays when a check fails. -/
def alignedWrite (fits : Int → Bool) (bytes : Int → List Nat) (s : State) : Result :=
  let s' := s.alignCur .wr
  if fits s.opA then writeBytes (bytes s.opA) s' else raise .valueRangeError s'

/-- An aligned read (44_aligned_read.md R140): align the reader's cursor, check the bounds, read the
bytes. The alignment stays when the check fails. -/
def alignedRead (len : Nat) (interp : List Nat → Int) (s : State) : Result :=
  readBytes len interp (s.alignCur .rd)

/-! ### Registers and regions -/

/-- A register by its number (10_state.md R26), as the natural number it holds; 7 to 63 are
reserved. -/
def State.register (s : State) (n : Nat) : Option Nat :=
  match n with
  | 0 => some s.rd.base
  | 1 => some s.rd.size
  | 2 => some s.rd.cur
  | 3 => some s.wr.base
  | 4 => some s.wr.size
  | 5 => some s.wr.cur
  | 6 => some s.err.toNat
  | _ => none

/-- Opening a context over the region at A of B bytes with the cursor at bit C
(40_context_control.md R100, R101). -/
def openContext (side : Side) (s : State) : Result :=
  if s.opA < 0 ∨ s.opB < 0 then raise .valueRangeError s
  else if s.opA + s.opB > (s.bufBytes : Int) then raise .boundsError s
  else if s.opC < 0 ∨ s.opC > 8 * s.opB then raise .boundsError s
  else reply 0 (s.setCtx side ⟨s.opA.toNat, s.opB.toNat, s.opC.toNat⟩)

/-! ### The host's inputs -/

/-- The reset input (70_reset_and_hazards.md R240): registers and ERR to 0; BUF is not cleared, and
no response is given. -/
def State.applyReset (s : State) : State :=
  { s with rd := Context.reset, wr := Context.reset, err := 0 }

/-- Take the host's next input off the list. -/
def State.dropInput (s : State) : State := { s with inputs := s.inputs.tail }

/-- Receive a command packet (30_encoding.md R70). -/
def State.receive (s : State) (p : Packet) : State := { s with packet := p }

/-- The packet of a bare command word: operands 0, IN empty. -/
def Packet.ofWord (w : CmdWord) : Packet := ⟨w, 0, 0, 0, []⟩

/-- Let the host issue a packet before anything else it does. -/
def State.issueFirst (s : State) (p : Packet) : State := { s with inputs := .command p :: s.inputs }

end Sys2Proof.Machine
end

