-- ==== Sys2Proof/Machine/AlignedRead.lean ====
section
/-! DEFINITION. The byte-aligned read commands of 44_aligned_read.md. -/

namespace Sys2Proof.Machine

/-- RD.U8 (44_aligned_read.md R141). -/
def execRdU8 (s : State) : Result := alignedRead 1 (fun bs => zeroExtend (valueLowFirst bs)) s

/-- RD.I8 (44_aligned_read.md R142). -/
def execRdI8 (s : State) : Result := alignedRead 1 (fun bs => signExtend 8 (valueLowFirst bs)) s

/-- RD.U16LE (44_aligned_read.md R143). -/
def execRdU16LE (s : State) : Result := alignedRead 2 (fun bs => zeroExtend (valueLowFirst bs)) s

/-- RD.I16LE (44_aligned_read.md R144). -/
def execRdI16LE (s : State) : Result :=
  alignedRead 2 (fun bs => signExtend 16 (valueLowFirst bs)) s

/-- RD.U16BE (44_aligned_read.md R145). -/
def execRdU16BE (s : State) : Result := alignedRead 2 (fun bs => zeroExtend (valueHighFirst bs)) s

/-- RD.I16BE (44_aligned_read.md R146). -/
def execRdI16BE (s : State) : Result :=
  alignedRead 2 (fun bs => signExtend 16 (valueHighFirst bs)) s

end Sys2Proof.Machine
end

