-- ==== Sys2Proof/Machine/AlignedWrite.lean ====
section
/-! DEFINITION. The byte-aligned write commands of 43_aligned_write.md. -/

namespace Sys2Proof.Machine

/-- WR.U8 (43_aligned_write.md R131). -/
def execWrU8 (s : State) : Result := alignedWrite (fitsUnsigned 8) (fun v => oneByte v.toNat) s

/-- WR.I8 (43_aligned_write.md R132). -/
def execWrI8 (s : State) : Result := alignedWrite (fitsSigned 8) (fun v => oneByte (biased 8 v)) s

/-- WR.U16LE (43_aligned_write.md R133). -/
def execWrU16LE (s : State) : Result :=
  alignedWrite (fitsUnsigned 16) (fun v => lowFirst v.toNat) s

/-- WR.I16LE (43_aligned_write.md R134). -/
def execWrI16LE (s : State) : Result :=
  alignedWrite (fitsSigned 16) (fun v => lowFirst (biased 16 v)) s

/-- WR.U16BE (43_aligned_write.md R135). -/
def execWrU16BE (s : State) : Result :=
  alignedWrite (fitsUnsigned 16) (fun v => highFirst v.toNat) s

/-- WR.I16BE (43_aligned_write.md R136). -/
def execWrI16BE (s : State) : Result :=
  alignedWrite (fitsSigned 16) (fun v => highFirst (biased 16 v)) s

end Sys2Proof.Machine
end

