-- ==== Sys2Proof/Machine/Base64.lean ====
section
/-! DEFINITION. The base64 stream commands of 47_base64.md: B64.ENC, B64.DEC. -/

namespace Sys2Proof.Machine

/-- The pad byte, the code of the equals sign (47_base64.md R203). -/
def padByte : Byte := 0x3D

/-- `ALPHA[i]` for `i < 64` (47_base64.md R203). -/
def alphaByte (i : Nat) : Byte :=
  if i < 26 then BitVec.ofNat 8 (0x41 + i)
  else if i < 52 then BitVec.ofNat 8 (0x61 + (i - 26))
  else if i < 62 then BitVec.ofNat 8 (0x30 + (i - 52))
  else if i = 62 then 0x2B
  else 0x2F

/-- `VAL(c)`, the index of an alphabet byte; no other byte has one (47_base64.md R203). -/
def alphaIndex (c : Byte) : Option Nat :=
  let n := c.toNat
  if 0x41 ≤ n ∧ n ≤ 0x5A then some (n - 0x41)
  else if 0x61 ≤ n ∧ n ≤ 0x7A then some (n - 0x61 + 26)
  else if 0x30 ≤ n ∧ n ≤ 0x39 then some (n - 0x30 + 52)
  else if n = 0x2B then some 62
  else if n = 0x2F then some 63
  else none

/-- The four characters of a group of one to three bytes (47_base64.md R201): the group is 24 bits
with the first byte most significant, and an absent byte counts as 0 and turns its character into
the pad. -/
def b64Group (x : Byte) (y z : Option Byte) : List Byte :=
  let w := x.toNat * 2 ^ 16 + (y.getD 0).toNat * 2 ^ 8 + (z.getD 0).toNat
  [alphaByte (w / 2 ^ 18 % 64), alphaByte (w / 2 ^ 12 % 64),
   if y.isSome then alphaByte (w / 2 ^ 6 % 64) else padByte,
   if z.isSome then alphaByte (w % 64) else padByte]

/-- The output of B64.ENC (47_base64.md R201). -/
def b64Encode : List Byte → List Byte
  | [] => []
  | [x] => b64Group x none none
  | [x, y] => b64Group x (some y) none
  | x :: y :: z :: rest => b64Group x (some y) (some z) ++ b64Encode rest

/-- How many pad bytes end a group (47_base64.md R202). -/
def padCount (q2 q3 : Byte) : Nat :=
  if q3 = padByte ∧ q2 = padByte then 2 else if q3 = padByte then 1 else 0

/-- The indices of characters; none when one is not of the alphabet (47_base64.md R202). -/
def alphaIndices : List Byte → Option (List Nat)
  | [] => some []
  | c :: cs =>
    match alphaIndex c, alphaIndices cs with
    | some i, some is => some (i :: is)
    | _, _ => none

/-- The sum of the indices times their weights, `2^18` for the first and `2^6` less for each after
it (47_base64.md R202). -/
def groupValue (indices : List Nat) : Nat :=
  indices.getD 0 0 * 2 ^ 18 + indices.getD 1 0 * 2 ^ 12 + indices.getD 2 0 * 2 ^ 6
    + indices.getD 3 0

/-- One group of four characters decoded (47_base64.md R202); `last` says that no group follows. -/
def b64DecodeGroup (last : Bool) (q0 q1 q2 q3 : Byte) : Except ErrorKind (List Byte) :=
  let pad := padCount q2 q3
  if pad > 0 ∧ last = false then .error .formatError
  else
    match alphaIndices ([q0, q1, q2, q3].take (4 - pad)) with
    | none => .error .formatError
    | some indices =>
      let w := groupValue indices
      if pad = 2 ∧ w % 2 ^ 16 ≠ 0 then .error .formatError
      else if pad = 1 ∧ w % 2 ^ 8 ≠ 0 then .error .formatError
      else
        .ok (([BitVec.ofNat 8 (w / 2 ^ 16), BitVec.ofNat 8 (w / 2 ^ 8), BitVec.ofNat 8 w]
          : List Byte).take (3 - pad))

/-- The groups of a text, in order (47_base64.md R202). -/
def b64DecodeGroups : List Byte → Except ErrorKind (List Byte)
  | [] => .ok []
  | q0 :: q1 :: q2 :: q3 :: t =>
    match b64DecodeGroup t.isEmpty q0 q1 q2 q3 with
    | .error e => .error e
    | .ok z =>
      match b64DecodeGroups t with
      | .error e => .error e
      | .ok z' => .ok (z ++ z')
  | _ => .error .formatError

/-- The output of B64.DEC (47_base64.md R202): the length test, then the groups. -/
def b64Decode (t : List Byte) : Except ErrorKind (List Byte) :=
  if t.length % 4 ≠ 0 then .error .formatError else b64DecodeGroups t

/-- B64.ENC (47_base64.md R201). -/
def execB64Enc (s : State) : Result := replyStream (b64Encode s.packet.inp) s

/-- B64.DEC (47_base64.md R202). -/
def execB64Dec (s : State) : Result := endStream (b64Decode s.packet.inp) s

end Sys2Proof.Machine
end

