-- ==== Sys2Proof/Machine/BitRead.lean ====
section
/-! DEFINITION. The bit-field read commands of 42_bit_read.md: RD.BITSU, RD.BITSI, RD.ALIGN. -/

namespace Sys2Proof.Machine

/-- RD.BITSU (42_bit_read.md R120): the bit count, then the bounds, then the field. -/
def execRdBitsU (n : NField) (s : State) : Result :=
  if n.toNat > fieldMax then raise .valueRangeError s
  else readField n.toNat zeroExtend s

/-- RD.BITSI (42_bit_read.md R121): as RD.BITSU, with sign extension. -/
def execRdBitsI (n : NField) (s : State) : Result :=
  if n.toNat < 1 ∨ n.toNat > fieldMax then raise .valueRangeError s
  else readField n.toNat (signExtend n.toNat) s

/-- RD.ALIGN (42_bit_read.md R122). -/
def execRdAlign (s : State) : Result := reply 0 (s.alignCur .rd)

end Sys2Proof.Machine
end

