-- ==== Sys2Proof/Machine/BitWrite.lean ====
section
/-! DEFINITION. The bit-field write commands of 41_bit_write.md: WR.BITSU, WR.BITSI, WR.ALIGN. -/

namespace Sys2Proof.Machine

/-- WR.BITSU (41_bit_write.md R110): the bit count, then the value, then the bounds, then the
field. -/
def execWrBitsU (n : NField) (s : State) : Result :=
  if n.toNat > fieldMax then raise .valueRangeError s
  else if fitsUnsigned n.toNat s.opA then writeField n.toNat s.opA.toNat s
  else raise .valueRangeError s

/-- WR.BITSI (41_bit_write.md R111): as WR.BITSU, with the signed range and the bias. -/
def execWrBitsI (n : NField) (s : State) : Result :=
  if n.toNat < 1 ∨ n.toNat > fieldMax then raise .valueRangeError s
  else if fitsSigned n.toNat s.opA then writeField n.toNat (biased n.toNat s.opA) s
  else raise .valueRangeError s

/-- WR.ALIGN (41_bit_write.md R112). -/
def execWrAlign (s : State) : Result := reply 0 (s.alignCur .wr)

end Sys2Proof.Machine
end

