-- ==== Sys2Proof/Machine/ContextControl.lean ====
section
/-! DEFINITION. The context and control commands of 40_context_control.md: RD.OPEN, WR.OPEN, GETREG. -/

namespace Sys2Proof.Machine

/-- GETREG (40_context_control.md R104): answer with the register numbered `n`. A number above 6
spells no command; the decoder refuses it, and so does the meaning (R212; log entry 12). -/
def execGetreg (n : NField) (s : State) : Result :=
  match s.register n.toNat with
  | some v => reply (resultWord (v : Int)) s
  | none => raise .illegalCommand s

/-- RD.OPEN (40_context_control.md R100). -/
def execRdOpen (s : State) : Result := openContext .rd s

/-- WR.OPEN (40_context_control.md R101). -/
def execWrOpen (s : State) : Result := openContext .wr s

end Sys2Proof.Machine
end

