-- ==== Sys2Proof/Machine/RunLength.lean ====
section
/-! DEFINITION. The run-length stream commands of 46_rle.md: RLE.ENC, RLE.DEC, RLE3.ENC, RLE3.DEC. Pure functions of byte lists, and one meaning per command over them. -/

namespace Sys2Proof.Machine

/-- RUN_MAX, the largest count of one record (46_rle.md R181). -/
def runMax : Nat := 255

/-- A triplet, the granule of the triplet encoding (46_rle.md R184). -/
abbrev Triplet := Byte × Byte × Byte

/-- The runs of a list after `count` copies of `v`, greedy from the left, no run longer than
RUN_MAX (46_rle.md R181, the loops of RLE.ENC and RLE3.ENC). -/
def runsFrom {α : Type} [DecidableEq α] (v : α) (count : Nat) : List α → List (Nat × α)
  | [] => [(count, v)]
  | x :: xs =>
    if x = v ∧ count < runMax then runsFrom v (count + 1) xs
    else (count, v) :: runsFrom x 1 xs

/-- The runs of a list (46_rle.md R181). -/
def runs {α : Type} [DecidableEq α] : List α → List (Nat × α)
  | [] => []
  | x :: xs => runsFrom x 1 xs

/-- A count as the byte that carries it. -/
def countByte (n : Nat) : Byte := BitVec.ofNat 8 n

/-- The output of RLE.ENC (46_rle.md R181): records `(count, value)`. -/
def rleEncode (x : List Byte) : List Byte :=
  (runs x).flatMap fun r => [countByte r.1, r.2]

/-- The records of a run-length stream, expanded; a count of 0 is malformed (46_rle.md R182). -/
def rleExpand : List Byte → Except ErrorKind (List Byte)
  | [] => .ok []
  | [_] => .error .formatError
  | count :: value :: y =>
    if count = 0 then .error .formatError
    else
      match rleExpand y with
      | .error e => .error e
      | .ok z => .ok (List.replicate count.toNat value ++ z)

/-- The output of RLE.DEC (46_rle.md R182): the length test, then the records. -/
def rleDecode (y : List Byte) : Except ErrorKind (List Byte) :=
  if y.length % 2 ≠ 0 then .error .formatError else rleExpand y

/-- The triplets of a byte list, the last one padded with zeros (46_rle.md R184). -/
def triplets : List Byte → List Triplet
  | [] => []
  | [a] => [(a, 0, 0)]
  | [a, b] => [(a, b, 0)]
  | a :: b :: c :: x => (a, b, c) :: triplets x

/-- The bytes of a triplet, in order. -/
def tripletBytes (t : Triplet) : List Byte := [t.1, t.2.1, t.2.2]

/-- The output of RLE3.ENC (46_rle.md R184): records `(count, t0, t1, t2)`. -/
def rle3Encode (x : List Byte) : List Byte :=
  (runs (triplets x)).flatMap fun r => countByte r.1 :: tripletBytes r.2

/-- The records of a triplet run-length stream, expanded; a count of 0 is malformed
(46_rle.md R185). -/
def rle3Expand : List Byte → Except ErrorKind (List Byte)
  | [] => .ok []
  | count :: t0 :: t1 :: t2 :: y =>
    if count = 0 then .error .formatError
    else
      match rle3Expand y with
      | .error e => .error e
      | .ok z => .ok ((List.replicate count.toNat (tripletBytes (t0, t1, t2))).flatten ++ z)
  | _ => .error .formatError

/-- The last tests of RLE3.DEC (46_rle.md R185): the expansion has the known length rounded up to a
multiple of 3, and the bytes beyond the known length are zero. -/
def cutToLength (k : Nat) (z : List Byte) : Except ErrorKind (List Byte) :=
  if z.length ≠ 3 * ceilDiv k 3 then .error .formatError
  else if (z.drop k).any (fun b => decide (b ≠ 0)) then .error .formatError
  else .ok (z.take k)

/-- The output of RLE3.DEC for the known length `k` (46_rle.md R185): the sign of `k`, the length of
the stream, the records, the two last tests. -/
def rle3Decode (k : Int) (y : List Byte) : Except ErrorKind (List Byte) :=
  if k < 0 then .error .valueRangeError
  else if y.length % 4 ≠ 0 then .error .formatError
  else
    match rle3Expand y with
    | .error e => .error e
    | .ok z => cutToLength k.toNat z

/-- RLE.ENC (46_rle.md R181). -/
def execRleEnc (s : State) : Result := replyStream (rleEncode s.packet.inp) s

/-- RLE.DEC (46_rle.md R182). -/
def execRleDec (s : State) : Result := endStream (rleDecode s.packet.inp) s

/-- RLE3.ENC (46_rle.md R184). -/
def execRle3Enc (s : State) : Result := replyStream (rle3Encode s.packet.inp) s

/-- RLE3.DEC (46_rle.md R185); the known original length is operand A. -/
def execRle3Dec (s : State) : Result := endStream (rle3Decode s.opA s.packet.inp) s

end Sys2Proof.Machine
end

