-- ==== Sys2Proof/Machine/Dispatch.lean ====
section
/-! DEFINITION. One arm per command: the meaning it has. -/

namespace Sys2Proof.Machine

def exec (i : Instr) (s : State) : Host.Outcome State Fault Refusal :=
  match i with
  | .getreg n => Sys2Proof.Machine.execGetreg n s
  | .rdOpen => Sys2Proof.Machine.execRdOpen s
  | .rdBitsU n => Sys2Proof.Machine.execRdBitsU n s
  | .rdBitsI n => Sys2Proof.Machine.execRdBitsI n s
  | .rdAlign => Sys2Proof.Machine.execRdAlign s
  | .rdU8 => Sys2Proof.Machine.execRdU8 s
  | .rdI8 => Sys2Proof.Machine.execRdI8 s
  | .rdU16LE => Sys2Proof.Machine.execRdU16LE s
  | .rdI16LE => Sys2Proof.Machine.execRdI16LE s
  | .rdU16BE => Sys2Proof.Machine.execRdU16BE s
  | .rdI16BE => Sys2Proof.Machine.execRdI16BE s
  | .wrOpen => Sys2Proof.Machine.execWrOpen s
  | .wrBitsU n => Sys2Proof.Machine.execWrBitsU n s
  | .wrBitsI n => Sys2Proof.Machine.execWrBitsI n s
  | .wrAlign => Sys2Proof.Machine.execWrAlign s
  | .wrU8 => Sys2Proof.Machine.execWrU8 s
  | .wrI8 => Sys2Proof.Machine.execWrI8 s
  | .wrU16LE => Sys2Proof.Machine.execWrU16LE s
  | .wrI16LE => Sys2Proof.Machine.execWrI16LE s
  | .wrU16BE => Sys2Proof.Machine.execWrU16BE s
  | .wrI16BE => Sys2Proof.Machine.execWrI16BE s
  | .rleEnc => Sys2Proof.Machine.execRleEnc s
  | .rleDec => Sys2Proof.Machine.execRleDec s
  | .rle3Enc => Sys2Proof.Machine.execRle3Enc s
  | .rle3Dec => Sys2Proof.Machine.execRle3Dec s
  | .b64Enc => Sys2Proof.Machine.execB64Enc s
  | .b64Dec => Sys2Proof.Machine.execB64Dec s

end Sys2Proof.Machine
end

