-- ==== Sys2Proof/Machine/Issue.lean ====
section
/-! DEFINITION. One command from packet to response, and one input of the host. -/

namespace Sys2Proof.Machine

/-- The unit executes one command packet (30_encoding.md R70, R75): the command its word spells, or
IllegalCommand for a word that spells none, before any operand is examined. -/
def issue (p : Packet) (s : State) : Result :=
  match decode p.cw with
  | .error _ => raise .illegalCommand (s.receive p)
  | .ok i => exec i (s.receive p)

/-- What the host does next: it issues a command, asserts reset (70_reset_and_hazards.md R240), or
does nothing, and then the unit waits (R240, R244; log entry 2). -/
def takeInput (s : State) : Result :=
  match s.inputs with
  | [] => .next s
  | .reset :: _ => .next s.dropInput.applyReset
  | .command p :: _ => issue p s.dropInput

end Sys2Proof.Machine
end

