-- ==== Sys2Proof/Machine/Step.lean ====
section
/-! DEFINITION. The step of the machine: one input of the host (30_encoding.md R70). -/

namespace Sys2Proof.Machine

/-- One step: the host's next input, completely. -/
def step (s : State) : Host.Outcome State Fault Refusal := takeInput s

/-- The state in which the host issues the command word made of the low `nbits` bits of `w`, with
operands 0 and IN empty, before anything else (log entry 3). -/
def State.withFetchWord (s : State) (nbits w : Nat) : State :=
  s.issueFirst (Packet.ofWord (tableWord nbits w))

end Sys2Proof.Machine
end

