-- ==== Sys2Proof/Machine/Transaction.lean ====
section
/-! DEFINITION. The host's side of a transaction (30_encoding.md R70, 45_codec_macros.md R150): issuing packets, reading their responses, stopping at the first error. -/

namespace Sys2Proof.Machine

/-- What a host-side activity ends in: a result and the state of the unit, an error (the unit's or
the host's own) and that state, a situation that is not admitted, or a stop of the machine. -/
inductive HostResult (α : Type) where
  | done (v : α) (s : State)
  | failed (e : ErrorKind) (s : State)
  | notAdmitted (s : State)
  | stopped (r : Result)
deriving Repr

/-- Continue after a result; everything else ends the activity (45_codec_macros.md R150). -/
def andThen {α β : Type} (x : HostResult α) (f : α → State → HostResult β) : HostResult β :=
  match x with
  | .done v s => f v s
  | .failed e s => .failed e s
  | .notAdmitted s => .notAdmitted s
  | .stopped r => .stopped r

/-- How the host reads the response to its command (45_codec_macros.md R150): V when `ST = 0`, else
the error. -/
def readResponse (s : State) : HostResult Int :=
  match s.responses.getLast? with
  | none => .notAdmitted s
  | some r =>
    match errorOfCode r.st with
    | none => .done r.v.toInt s
    | some e => .failed e s

/-- Issue a packet and read its response. -/
def send (p : Packet) (s : State) : HostResult Int :=
  match issue p s with
  | .next t => readResponse t
  | .fault f => .stopped (.fault f)
  | .refused r => .stopped (.refused r)

/-- Issue packets in order, stopping at the first error (45_codec_macros.md R150). -/
def sendAll : List Packet → State → HostResult Unit
  | [], s => .done () s
  | p :: ps, s => andThen (send p s) fun _ t => sendAll ps t

end Sys2Proof.Machine
end

