-- ==== Sys2Proof/Machine/Codec.lean ====
section
/-! DEFINITION. The codec combinators of 45_codec_macros.md: pseudo-instructions that the host expands into commands of the unit (R150). An encode expansion is a list of packets; a decode expansion issues commands and computes from their results. The unit sees only the commands. -/

namespace Sys2Proof.Machine

/-- A value a codec takes or gives: none for the zero-value codecs, an integer, a truth value, a
symbolic key of an enum, a record of a struct, a list of an array. (Lean derives no decidable
equality for a type that nests itself in lists; no field of State holds one.) -/
inductive Value where
  | none
  | int (v : Int)
  | bool (b : Bool)
  | key (k : String)
  | record (fields : List (String × Value))
  | list (xs : List Value)
deriving Repr

/-- The codec combinators (30_encoding.md R78). -/
inductive Codec where
  | u (n : Nat)
  | i (n : Nat)
  | bool
  | u8
  | i8
  | u16le
  | i16le
  | u16be
  | i16be
  | alignToByte
  | padBits (n : Nat)
  | enum (name : String) (nBits : Nat) (mapping : List (String × Int))
  | field (name : String) (codec : Codec)
  | struct (name : String) (items : List Codec)
  | array (name : String) (elem : Codec) (count : Nat)
  | varArray (name : String) (elem lengthCodec : Codec) (maxCount : Nat)
    (alignAfterLength : Bool := false)
deriving Repr

/-- Why a host-side expansion stops by itself: an error of its own (45_codec_macros.md R159, R163 to
R166), or a situation the model does not admit (93_implementation_defined.md U10, U11). -/
inductive HostStop where
  | error (e : ErrorKind)
  | notAdmitted
deriving DecidableEq, Repr

/-- An encode expansion: the commands to issue, in order, and why the host stops after them, if it
does (45_codec_macros.md R150). -/
structure Script where
  packets : List Packet
  stop : Option HostStop
deriving DecidableEq, Repr

/-- The expansion that issues nothing. -/
def emptyScript : Script := ⟨[], none⟩

/-- The expansion that stops at once. -/
def stopScript (h : HostStop) : Script := ⟨[], some h⟩

/-- One expansion after another: a stop of the first ends both. -/
def followedBy (x y : Script) : Script :=
  match x.stop with
  | some h => ⟨x.packets, some h⟩
  | none => ⟨x.packets ++ y.packets, y.stop⟩

/-- Whether an integer is a 64-bit operand (30_encoding.md R71). -/
def isOperand (v : Int) : Bool := decide (-(2 ^ 63) ≤ v ∧ v < 2 ^ 63)

/-- The packet of a command with operand A. -/
def commandPacket (i : Instr) (v : Int) : Packet := ⟨encode i, BitVec.ofInt 64 v, 0, 0, []⟩

/-- One command with operand A; an integer that is no 64-bit operand is not admitted
(93_implementation_defined.md U10). -/
def oneCommand (i : Instr) (v : Int) : Script :=
  if isOperand v then ⟨[commandPacket i v], none⟩ else stopScript .notAdmitted

/-- The field N for a bit count, when a command word can carry it. -/
def countField (n : Nat) : Option NField := if n < 64 then some (BitVec.ofNat 6 n) else none

/-- `WR.BITSU n, v`; a bit count that no command word carries is ValueRangeError like every bit
count above 32 (45_codec_macros.md R151; log entry 13). -/
def scriptBitsU (n : Nat) (v : Int) : Script :=
  match countField n with
  | some k => oneCommand (.wrBitsU k) v
  | none => stopScript (.error .valueRangeError)

/-- `WR.BITSI n, v` (45_codec_macros.md R152). -/
def scriptBitsI (n : Nat) (v : Int) : Script :=
  match countField n with
  | some k => oneCommand (.wrBitsI k) v
  | none => stopScript (.error .valueRangeError)

/-- The pieces of a pad: whole 32-bit pieces and the rest (45_codec_macros.md R158). -/
def padPieces (n : Nat) : List Nat :=
  List.replicate (n / 32) 32 ++ (if n % 32 > 0 then [n % 32] else [])

/-- The encode expansion of `padBits(n)` (45_codec_macros.md R158). -/
def scriptPad (n : Nat) : Script :=
  (padPieces n).foldr (fun k acc => followedBy (scriptBitsU k 0) acc) emptyScript

/-- The code an enum stores for a value: the code of a key, or an integer as it stands; nothing else
has one (45_codec_macros.md R159). -/
def enumCode (mapping : List (String × Int)) : Value → Option Int
  | .key k => mapping.lookup k
  | .int v => some v
  | .none | .bool _ | .record _ | .list _ => Option.none

/-- The value an enum gives for a code: its key, or the code itself (45_codec_macros.md R159). -/
def enumValue (mapping : List (String × Int)) (code : Int) : Value :=
  match mapping.find? (fun e => decide (e.2 = code)) with
  | some e => .key e.1
  | none => .int code

/-- The name a codec has inside a struct: that of a field (45_codec_macros.md R160). -/
def Codec.fieldName : Codec → Option String
  | .field name _ => some name
  | .u _ | .i _ | .bool | .u8 | .i8 | .u16le | .i16le | .u16be | .i16be | .alignToByte | .padBits _
  | .enum _ _ _ | .struct _ _ | .array _ _ _ | .varArray _ _ _ _ _ => none

/-- The fields a value gives a struct. A struct without fields needs no value, so that it can stand
as an anonymous item, for which there is none (45_codec_macros.md R161). -/
def recordOf : Value → Option (List (String × Value))
  | .record fields => some fields
  | .none => some []
  | .int _ | .bool _ | .key _ | .list _ => Option.none

/-- Whether a record has exactly the fields a struct declares, each once
(93_implementation_defined.md U11). -/
def recordMatches (items : List Codec) (fields : List (String × Value)) : Bool :=
  let declared := items.filterMap Codec.fieldName
  let given := fields.map Prod.fst
  decide given.Nodup && declared.all given.contains && given.all declared.contains

mutual

/-- Whether the descriptor is one the model admits: within an enum no two keys share a code and no
key stands twice, within a struct no field name stands twice (93_implementation_defined.md U11). -/
def Codec.admitted : Codec → Bool
  | .enum _ _ mapping =>
    decide (mapping.map Prod.fst).Nodup && decide (mapping.map Prod.snd).Nodup
  | .field _ c => c.admitted
  | .struct _ items => decide (items.filterMap Codec.fieldName).Nodup && admittedItems items
  | .array _ elem _ => elem.admitted
  | .varArray _ elem lengthCodec _ _ => elem.admitted && lengthCodec.admitted
  | .u _ | .i _ | .bool | .u8 | .i8 | .u16le | .i16le | .u16be | .i16be | .alignToByte
  | .padBits _ => true

/-- Whether every item of a struct is admitted. -/
def admittedItems : List Codec → Bool
  | [] => true
  | c :: cs => c.admitted && admittedItems cs

end

mutual

/-- `bitSize` (45_codec_macros.md R151 to R164): a number of bits, or none for Variable. -/
def Codec.bitSize : Codec → Option Nat
  | .u n => some n
  | .i n => some n
  | .bool => some 1
  | .u8 => some 8
  | .i8 => some 8
  | .u16le => some 16
  | .i16le => some 16
  | .u16be => some 16
  | .i16be => some 16
  | .alignToByte => none
  | .padBits n => some n
  | .enum _ nBits _ => some nBits
  | .field _ c => c.bitSize
  | .struct _ items => itemsBitSize items
  | .array _ elem count => elem.bitSize.map (· * count)
  | .varArray _ _ _ _ _ => none

/-- The sum of the sizes of a struct's items, if every one is fixed (45_codec_macros.md R162). -/
def itemsBitSize : List Codec → Option Nat
  | [] => some 0
  | c :: cs =>
    match c.bitSize, itemsBitSize cs with
    | some a, some b => some (a + b)
    | _, _ => none

end

/-- One entry of a struct's layout: a field's bit offset and its size, none for Variable
(45_codec_macros.md R162). -/
structure LayoutEntry where
  name : String
  bitOffset : Nat
  bitSize : Option Nat
deriving DecidableEq, Repr

/-- The layout of items that begin at an offset, which is unknown after a Variable item
(45_codec_macros.md R162). -/
def layoutFrom : Option Nat → List Codec → List LayoutEntry
  | _, [] => []
  | none, _ :: _ => []
  | some off, c :: cs =>
    (match c.fieldName with
      | some name => [⟨name, off, c.bitSize⟩]
      | none => []) ++ layoutFrom (c.bitSize.map (off + ·)) cs

/-- The layout of a struct (45_codec_macros.md R162); other codecs have none. -/
def Codec.layout : Codec → List LayoutEntry
  | .struct _ items => layoutFrom (some 0) items
  | .u _ | .i _ | .bool | .u8 | .i8 | .u16le | .i16le | .u16be | .i16be | .alignToByte | .padBits _
  | .enum _ _ _ | .field _ _ | .array _ _ _ | .varArray _ _ _ _ _ => []

/-- `byteSizeCeil`, "only defined for fixed-size structs" (45_codec_macros.md R162). -/
def Codec.byteSizeCeil : Codec → Option Nat
  | .struct _ items => (itemsBitSize items).map (ceilDiv · 8)
  | .u _ | .i _ | .bool | .u8 | .i8 | .u16le | .i16le | .u16be | .i16be | .alignToByte | .padBits _
  | .enum _ _ _ | .field _ _ | .array _ _ _ | .varArray _ _ _ _ _ => none

mutual

/-- `ENC(c, v)` (45_codec_macros.md R151 to R164). `aligns` is the parameter CODEC_ALIGNS (R154). A
value of a shape the codec does not take is not admitted (93_implementation_defined.md U11). -/
def Codec.enc (aligns : Bool) : Codec → Value → Script
  | .u n, .int v => scriptBitsU n v
  | .i n, .int v => scriptBitsI n v
  | .bool, .bool b => scriptBitsU 1 (if b then 1 else 0)
  | .u8, .int v => if aligns then oneCommand .wrU8 v else scriptBitsU 8 v
  | .i8, .int v => if aligns then oneCommand .wrI8 v else scriptBitsI 8 v
  | .u16le, .int v => if aligns then oneCommand .wrU16LE v else scriptBitsU 16 v
  | .i16le, .int v => if aligns then oneCommand .wrI16LE v else scriptBitsI 16 v
  | .u16be, .int v =>
    if aligns then oneCommand .wrU16BE v
    else followedBy (scriptBitsU 8 (v / 256)) (scriptBitsU 8 (v % 256))
  | .i16be, .int v =>
    if aligns then oneCommand .wrI16BE v
    else followedBy (scriptBitsI 8 (v / 256)) (scriptBitsU 8 (v % 256))
  | .alignToByte, .none => oneCommand .wrAlign 0
  | .padBits n, .none => scriptPad n
  | .enum _ nBits mapping, x =>
    match enumCode mapping x with
    | some code => scriptBitsU nBits code
    | none => stopScript (.error .valueRangeError)
  | .field name c, .record fields =>
    match fields.lookup name with
    | some v => Codec.enc aligns c v
    | none => stopScript .notAdmitted
  | .struct _ items, x =>
    match recordOf x with
    | some fields =>
      if recordMatches items fields then encItems aligns items fields else stopScript .notAdmitted
    | none => stopScript .notAdmitted
  | .array _ elem count, .list xs =>
    if xs.length ≠ count then stopScript (.error .structureError)
    else xs.foldr (fun x acc => followedBy (Codec.enc aligns elem x) acc) emptyScript
  | .varArray _ elem lengthCodec maxCount alignAfterLength, .list xs =>
    if xs.length > maxCount then stopScript (.error .structureError)
    else
      followedBy (Codec.enc aligns lengthCodec (.int xs.length))
        (followedBy (if alignAfterLength then oneCommand .wrAlign 0 else emptyScript)
          (xs.foldr (fun x acc => followedBy (Codec.enc aligns elem x) acc) emptyScript))
  | _, _ => stopScript .notAdmitted

/-- The items of a struct in declaration order: a field takes its value from the record, an
anonymous item takes none (45_codec_macros.md R161). -/
def encItems (aligns : Bool) : List Codec → List (String × Value) → Script
  | [], _ => emptyScript
  | c :: cs, fields =>
    followedBy (Codec.enc aligns c (if c.fieldName.isSome then .record fields else .none))
      (encItems aligns cs fields)

end

/-- Run an encode expansion. -/
def runScript (x : Script) (s : State) : HostResult Unit :=
  andThen (sendAll x.packets s) fun _ t =>
    match x.stop with
    | none => .done () t
    | some (.error e) => .failed e t
    | some .notAdmitted => .notAdmitted t

/-- Encode a value through the writer context (45_codec_macros.md R150). -/
def encodeValue (aligns : Bool) (c : Codec) (v : Value) (s : State) : HostResult Unit :=
  if c.admitted then runScript (c.enc aligns v) s else .notAdmitted s

/-- Issue a reader command without operands and take V. -/
def fetch (i : Instr) (s : State) : HostResult Int := send (commandPacket i 0) s

/-- `RD.BITSU n`. -/
def fetchBitsU (n : Nat) (s : State) : HostResult Int :=
  match countField n with
  | some k => fetch (.rdBitsU k) s
  | none => .failed .valueRangeError s

/-- `RD.BITSI n`. -/
def fetchBitsI (n : Nat) (s : State) : HostResult Int :=
  match countField n with
  | some k => fetch (.rdBitsI k) s
  | none => .failed .valueRangeError s

/-- A result as an integer value. -/
def asInt (x : HostResult Int) : HostResult Value := andThen x fun v t => .done (.int v) t

/-- A result discarded. -/
def discard (x : HostResult Int) : HostResult Value := andThen x fun _ t => .done .none t

/-- The pieces of a pad, read and discarded (45_codec_macros.md R158). -/
def fetchPad : List Nat → State → HostResult Value
  | [], s => .done .none s
  | k :: ks, s => andThen (fetchBitsU k s) fun _ t => fetchPad ks t

/-- A high byte and then an unsigned low byte, `hi * 256 + lo` (45_codec_macros.md R156). -/
def fetchPair (hi : State → HostResult Int) (s : State) : HostResult Value :=
  andThen (hi s) fun h t => andThen (fetchBitsU 8 t) fun l t' => .done (.int (h * 256 + l)) t'

/-- A decode done a number of times, in order (45_codec_macros.md R163). -/
def decTimes (d : State → HostResult Value) : Nat → State → HostResult (List Value)
  | 0, s => .done [] s
  | n + 1, s => andThen (d s) fun v t => andThen (decTimes d n t) fun vs t' => .done (v :: vs) t'

/-- The length a length codec gave, as an integer. -/
def lengthOf : Value → Option Int
  | .int v => some v
  | .none | .bool _ | .key _ | .record _ | .list _ => Option.none

mutual

/-- `DEC(c)` (45_codec_macros.md R151 to R165). -/
def Codec.dec (aligns : Bool) : Codec → State → HostResult Value
  | .u n, s => asInt (fetchBitsU n s)
  | .i n, s => asInt (fetchBitsI n s)
  | .bool, s => andThen (fetchBitsU 1 s) fun v t => .done (.bool (decide (v = 1))) t
  | .u8, s => asInt (if aligns then fetch .rdU8 s else fetchBitsU 8 s)
  | .i8, s => asInt (if aligns then fetch .rdI8 s else fetchBitsI 8 s)
  | .u16le, s => asInt (if aligns then fetch .rdU16LE s else fetchBitsU 16 s)
  | .i16le, s => asInt (if aligns then fetch .rdI16LE s else fetchBitsI 16 s)
  | .u16be, s => if aligns then asInt (fetch .rdU16BE s) else fetchPair (fetchBitsU 8) s
  | .i16be, s => if aligns then asInt (fetch .rdI16BE s) else fetchPair (fetchBitsI 8) s
  | .alignToByte, s => discard (fetch .rdAlign s)
  | .padBits n, s => fetchPad (padPieces n) s
  | .enum _ nBits mapping, s =>
    andThen (fetchBitsU nBits s) fun code t => .done (enumValue mapping code) t
  | .field _ c, s => Codec.dec aligns c s
  | .struct _ items, s => andThen (decItems aligns items s) fun fields t => .done (.record fields) t
  | .array _ elem count, s =>
    andThen (decTimes (Codec.dec aligns elem) count s) fun xs t => .done (.list xs) t
  | .varArray _ elem lengthCodec maxCount alignAfterLength, s =>
    andThen (Codec.dec aligns lengthCodec s) fun lv t =>
      match lengthOf lv with
      | Option.none => .notAdmitted t
      | some l =>
        if l > maxCount ∨ l < 0 then .failed .structureError t
        else
          andThen (if alignAfterLength then discard (fetch .rdAlign t) else .done .none t)
            fun _ t' => andThen (decTimes (Codec.dec aligns elem) l.toNat t') fun xs t'' =>
              .done (.list xs) t''

/-- The items of a struct in declaration order: a field gives an entry of the record, an anonymous
item gives none (45_codec_macros.md R161). -/
def decItems (aligns : Bool) : List Codec → State → HostResult (List (String × Value))
  | [], s => .done [] s
  | c :: cs, s =>
    andThen (Codec.dec aligns c s) fun v t =>
      andThen (decItems aligns cs t) fun fields t' =>
        match c.fieldName with
        | some name => .done ((name, v) :: fields) t'
        | none => .done fields t'

end

/-- Decode a value through the reader context (45_codec_macros.md R150). -/
def decodeValue (aligns : Bool) (c : Codec) (s : State) : HostResult Value :=
  if c.admitted then c.dec aligns s else .notAdmitted s

end Sys2Proof.Machine
end

