-- ==== Sys2Proof/Safety.lean ====
section
/-! DEFINITION. The terms the claims are stated in: the invariant of 10_state.md R24, bits and fields of BUF, what a failed command leaves, and runs. -/

namespace Sys2Proof.Machine

/-- A context is legal over a BUF of `n` bytes: the region lies in BUF and the cursor in the region
(10_state.md R22, R24). -/
def Context.legal (n : Nat) (c : Context) : Prop := c.base + c.size ≤ n ∧ c.cur ≤ 8 * c.size

/-- The invariant of every reachable state: both contexts are legal (10_state.md R24), BUF_BYTES is in
its range (00_scope.md R6), ERR holds OK or an error of the unit's own (10_state.md R26,
45_codec_macros.md R166), and the recorded bytes are in canonical form and inside BUF. -/
def State.Inv (s : State) : Prop :=
  Memory.wf s.buf = true ∧ (∀ cell ∈ s.buf, cell.1 < s.bufBytes) ∧ 8 * s.bufBytes < 2 ^ 63 ∧
    s.rd.legal s.bufBytes ∧ s.wr.legal s.bufBytes ∧
    (s.err = 0 ∨ s.err = 1 ∨ s.err = 2 ∨ s.err = 4 ∨ s.err = 5)

/-- Bit `x` of BUF: bit `x mod 8` of `BUF[x div 8]`. Cursor bit `k` of a context is bit
`8 * BASE + k` of BUF (20_memory.md R52). -/
def Memory.bit (m : Memory) (x : Nat) : Bool := (Memory.byteAt m (x / 8)).getLsbD (x % 8)

/-- The unsigned integer in the `n` bits of BUF from bit `x`, the first the least significant: the
sum of 20_memory.md R54. -/
def Memory.field (m : Memory) (x n : Nat) : Nat :=
  ∑ j ∈ Finset.range n, if Memory.bit m (x + j) then 2 ^ j else 0

/-- The bit of BUF under the cursor of a context (20_memory.md R52). -/
def Context.bitPos (c : Context) : Nat := 8 * c.base + c.cur

/-- The byte of BUF at the aligned cursor of a context (20_memory.md R52, R60). -/
def Context.alignedByte (c : Context) : Nat := c.base + (c.cur + 7) / 8

/-- The aligned cursor of a context, `8 * ceil(CUR / 8)` (20_memory.md R60). -/
def Context.aligned (c : Context) : Context := { c with cur := 8 * ((c.cur + 7) / 8) }

/-- What a command that fails with `e` leaves of a state, by 60_exceptions.md R214 items 1 and 2: the
response and ERR, and nothing else. -/
def State.failedWith (s : State) (e : ErrorKind) : State :=
  { s with err := if s.err = 0 then e.code else s.err
           responses := s.responses ++ [⟨e.code, 0, []⟩] }

/-- What a command that succeeds with result `v` and output `out` adds to a state: its response. -/
def State.answered (s : State) (v : Word) (out : List Byte) : State :=
  { s with responses := s.responses ++ [⟨0, v, out⟩] }

/-- What a write of the field `a`'s low `n` bits to bit `x` of BUF leaves (20_memory.md R55): the field
holds them, the lowest at the lowest position; every other bit is as before, and so is every byte
without a bit of the field. -/
def FieldStored (m m' : Memory) (x n : Nat) (a : Word) : Prop :=
  (∀ y, Memory.bit m' y = if x ≤ y ∧ y < x + n then a.getLsbD (y - x) else Memory.bit m y) ∧
    ∀ addr, 8 * addr + 8 ≤ x ∨ x + n ≤ 8 * addr → Memory.byteAt m' addr = Memory.byteAt m addr

/-- What a store of the bytes `bs` from address `a0` of BUF leaves: those bytes, in address order, and
every other byte as before. -/
def BytesStored (m m' : Memory) (a0 : Nat) (bs : List Byte) : Prop :=
  ∀ addr, Memory.byteAt m' addr =
    if a0 ≤ addr ∧ addr < a0 + bs.length then bs.getD (addr - a0) 0 else Memory.byteAt m addr

/-- The commands that name the reader context (10_state.md R32). -/
def isReader : Instr → Bool
  | .rdOpen | .rdBitsU _ | .rdBitsI _ | .rdAlign | .rdU8 | .rdI8 | .rdU16LE | .rdI16LE | .rdU16BE
  | .rdI16BE => true
  | .getreg _ | .wrOpen | .wrBitsU _ | .wrBitsI _ | .wrAlign | .wrU8 | .wrI8 | .wrU16LE | .wrI16LE
  | .wrU16BE | .wrI16BE | .rleEnc | .rleDec | .rle3Enc | .rle3Dec | .b64Enc | .b64Dec => false

/-- The commands that name the writer context (10_state.md R32). -/
def isWriter : Instr → Bool
  | .wrOpen | .wrBitsU _ | .wrBitsI _ | .wrAlign | .wrU8 | .wrI8 | .wrU16LE | .wrI16LE | .wrU16BE
  | .wrI16BE => true
  | .getreg _ | .rdOpen | .rdBitsU _ | .rdBitsI _ | .rdAlign | .rdU8 | .rdI8 | .rdU16LE | .rdI16LE
  | .rdU16BE | .rdI16BE | .rleEnc | .rleDec | .rle3Enc | .rle3Dec | .b64Enc | .b64Dec => false

/-- The stream commands (10_state.md R27). -/
def isStream : Instr → Bool
  | .rleEnc | .rleDec | .rle3Enc | .rle3Dec | .b64Enc | .b64Dec => true
  | .getreg _ | .rdOpen | .rdBitsU _ | .rdBitsI _ | .rdAlign | .rdU8 | .rdI8 | .rdU16LE | .rdI16LE
  | .rdU16BE | .rdI16BE | .wrOpen | .wrBitsU _ | .wrBitsI _ | .wrAlign | .wrU8 | .wrI8 | .wrU16LE
  | .wrI16LE | .wrU16BE | .wrI16BE => false

/-- The aligned reads (44_aligned_read.md R140). -/
def isAlignedRead : Instr → Bool
  | .rdU8 | .rdI8 | .rdU16LE | .rdI16LE | .rdU16BE | .rdI16BE => true
  | .getreg _ | .rdOpen | .rdBitsU _ | .rdBitsI _ | .rdAlign | .wrOpen | .wrBitsU _ | .wrBitsI _
  | .wrAlign | .wrU8 | .wrI8 | .wrU16LE | .wrI16LE | .wrU16BE | .wrI16BE | .rleEnc | .rleDec
  | .rle3Enc | .rle3Dec | .b64Enc | .b64Dec => false

/-- The aligned writes (43_aligned_write.md R130). -/
def isAlignedWrite : Instr → Bool
  | .wrU8 | .wrI8 | .wrU16LE | .wrI16LE | .wrU16BE | .wrI16BE => true
  | .getreg _ | .rdOpen | .rdBitsU _ | .rdBitsI _ | .rdAlign | .rdU8 | .rdI8 | .rdU16LE | .rdI16LE
  | .rdU16BE | .rdI16BE | .wrOpen | .wrBitsU _ | .wrBitsI _ | .wrAlign | .rleEnc | .rleDec
  | .rle3Enc | .rle3Dec | .b64Enc | .b64Dec => false

/-- The commands that answer with a value V (30_encoding.md R74, column "result"). -/
def answersValue : Instr → Bool
  | .getreg _ | .rdBitsU _ | .rdBitsI _ | .rdU8 | .rdI8 | .rdU16LE | .rdI16LE | .rdU16BE
  | .rdI16BE => true
  | .rdOpen | .rdAlign | .wrOpen | .wrBitsU _ | .wrBitsI _ | .wrAlign | .wrU8 | .wrI8 | .wrU16LE
  | .wrI16LE | .wrU16BE | .wrI16BE | .rleEnc | .rleDec | .rle3Enc | .rle3Dec | .b64Enc
  | .b64Dec => false

/-- Runs of a stream, expanded: each as many copies of its value as its count says
(46_rle.md R181). -/
def expandRuns {α : Type} (rs : List (Nat × α)) : List α :=
  rs.flatMap fun r => List.replicate r.1 r.2

/-- Runs cut greedily from the left: every count is 1 to 255, and two neighbours have the same value
only when the first is full (46_rle.md R181). -/
def greedyRuns {α : Type} : List (Nat × α) → Prop
  | [] => True
  | [r] => 1 ≤ r.1 ∧ r.1 ≤ 255
  | r :: r' :: rs => 1 ≤ r.1 ∧ r.1 ≤ 255 ∧ (r.2 = r'.2 → r.1 = 255) ∧ greedyRuns (r' :: rs)

/-- Triplet `q` of a byte sequence, zeros where it ends (46_rle.md R184). -/
def tripletAt (x : List Byte) (q : Nat) : List Byte :=
  [x.getD (3 * q) 0, x.getD (3 * q + 1) 0, x.getD (3 * q + 2) 0]

/-- Group `g` of the base64 text of a byte sequence, as 47_base64.md R201 computes it. -/
def textGroupAt (x : List Byte) (g : Nat) : List Byte :=
  let m := min 3 (x.length - 3 * g)
  let w := (x.getD (3 * g) 0).toNat * 2 ^ 16
    + (if m ≥ 2 then (x.getD (3 * g + 1) 0).toNat * 2 ^ 8 else 0)
    + (if m = 3 then (x.getD (3 * g + 2) 0).toNat else 0)
  [alphaByte (w / 2 ^ 18 % 64), alphaByte (w / 2 ^ 12 % 64),
   if m ≥ 2 then alphaByte (w / 2 ^ 6 % 64) else 0x3D,
   if m = 3 then alphaByte (w % 64) else 0x3D]

/-- How many pad bytes end group `g` of a text (47_base64.md R202). -/
def textPad (t : List Byte) (g : Nat) : Nat :=
  if t.getD (4 * g + 3) 0 = 0x3D ∧ t.getD (4 * g + 2) 0 = 0x3D then 2
  else if t.getD (4 * g + 3) 0 = 0x3D then 1
  else 0

/-- The 24 bits of group `g` of a text, without the pad (47_base64.md R202). -/
def textValue (t : List Byte) (g : Nat) : Nat :=
  ∑ k ∈ Finset.range (4 - textPad t g),
    ((alphaIndex (t.getD (4 * g + k) 0)).getD 0) * 2 ^ (18 - 6 * k)

/-- Group `g` of a text is malformed (47_base64.md R202): a pad before the last group, a byte outside
the alphabet, or unused low bits that are not zero. -/
def textGroupBad (t : List Byte) (g : Nat) : Prop :=
  (textPad t g > 0 ∧ g + 1 ≠ t.length / 4) ∨
    (∃ k < 4 - textPad t g, alphaIndex (t.getD (4 * g + k) 0) = none) ∨
    (textPad t g = 2 ∧ textValue t g % 2 ^ 16 ≠ 0) ∨ (textPad t g = 1 ∧ textValue t g % 2 ^ 8 ≠ 0)

/-- The bytes of group `g` of a text (47_base64.md R202). -/
def textBytes (t : List Byte) (g : Nat) : List Byte :=
  ([BitVec.ofNat 8 (textValue t g / 2 ^ 16 % 256), BitVec.ofNat 8 (textValue t g / 2 ^ 8 % 256),
    BitVec.ofNat 8 (textValue t g % 256)] : List Byte).take (3 - textPad t g)

/-- A run is made of commands only: the host asserts no reset (70_reset_and_hazards.md R244). -/
def State.commandsOnly (s : State) : Prop := ∀ x ∈ s.inputs, x ≠ .reset

/-- Every response given so far has `ST = 0` (70_reset_and_hazards.md R244). -/
def State.errorFree (s : State) : Prop := ∀ r ∈ s.responses, r.st = 0

end Sys2Proof.Machine
end

