-- ==== Sys2Proof/CodecImage.lean ====
section
/-! DEFINITION. The terms the claims about codecs are stated in: the bits a value takes in the region, the value that comes back, the commands an activity has issued. Written from 45_codec_macros.md without its commands. -/

namespace Sys2Proof.Machine

/-- The bits that a codec puts at consecutive places of the region; `none` is a place that an
alignment skips and leaves as it is (45_codec_macros.md R157). -/
abbrev Image := List (Option Bool)

/-- The low `n` bits of the two's complement of `v`, the lowest first (20_memory.md R52,
41_bit_write.md R113). -/
def bitsOf (n : Nat) (v : Int) : Image :=
  (List.range n).map fun j => some (decide (v / 2 ^ j % 2 = 1))

/-- The image of an unsigned field, if the value fits (45_codec_macros.md R151). -/
def unsignedImage (n : Nat) (v : Int) : Option Image :=
  if n ≤ 32 ∧ 0 ≤ v ∧ v < 2 ^ n then some (bitsOf n v) else none

/-- The image of a signed field, if the value fits (45_codec_macros.md R152). -/
def signedImage (n : Nat) (v : Int) : Option Image :=
  if 1 ≤ n ∧ n ≤ 32 ∧ -(2 ^ (n - 1)) ≤ v ∧ v < 2 ^ (n - 1) then some (bitsOf n v) else none

/-- The places that an alignment at cursor `k` skips (20_memory.md R60). -/
def skipped (k : Nat) : Image := List.replicate (8 * ((k + 7) / 8) - k) none

/-- An image that an alignment precedes when CODEC_ALIGNS is true (45_codec_macros.md R154). -/
def alignedImage (aligns : Bool) (k : Nat) (x : Option Image) : Option Image :=
  if aligns then x.map (skipped k ++ ·) else x

/-- The high byte of a 16-bit image before the low one (45_codec_macros.md R156). -/
def highByteFirst (x : Image) : Image := x.drop 8 ++ x.take 8

/-- One image and then another, which begins at the cursor that the first leaves. -/
def imageThen (x : Option Image) (f : Nat → Option Image) (k : Nat) : Option Image :=
  match x with
  | some bs => (f (k + bs.length)).map (bs ++ ·)
  | none => none

/-- The images of the elements of a list, one after another (45_codec_macros.md R163). -/
def listImage (f : Value → Nat → Option Image) : List Value → Nat → Option Image
  | [], _ => some []
  | x :: xs, k => imageThen (f x k) (listImage f xs) k

mutual

/-- The image of a value at cursor `k`; none when the codec does not take the value
(45_codec_macros.md R151 to R164). -/
def Codec.image (aligns : Bool) : Codec → Value → Nat → Option Image
  | .u n, .int v, _ => unsignedImage n v
  | .i n, .int v, _ => signedImage n v
  | .bool, .bool b, _ => some [some b]
  | .u8, .int v, k => alignedImage aligns k (unsignedImage 8 v)
  | .i8, .int v, k => alignedImage aligns k (signedImage 8 v)
  | .u16le, .int v, k => alignedImage aligns k (unsignedImage 16 v)
  | .i16le, .int v, k => alignedImage aligns k (signedImage 16 v)
  | .u16be, .int v, k => alignedImage aligns k ((unsignedImage 16 v).map highByteFirst)
  | .i16be, .int v, k => alignedImage aligns k ((signedImage 16 v).map highByteFirst)
  | .alignToByte, .none, k => some (skipped k)
  | .padBits n, .none, _ => some (List.replicate n (some false))
  | .enum _ nBits mapping, .key name, _ =>
    match mapping.lookup name with
    | some code => unsignedImage nBits code
    | none => none
  | .enum _ nBits _, .int v, _ => unsignedImage nBits v
  | .field name c, .record fields, k =>
    match fields.lookup name with
    | some v => Codec.image aligns c v k
    | none => none
  | .struct _ items, .record fields, k =>
    if recordMatches items fields then itemsImage aligns items fields k else none
  | .struct _ items, .none, k =>
    if recordMatches items [] then itemsImage aligns items [] k else none
  | .array _ elem count, .list xs, k =>
    if xs.length = count then listImage (Codec.image aligns elem) xs k else none
  | .varArray _ elem lengthCodec maxCount alignAfterLength, .list xs, k =>
    if xs.length ≤ maxCount then
      imageThen (Codec.image aligns lengthCodec (.int xs.length) k)
        (fun k' => imageThen (some (if alignAfterLength then skipped k' else []))
          (listImage (Codec.image aligns elem) xs) k') k
    else none
  | _, _, _ => none

/-- The images of a struct's items in declaration order (45_codec_macros.md R161). -/
def itemsImage (aligns : Bool) : List Codec → List (String × Value) → Nat → Option Image
  | [], _, _ => some []
  | c :: cs, fields, k =>
    imageThen (Codec.image aligns c (if c.fieldName.isSome then .record fields else .none) k)
      (itemsImage aligns cs fields) k

end

mutual

/-- The value that a decode gives back for an encoded one. It is the value itself, but that a raw
integer of an enum which is some key's code comes back as the key (45_codec_macros.md R159), a record
comes back in declaration order, and a field alone gives the value under its name (R160, R161). -/
def Codec.canon : Codec → Value → Value
  | .enum _ _ mapping, .int v => enumValue mapping v
  | .field name c, .record fields =>
    match fields.lookup name with
    | some v => Codec.canon c v
    | none => .record fields
  | .struct _ items, .record fields => .record (canonItems items fields)
  | .struct _ _, .none => .record []
  | .array _ elem _, .list xs => .list (xs.map (Codec.canon elem))
  | .varArray _ elem _ _ _, .list xs => .list (xs.map (Codec.canon elem))
  | _, v => v

/-- The fields of a record in declaration order. -/
def canonItems : List Codec → List (String × Value) → List (String × Value)
  | [], _ => []
  | c :: cs, fields =>
    (match c.fieldName with
      | some name => [(name, Codec.canon c (.record fields))]
      | none => []) ++ canonItems cs fields

end

/-- Whether a length codec gives a number for every count up to a limit. An enum that maps one of them
to a key does not: its decode is the key (45_codec_macros.md R159; log entry 13). -/
def countsAreNumbers (lengthCodec : Codec) (maxCount : Nat) : Bool :=
  match lengthCodec with
  | .enum _ _ mapping => mapping.all fun e => decide (e.2 < 0 ∨ (maxCount : Int) < e.2)
  | .u _ | .i _ | .bool | .u8 | .i8 | .u16le | .i16le | .u16be | .i16be | .alignToByte | .padBits _
  | .field _ _ | .struct _ _ | .array _ _ _ | .varArray _ _ _ _ _ => true

mutual

/-- Whether every varArray in a descriptor has a length codec that gives numbers. -/
def Codec.numericLengths : Codec → Bool
  | .field _ c => c.numericLengths
  | .struct _ items => numericLengthsOfItems items
  | .array _ elem _ => elem.numericLengths
  | .varArray _ elem lengthCodec maxCount _ =>
    elem.numericLengths && countsAreNumbers lengthCodec maxCount
  | .u _ | .i _ | .bool | .u8 | .i8 | .u16le | .i16le | .u16be | .i16be | .alignToByte | .padBits _
  | .enum _ _ _ => true

/-- The same for every item of a struct. -/
def numericLengthsOfItems : List Codec → Bool
  | [] => true
  | c :: cs => c.numericLengths && numericLengthsOfItems cs

end

/-- BUF holds an image from bit `x` on; the skipped places may hold anything. -/
def ImagePresent (m : Memory) (x : Nat) (bs : Image) : Prop :=
  ∀ (j : Nat) (b : Bool), bs[j]? = some (some b) → Memory.bit m (x + j) = b

/-- A write of an image from bit `x` on leaves every other bit of BUF, and every skipped one, as it
was. -/
def ImageStored (m m' : Memory) (x : Nat) (bs : Image) : Prop :=
  ImagePresent m' x bs ∧
    ∀ y, (∀ (j : Nat) (b : Bool), bs[j]? = some (some b) → y ≠ x + j) → Memory.bit m' y = Memory.bit m y

/-- An activity of the host over a state ends where 45_codec_macros.md R150 says: it has issued commands
that all succeeded, and either it is done, or the next one failed and its error is the result, or the
host itself stopped (R159, R163 to R166). In each case the unit is as those commands left it. -/
def EndsAtFirstError {α : Type} (x : HostResult α) (s : State) : Prop :=
  match x with
  | .done _ t => ∃ ps, sendAll ps s = .done () t
  | .failed e t =>
    (∃ ps p u, sendAll ps s = .done () u ∧ send p u = .failed e t) ∨
      ((e = .structureError ∨ e = .valueRangeError) ∧ ∃ ps, sendAll ps s = .done () t)
  | .notAdmitted t => ∃ ps, sendAll ps s = .done () t
  | .stopped r => ∃ ps p u, sendAll ps s = .done () u ∧ send p u = .stopped r

end Sys2Proof.Machine
end

