-- ==== Sys2Proof/Machine/Assembler.lean ====
section
/-! DEFINITION. The assembler lines of 30_encoding.md R77 and the pseudo-instructions RD.TELL, WR.TELL and WR.LEN of R78 and 40_context_control.md R105. Host-side: a line becomes one packet and a use of its answer. -/

namespace Sys2Proof.Machine

/-- What a command takes after its mnemonic (30_encoding.md R77). -/
inductive OperandShape where
  | nothing            -- no operand
  | register           -- GETREG: a register name, or its number
  | count              -- a bit count
  | countValue         -- a bit count and the value A
  | value              -- the value A
  | region             -- address, size and an optional cursor
  | stream             -- a byte sequence
  | streamLength       -- a byte sequence and `len=`
deriving DecidableEq, Repr

/-- The operand shape of a mnemonic (30_encoding.md R74, column "operands"). -/
def operandShape (mnemonic : String) : OperandShape :=
  if mnemonic = "GETREG" then .register
  else if mnemonic ∈ ["RD.OPEN", "WR.OPEN"] then .region
  else if mnemonic ∈ ["RD.BITSU", "RD.BITSI"] then .count
  else if mnemonic ∈ ["WR.BITSU", "WR.BITSI"] then .countValue
  else if mnemonic ∈ ["WR.U8", "WR.I8", "WR.U16LE", "WR.I16LE", "WR.U16BE", "WR.I16BE"] then .value
  else if mnemonic = "RLE3.DEC" then .streamLength
  else if mnemonic ∈ ["RLE.ENC", "RLE.DEC", "RLE3.ENC", "B64.ENC", "B64.DEC"] then .stream
  else .nothing

/-- The register names of 10_state.md R26, in the order of their numbers. -/
def registerNames : List String :=
  ["RD.BASE", "RD.SIZE", "RD.CUR", "WR.BASE", "WR.SIZE", "WR.CUR", "ERR"]

/-- White space of a line. -/
def isBlank (c : Char) : Bool := c == ' ' || c == '\t'

/-- A text without the white space at its two ends. -/
def trim (t : List Char) : List Char := ((t.dropWhile isBlank).reverse.dropWhile isBlank).reverse

/-- A line without its comment (30_encoding.md R77: "A comment starts with `#`"). -/
def stripComment (t : List Char) : List Char := t.takeWhile (· != '#')

/-- The parts of a text between commas that stand in no bracket. -/
def splitCommas : List Char → Nat → List Char → List (List Char)
  | [], _, cur => [trim cur.reverse]
  | c :: t, depth, cur =>
    if c = ',' ∧ depth = 0 then trim cur.reverse :: splitCommas t 0 []
    else
      splitCommas t (if c = '[' then depth + 1 else if c = ']' then depth - 1 else depth) (c :: cur)

/-- The comma-separated operands of a text; an empty text has none. -/
def operandTexts (t : List Char) : List (List Char) :=
  if (trim t).isEmpty then [] else splitCommas t 0 []

/-- A digit of a base up to 16. -/
def digitValue (base : Nat) (c : Char) : Option Nat :=
  let v :=
    if '0' ≤ c ∧ c ≤ '9' then c.toNat - '0'.toNat
    else if 'a' ≤ c ∧ c ≤ 'f' then c.toNat - 'a'.toNat + 10
    else if 'A' ≤ c ∧ c ≤ 'F' then c.toNat - 'A'.toNat + 10
    else 16
  if v < base then some v else none

/-- The digits of a number, the value so far in front. -/
def digits (base acc : Nat) : List Char → Option Nat
  | [] => some acc
  | c :: t =>
    match digitValue base c with
    | some d => digits base (acc * base + d) t
    | none => none

/-- A decimal or `0x` natural number (30_encoding.md R77). -/
def parseNat : List Char → Option Nat
  | [] => none
  | '0' :: 'x' :: c :: t => digits 16 0 (c :: t)
  | c :: t => digits 10 0 (c :: t)

/-- A decimal or `0x` integer (30_encoding.md R77). -/
def parseInt : List Char → Option Int
  | '-' :: t => (parseNat t).map fun n => -(n : Int)
  | t => (parseNat t).map fun n => (n : Int)

/-- An integer operand that 64 bits hold (93_implementation_defined.md U10). -/
def parseOperand (t : List Char) : Option Word :=
  match parseInt t with
  | some v => if -(2 ^ 63) ≤ v ∧ v < 2 ^ 63 then some (BitVec.ofInt 64 v) else none
  | none => none

/-- A bit count that N holds. -/
def parseCount (t : List Char) : Option NField :=
  match digits 10 0 t with
  | some n => if t ≠ [] ∧ n < 64 then some (BitVec.ofNat 6 n) else none
  | none => none

/-- A register of GETREG, by its name or its number (30_encoding.md R77). -/
def parseRegister (t : List Char) : Option NField :=
  match registerNames.findIdx? (fun r => decide (r.toList = t)) with
  | some k => some (BitVec.ofNat 6 k)
  | none => parseCount t

/-- The bytes of a list of texts. -/
def parseByteList : List (List Char) → Option (List Byte)
  | [] => some []
  | t :: ts =>
    match parseNat t, parseByteList ts with
    | some n, some bs => if n < 256 then some (BitVec.ofNat 8 n :: bs) else none
    | _, _ => none

/-- A byte sequence in brackets (30_encoding.md R77). -/
def parseBytes : List Char → Option (List Byte)
  | '[' :: t =>
    match t.reverse with
    | ']' :: r => parseByteList (operandTexts r.reverse)
    | _ => none
  | _ => none

/-- The operand `len=<integer>` of RLE3.DEC (30_encoding.md R77). -/
def parseLength : List Char → Option Word
  | 'l' :: 'e' :: 'n' :: '=' :: t => parseOperand (trim t)
  | _ => none

/-- What the host makes of the answer to a line's command: V as it stands, or the number of bytes that
V bits take (40_context_control.md R105, WR.LEN). -/
inductive AnswerUse where
  | asItStands
  | asByteCount
deriving DecidableEq, Repr

/-- What a line stands for: the packet to issue and the use of its answer (30_encoding.md R77, R78). -/
structure LineExpansion where
  packet : Packet
  answerUse : AnswerUse
deriving DecidableEq, Repr

/-- The packet of a command word pattern, a field N, and the operands. -/
def packetOf (pattern : CmdWord) (n : NField) (a b c : Word) (inp : List Byte) : Packet :=
  ⟨pattern + n.zeroExtend 16, a, b, c, inp⟩

/-- The packet of a command with its operand texts (30_encoding.md R77; an omitted cursor is 0,
40_context_control.md R102). -/
def assembleOperands (pattern : CmdWord) : OperandShape → List (List Char) → Option Packet
  | .nothing, [] => some (packetOf pattern 0 0 0 0 [])
  | .register, [r] => (parseRegister r).map fun n => packetOf pattern n 0 0 0 []
  | .count, [n] => (parseCount n).map fun n => packetOf pattern n 0 0 0 []
  | .countValue, [n, v] =>
    match parseCount n, parseOperand v with
    | some n, some a => some (packetOf pattern n a 0 0 [])
    | _, _ => none
  | .value, [v] => (parseOperand v).map fun a => packetOf pattern 0 a 0 0 []
  | .region, [x, y] =>
    match parseOperand x, parseOperand y with
    | some a, some b => some (packetOf pattern 0 a b 0 [])
    | _, _ => none
  | .region, [x, y, z] =>
    match parseOperand x, parseOperand y, parseOperand z with
    | some a, some b, some c => some (packetOf pattern 0 a b c [])
    | _, _, _ => none
  | .stream, [t] => (parseBytes t).map fun bs => packetOf pattern 0 0 0 0 bs
  | .streamLength, [t, l] =>
    match parseBytes t, parseLength l with
    | some bs, some a => some (packetOf pattern 0 a 0 0 bs)
    | _, _ => none
  | _, _ => none

/-- The expansions of RD.TELL, WR.TELL and WR.LEN: `GETREG RD.CUR`, `GETREG WR.CUR`, and `GETREG WR.CUR`
followed by the host's computation (30_encoding.md R78, 40_context_control.md R105). -/
def pseudoLine (mnemonic : List Char) : Option LineExpansion :=
  if mnemonic = "RD.TELL".toList then some ⟨Packet.ofWord 0x0102, .asItStands⟩
  else if mnemonic = "WR.TELL".toList then some ⟨Packet.ofWord 0x0105, .asItStands⟩
  else if mnemonic = "WR.LEN".toList then some ⟨Packet.ofWord 0x0105, .asByteCount⟩
  else none

/-- The expansion of one assembler line (30_encoding.md R77, R78); none for a line that is no command
and no pseudo-instruction. -/
def assemble (line : List Char) : Option LineExpansion :=
  let text := trim (stripComment line)
  let mnemonic := text.takeWhile fun c => !isBlank c
  let operands := operandTexts (text.dropWhile fun c => !isBlank c)
  match opcodeTable.find? fun r => decide (r.mnemonic.toList = mnemonic) with
  | some r =>
    (assembleOperands r.pattern (operandShape r.mnemonic) operands).map fun p => ⟨p, .asItStands⟩
  | none => if operands.isEmpty then pseudoLine mnemonic else none

/-- The number of bytes that `v` bits take, `ceil(V / 8)` (40_context_control.md R105,
20_memory.md R65). -/
def encodedLength (v : Int) : Int := ((ceilDiv v.toNat 8 : Nat) : Int)

/-- What the host makes of an answer V. -/
def useAnswer : AnswerUse → Int → Int
  | .asItStands, v => v
  | .asByteCount, v => encodedLength v

/-- Running one line: its packet is issued and its answer used; none for a line that is no command
(30_encoding.md R77, R78). -/
def runLine (line : List Char) (s : State) : Option (HostResult Int) :=
  (assemble line).map fun x =>
    andThen (send x.packet s) fun v t => .done (useAnswer x.answerUse v) t

end Sys2Proof.Machine
end

