-- ==== Sys2Proof/Certificates/Slice0/Obligations.lean ====
section
/-! DEFINITION. The statements for the provers, from the numbered rules of spec/. -/

open Sys2Proof Sys2Proof.Machine

/-! ### Words and decoding -/

/-- Every command a word can spell decodes from its own word, with every number at every value
(30_encoding.md R72, R73, R75). -/
def Obligations.DecodeEncodeRoundTrip : Prop :=
  ∀ i : Instr, i.wellFormed = true → decode (encode i) = .ok i

/-- Every word that decodes is the word of the command it decodes to, and that command is well
formed: no two words spell one command (30_encoding.md R72, R75). -/
def Obligations.EncodeDecodeRoundTrip : Prop :=
  ∀ (w : CmdWord) (i : Instr), decode w = .ok i → encode i = w ∧ i.wellFormed = true

/-- A word spells a command exactly when it selects a row of the opcode table by match and mask, a
GETREG word also needing a register number up to 6; and no word selects two rows
(30_encoding.md R74, R73). -/
def Obligations.DecodableWordsSelectOneTableRow : Prop :=
  ∀ w : CmdWord,
    ((∃ i, decode w = .ok i) ↔
      ∃ r ∈ opcodeTable, w &&& r.mask = r.pattern ∧ (r.format = .G → (nField w).toNat ≤ 6)) ∧
    ∀ r ∈ opcodeTable, ∀ r' ∈ opcodeTable,
      w &&& r.mask = r.pattern → w &&& r'.mask = r'.pattern → r = r'

/-- The reserved words raise IllegalCommand and are otherwise without effect; a field word with N in
33 to 63 decodes and then fails with ValueRangeError (30_encoding.md R76). `w / 256` is OPC,
`w / 64 % 4` is RSV and `w % 64` is N. -/
def Obligations.ReservedWordsRaiseIllegalCommand : Prop :=
  ∀ (p : Packet) (s : State),
    let w := p.cw.toNat
    let opc := w / 256
    let fieldOpc := opc = 0x11 ∨ opc = 0x12 ∨ opc = 0x21 ∨ opc = 0x22
    ((opc = 0 ∨ (0x02 ≤ opc ∧ opc ≤ 0x0F) ∨ (0x1A ≤ opc ∧ opc ≤ 0x1F) ∨
        (0x2A ≤ opc ∧ opc ≤ 0x2F) ∨ 0x36 ≤ opc ∨ w / 64 % 4 ≠ 0 ∨
        (opc ≠ 0x01 ∧ ¬ fieldOpc ∧ w % 64 ≠ 0) ∨ (opc = 0x01 ∧ 7 ≤ w % 64)) →
      issue p s = .next ({ s with packet := p }.failedWith .illegalCommand)) ∧
    (w = 0x0000 ∨ w = 0xFFFF →
      issue p s = .next ({ s with packet := p }.failedWith .illegalCommand)) ∧
    (fieldOpc ∧ w / 64 % 4 = 0 ∧ 33 ≤ w % 64 →
      issue p s = .next ({ s with packet := p }.failedWith .valueRangeError))

/-- Words written out from the opcode table of 30_encoding.md R74 decode to their commands; one or
more of every family. -/
def Obligations.SampleWordsDecode : Prop :=
  decode 0b0000000100000101 = .ok (.getreg 5) ∧ decode 0b0001000000000000 = .ok .rdOpen ∧
    decode 0b0010000100000011 = .ok (.wrBitsU 3) ∧ decode 0b0001001000001100 = .ok (.rdBitsI 12) ∧
    decode 0b0010100100000000 = .ok .wrI16BE ∧ decode 0b0001100000000000 = .ok .rdU16BE ∧
    decode 0b0011001100000000 = .ok .rle3Dec ∧ decode 0b0011010100000000 = .ok .b64Dec ∧
    decode 0b0001001100000000 = .ok .rdAlign

/-- The alphabet of 47_base64.md R203: the 64 codes by their ranges, the pad, distinct codes, and the
index of a byte defined for the 64 codes only. -/
def Obligations.AlphabetAsRuled : Prop :=
  (∀ i < 26, alphaByte i = BitVec.ofNat 8 (0x41 + i)) ∧
    (∀ i, 26 ≤ i → i < 52 → alphaByte i = BitVec.ofNat 8 (0x61 + (i - 26))) ∧
    (∀ i, 52 ≤ i → i < 62 → alphaByte i = BitVec.ofNat 8 (0x30 + (i - 52))) ∧
    alphaByte 62 = 0x2B ∧ alphaByte 63 = 0x2F ∧ padByte = 0x3D ∧
    (∀ i < 64, ∀ j < 64, alphaByte i = alphaByte j → i = j) ∧
    (∀ (c : Byte) (i : Nat), alphaIndex c = some i ↔ i < 64 ∧ alphaByte i = c)

/-! ### Steps, inputs, reset -/

/-- A step runs the command that the host's next packet spells, over the state in which the packet
has been taken from the inputs and received (30_encoding.md R70, R75). That packets wait in a list of
inputs is the model's choice (log entry 1). -/
def Obligations.StepRunsDecodedCommand : Prop :=
  ∀ (s : State) (p : Packet) (rest : List Input) (i : Instr),
    s.inputs = .command p :: rest → decode p.cw = .ok i →
      step s = exec i { s with inputs := rest, packet := p }

/-- A step on a packet whose word spells no command answers IllegalCommand and changes nothing but
ERR (30_encoding.md R75, 60_exceptions.md R214), over the model's list of inputs (log entry 1). -/
def Obligations.StepAnswersIllegalCommand : Prop :=
  ∀ (s : State) (p : Packet) (rest : List Input) (x : Illegal),
    s.inputs = .command p :: rest → decode p.cw = .error x →
      step s = .next ({ s with inputs := rest, packet := p }.failedWith .illegalCommand)

/-- The reset input puts every register and ERR to 0 (70_reset_and_hazards.md R240, 10_state.md R31).
Everything else it says is the model's choice (log entry 9): that BUF survives a reset in the middle of
a run (R240 calls the content of BUF after reset unspecified), that reset gives no response, and that
it arrives as an entry of the list of inputs and takes one step. -/
def Obligations.ResetInputClearsRegistersOnly : Prop :=
  ∀ (s : State) (rest : List Input), s.inputs = .reset :: rest →
    step s = .next { s with rd := ⟨0, 0, 0⟩, wr := ⟨0, 0, 0⟩, err := 0, inputs := rest }

/-- With nothing to do the unit waits: the step changes nothing. The model's choice (log entry 2),
after "the unit waits for its first command" (70_reset_and_hazards.md R240). -/
def Obligations.UnitWaitsWithoutInput : Prop :=
  ∀ s : State, s.inputs = [] → step s = .next s

/-- The state after reset has the register values of 10_state.md R31, and in it every field access of
one bit or more, and every aligned one, raises BoundsError. -/
def Obligations.ResetRegistersAndEmptyRegions : Prop :=
  State.reset.rd = ⟨0, 0, 0⟩ ∧ State.reset.wr = ⟨0, 0, 0⟩ ∧ State.reset.err = 0 ∧
    ∀ p : Packet,
      let s := { State.reset with packet := p }
      (∀ n : NField, 1 ≤ n.toNat → n.toNat ≤ 32 →
        exec (.rdBitsU n) s = .next (s.failedWith .boundsError) ∧
          exec (.rdBitsI n) s = .next (s.failedWith .boundsError) ∧
          (0 ≤ p.a.toInt ∧ p.a.toInt < 2 ^ n.toNat →
            exec (.wrBitsU n) s = .next (s.failedWith .boundsError)) ∧
          (-(2 ^ (n.toNat - 1)) ≤ p.a.toInt ∧ p.a.toInt < 2 ^ (n.toNat - 1) →
            exec (.wrBitsI n) s = .next (s.failedWith .boundsError))) ∧
      (∀ i, isAlignedRead i = true → exec i s = .next (s.failedWith .boundsError)) ∧
      (0 ≤ p.a.toInt ∧ p.a.toInt ≤ 127 →
        ∀ i, isAlignedWrite i = true → exec i s = .next (s.failedWith .boundsError))

/-- The invariant (`State.Inv`, with the model's own clause of log entry 6) holds after reset. -/
def Obligations.ResetStateHasInvariant : Prop := State.reset.Inv

/-- Every step keeps the invariant: the contexts stay inside BUF and the cursors inside their regions
(10_state.md R24), ERR stays a code of the unit's own (R25, R26); and the model's own clause, that the
recorded bytes stay canonical and inside BUF (log entry 6). -/
def Obligations.StepKeepsInvariant : Prop :=
  ∀ s t : State, s.Inv → step s = .next t → t.Inv

/-- Under the invariant no step faults or refuses: every command word and every operand value has a
defined response (93_implementation_defined.md section 1; 30_encoding.md R75). -/
def Obligations.StepNeverStops : Prop := ∀ s : State, s.Inv → ∃ t, step s = .next t

/-! ### Responses and errors -/

/-- Every command gives exactly one response (30_encoding.md R70), and leaves BUF_BYTES and the model's
interface fields (log entry 1) as they were. -/
def Obligations.CommandGivesOneResponse : Prop :=
  ∀ (i : Instr) (s t : State), exec i s = .next t →
    (∃ r, t.responses = s.responses ++ [r]) ∧ t.bufBytes = s.bufBytes ∧ t.packet = s.packet ∧
      t.inputs = s.inputs

/-- What an error does, for every command: the response carries the code with V = 0 and OUT empty,
ERR takes the code when it was 0, an aligned command keeps its alignment, and nothing else changes
(60_exceptions.md R214). -/
def Obligations.FailedCommandEffect : Prop :=
  ∀ (i : Instr) (s t : State) (r : Response), exec i s = .next t →
    t.responses = s.responses ++ [r] → r.st ≠ 0 →
      r.v = 0 ∧ r.out = [] ∧
        t = { s with
          err := if s.err = 0 then r.st else s.err
          rd := if isAlignedRead i then s.rd.aligned else s.rd
          wr := if isAlignedWrite i then s.wr.aligned else s.wr
          responses := s.responses ++ [r] }

/-- A command that succeeds leaves ERR as it was; with FailedCommandEffect, ERR is the code of the
first failure (10_state.md R25). -/
def Obligations.SuccessLeavesErr : Prop :=
  ∀ (i : Instr) (s t : State) (r : Response), exec i s = .next t →
    t.responses = s.responses ++ [r] → r.st = 0 → t.err = s.err

/-- The codes the unit answers with: OK and its four errors, never StructureError and never an unused
code (60_exceptions.md R211, 45_codec_macros.md R166). -/
def Obligations.UnitNeverAnswersUnusedCodes : Prop :=
  ∀ (i : Instr) (s t : State) (r : Response), exec i s = .next t →
    t.responses = s.responses ++ [r] → r.st = 0 ∨ r.st = 1 ∨ r.st = 2 ∨ r.st = 4 ∨ r.st = 5

/-- V is 0 for every command but the reads and GETREG, and OUT is empty for every command but the
stream commands (30_encoding.md R71). -/
def Obligations.UnusedResultsAreZero : Prop :=
  ∀ (i : Instr) (s t : State) (r : Response), exec i s = .next t →
    t.responses = s.responses ++ [r] →
      (answersValue i = false → r.v = 0) ∧ (isStream i = false → r.out = [])

/-- ERR gates nothing: a command other than GETREG ERR does the same whatever ERR holds, but for ERR
itself (10_state.md R25). -/
def Obligations.ErrGatesNothing : Prop :=
  ∀ (i : Instr) (s t : State) (e : Code), i ≠ .getreg 6 → exec i s = .next t →
    ∃ t', exec i { s with err := e } = .next t' ∧ { t' with err := t.err } = t

/-- A run of commands that began with ERR = 0 has only OK responses exactly when ERR is 0 at its end
(70_reset_and_hazards.md R244). -/
def Obligations.RunErrorFreeIffErrZero : Prop :=
  ∀ (k : Nat) (s t : State), s.commandsOnly → s.err = 0 → core.run k s = .next t →
    (t.err = 0 ↔ ∀ r ∈ t.responses.drop s.responses.length, r.st = 0)

/-! ### Which state a command touches -/

/-- The reader commands neither change the writer context nor depend on it, and the writer commands
neither change the reader context nor depend on it (10_state.md R23). -/
def Obligations.ContextsAreIndependent : Prop :=
  ∀ (i : Instr) (s t : State) (c : Context), exec i s = .next t →
    (isReader i = true → t.wr = s.wr ∧ exec i { s with wr := c } = .next { t with wr := c }) ∧
      (isWriter i = true → t.rd = s.rd ∧ exec i { s with rd := c } = .next { t with rd := c })

/-- The stream commands change no state but ERR, and answer as a function of IN and A alone
(10_state.md R27). -/
def Obligations.StreamCommandsTouchNoState : Prop :=
  ∀ (i : Instr) (s t : State) (r : Response), isStream i = true → exec i s = .next t →
    t.responses = s.responses ++ [r] →
      t = { s with err := t.err, responses := s.responses ++ [r] } ∧
        ∀ s' : State, s'.packet.inp = s.packet.inp → s'.packet.a = s.packet.a →
          ∃ t', exec i s' = .next t' ∧ t'.responses = s'.responses ++ [r]

/-- No command changes a byte of BUF outside the writer's region, and only the writer commands change
BUF at all (20_memory.md R53, R64). -/
def Obligations.WritesStayInRegion : Prop :=
  ∀ (i : Instr) (s t : State), exec i s = .next t →
    (isWriter i = false → t.buf = s.buf) ∧
      ∀ a, a < s.wr.base ∨ s.wr.base + s.wr.size ≤ a → t.bufByte a = s.bufByte a

/-- What a reader command answers depends on no byte of BUF outside the reader's region: over another
BUF that agrees on the region it gives the same next state but for BUF (20_memory.md R53). -/
def Obligations.ReadsStayInRegion : Prop :=
  ∀ (i : Instr) (s t : State) (m : Memory), isReader i = true → exec i s = .next t →
    (∀ a, s.rd.base ≤ a → a < s.rd.base + s.rd.size → Memory.byteAt m a = s.bufByte a) →
      exec i { s with buf := m } = .next { t with buf := m }

/-- A cursor moves only forward, but by OPEN (10_state.md R30, 91_not_in_source.md N24); base and size
change only by OPEN (R26). -/
def Obligations.CursorsOnlyAdvance : Prop :=
  ∀ (i : Instr) (s t : State), exec i s = .next t →
    (i ≠ .rdOpen → t.rd.base = s.rd.base ∧ t.rd.size = s.rd.size ∧ s.rd.cur ≤ t.rd.cur) ∧
      (i ≠ .wrOpen → t.wr.base = s.wr.base ∧ t.wr.size = s.wr.size ∧ s.wr.cur ≤ t.wr.cur)

/-! ### Context and control commands -/

/-- RD.OPEN as 40_context_control.md R100 says: the tests in their order, or the three registers. -/
def Obligations.RdOpenFollowsRule : Prop :=
  ∀ s : State,
    let a := s.packet.a.toInt
    let b := s.packet.b.toInt
    let c := s.packet.c.toInt
    decode 0x1000 = .ok .rdOpen ∧
      exec .rdOpen s = .next
        (if a < 0 ∨ b < 0 then s.failedWith .valueRangeError
        else if a + b > s.bufBytes then s.failedWith .boundsError
        else if c < 0 ∨ c > 8 * b then s.failedWith .boundsError
        else { s with rd := ⟨a.toNat, b.toNat, c.toNat⟩ }.answered 0 [])

/-- WR.OPEN as 40_context_control.md R101 says. -/
def Obligations.WrOpenFollowsRule : Prop :=
  ∀ s : State,
    let a := s.packet.a.toInt
    let b := s.packet.b.toInt
    let c := s.packet.c.toInt
    decode 0x2000 = .ok .wrOpen ∧
      exec .wrOpen s = .next
        (if a < 0 ∨ b < 0 then s.failedWith .valueRangeError
        else if a + b > s.bufBytes then s.failedWith .boundsError
        else if c < 0 ∨ c > 8 * b then s.failedWith .boundsError
        else { s with wr := ⟨a.toNat, b.toNat, c.toNat⟩ }.answered 0 [])

/-- GETREG as 40_context_control.md R104 says: for N up to 6 the register's value before the command,
and no change; for N above 6 the decoder refuses the word with IllegalCommand. -/
def Obligations.GetregFollowsRule : Prop :=
  ∀ (n : NField) (s : State), s.Inv →
    if n.toNat ≤ 6 then
      decode (0x0100 + n.zeroExtend 16) = .ok (.getreg n) ∧
        ∃ v : Word,
          v.toInt = (([s.rd.base, s.rd.size, s.rd.cur, s.wr.base, s.wr.size, s.wr.cur,
            s.err.toNat].getD n.toNat 0 : Nat) : Int) ∧
          exec (.getreg n) s = .next (s.answered v [])
    else
      decode (0x0100 + n.zeroExtend 16) = .error .reservedRegister ∧
        ∀ p : Packet, p.cw = 0x0100 + n.zeroExtend 16 →
          issue p s = .next ({ s with packet := p }.failedWith .illegalCommand)

/-! ### Bit-field commands -/

/-- WR.BITSU as 41_bit_write.md R110 says: the three tests in their order, or the field written
least significant bit first, the cursor advanced, and nothing else changed. -/
def Obligations.WrBitsUFollowsRule : Prop :=
  ∀ (n : NField) (s : State), s.Inv →
    decode (0x2100 + n.zeroExtend 16) = .ok (.wrBitsU n) ∧
      if n.toNat > 32 then exec (.wrBitsU n) s = .next (s.failedWith .valueRangeError)
      else if s.packet.a.toInt < 0 ∨ s.packet.a.toInt ≥ 2 ^ n.toNat then
        exec (.wrBitsU n) s = .next (s.failedWith .valueRangeError)
      else if s.wr.cur + n.toNat > 8 * s.wr.size then
        exec (.wrBitsU n) s = .next (s.failedWith .boundsError)
      else
        ∃ m, FieldStored s.buf m s.wr.bitPos n.toNat s.packet.a ∧
          exec (.wrBitsU n) s = .next
            ({ s with buf := m, wr := { s.wr with cur := s.wr.cur + n.toNat } }.answered 0 [])

/-- WR.BITSI as 41_bit_write.md R111 says; the pattern stored is the low `n` bits of the two's
complement of A (R113). -/
def Obligations.WrBitsIFollowsRule : Prop :=
  ∀ (n : NField) (s : State), s.Inv →
    decode (0x2200 + n.zeroExtend 16) = .ok (.wrBitsI n) ∧
      if n.toNat < 1 ∨ n.toNat > 32 then
        exec (.wrBitsI n) s = .next (s.failedWith .valueRangeError)
      else if s.packet.a.toInt < -(2 ^ (n.toNat - 1)) ∨
          s.packet.a.toInt > 2 ^ (n.toNat - 1) - 1 then
        exec (.wrBitsI n) s = .next (s.failedWith .valueRangeError)
      else if s.wr.cur + n.toNat > 8 * s.wr.size then
        exec (.wrBitsI n) s = .next (s.failedWith .boundsError)
      else
        ∃ m, FieldStored s.buf m s.wr.bitPos n.toNat s.packet.a ∧
          exec (.wrBitsI n) s = .next
            ({ s with buf := m, wr := { s.wr with cur := s.wr.cur + n.toNat } }.answered 0 [])

/-- RD.BITSU as 42_bit_read.md R120 says: the two tests in their order, or the field's unsigned value
and the cursor advanced. -/
def Obligations.RdBitsUFollowsRule : Prop :=
  ∀ (n : NField) (s : State), s.Inv →
    decode (0x1100 + n.zeroExtend 16) = .ok (.rdBitsU n) ∧
      if n.toNat > 32 then exec (.rdBitsU n) s = .next (s.failedWith .valueRangeError)
      else if s.rd.cur + n.toNat > 8 * s.rd.size then
        exec (.rdBitsU n) s = .next (s.failedWith .boundsError)
      else
        ∃ v : Word, v.toInt = (Memory.field s.buf s.rd.bitPos n.toNat : Int) ∧
          exec (.rdBitsU n) s = .next
            ({ s with rd := { s.rd with cur := s.rd.cur + n.toNat } }.answered v [])

/-- RD.BITSI as 42_bit_read.md R121 says: as RD.BITSU, with the value sign-extended. -/
def Obligations.RdBitsIFollowsRule : Prop :=
  ∀ (n : NField) (s : State), s.Inv →
    let u : Int := (Memory.field s.buf s.rd.bitPos n.toNat : Int)
    decode (0x1200 + n.zeroExtend 16) = .ok (.rdBitsI n) ∧
      if n.toNat < 1 ∨ n.toNat > 32 then
        exec (.rdBitsI n) s = .next (s.failedWith .valueRangeError)
      else if s.rd.cur + n.toNat > 8 * s.rd.size then
        exec (.rdBitsI n) s = .next (s.failedWith .boundsError)
      else
        ∃ v : Word, v.toInt = (if u ≥ 2 ^ (n.toNat - 1) then u - 2 ^ n.toNat else u) ∧
          exec (.rdBitsI n) s = .next
            ({ s with rd := { s.rd with cur := s.rd.cur + n.toNat } }.answered v [])

/-- WR.ALIGN as 41_bit_write.md R112 and RD.ALIGN as 42_bit_read.md R122 say: the cursor goes to the
next byte boundary, a legal cursor to a legal one, and nothing else changes. -/
def Obligations.AlignFollowsRule : Prop :=
  decode 0x2300 = .ok .wrAlign ∧ decode 0x1300 = .ok .rdAlign ∧
    ∀ s : State,
      (∃ k, k % 8 = 0 ∧ s.wr.cur ≤ k ∧ k < s.wr.cur + 8 ∧
        (s.wr.cur ≤ 8 * s.wr.size → k ≤ 8 * s.wr.size) ∧
        exec .wrAlign s = .next ({ s with wr := { s.wr with cur := k } }.answered 0 [])) ∧
      (∃ k, k % 8 = 0 ∧ s.rd.cur ≤ k ∧ k < s.rd.cur + 8 ∧
        (s.rd.cur ≤ 8 * s.rd.size → k ≤ 8 * s.rd.size) ∧
        exec .rdAlign s = .next ({ s with rd := { s.rd with cur := k } }.answered 0 []))

/-- LOWMASK has the contents of 20_memory.md R56, and inside BUF a field written by PutBits is what
GetBits reads back, while every bit outside it is unchanged. -/
def Obligations.PutBitsThenGetBits : Prop :=
  (∀ t ≤ 8, (lowMask t).toNat = 2 ^ t - 1) ∧
    ∀ (size : Nat) (m : Memory) (base k n u : Nat), n ≤ 32 → u < 2 ^ n →
      8 * base + k + n ≤ 8 * size →
        ∃ m', putBits size m base k n u = .ok m' ∧ getBits size m' base k n = .ok u ∧
          ∀ x, x < 8 * base + k ∨ 8 * base + k + n ≤ x → Memory.bit m' x = Memory.bit m x

/-- The inverse law of 42_bit_read.md R123 for both pairs, and the reading of a field with the other
signedness in both directions: over equal regions and cursors, a write that succeeds is followed by a
read that succeeds, returns the value, and ends with equal cursors. A signed read of no bits is an error
(R121), so the signed reading of an unsigned field needs a bit. -/
def Obligations.WriteThenReadReturnsValue : Prop :=
  ∀ (n : NField) (s t : State), s.Inv → s.rd = s.wr →
    (exec (.wrBitsU n) s = .next t → t.responses = s.responses ++ [⟨0, 0, []⟩] →
      (∃ t', exec (.rdBitsU n) t = .next t' ∧ t'.rd = t.wr ∧ t.wr.cur = s.wr.cur + n.toNat ∧
        t'.responses = t.responses ++ [⟨0, s.packet.a, []⟩]) ∧
      (1 ≤ n.toNat → ∃ t' v, exec (.rdBitsI n) t = .next t' ∧ t'.rd = t.wr ∧
        t'.responses = t.responses ++ [⟨0, v, []⟩] ∧
        v.toInt = if s.packet.a.toInt ≥ 2 ^ (n.toNat - 1) then s.packet.a.toInt - 2 ^ n.toNat
          else s.packet.a.toInt)) ∧
    (exec (.wrBitsI n) s = .next t → t.responses = s.responses ++ [⟨0, 0, []⟩] →
      (∃ t', exec (.rdBitsI n) t = .next t' ∧ t'.rd = t.wr ∧ t.wr.cur = s.wr.cur + n.toNat ∧
        t'.responses = t.responses ++ [⟨0, s.packet.a, []⟩]) ∧
      ∃ t' v, exec (.rdBitsU n) t = .next t' ∧ t'.rd = t.wr ∧
        t'.responses = t.responses ++ [⟨0, v, []⟩] ∧
        v.toInt = if s.packet.a.toInt < 0 then s.packet.a.toInt + 2 ^ n.toNat
          else s.packet.a.toInt)

/-! ### Aligned commands -/

/-- What 43_aligned_write.md R130 says of an aligned write of the values `lo` to `hi`, which stores the
bytes `bytes A`: align, test the value, test the bounds, store; the alignment stays on an error. -/
def Sys2Proof.Machine.AlignedWriteRule (i : Instr) (cw : CmdWord) (lo hi : Int) (bytes : Word → List Byte) : Prop :=
  decode cw = .ok i ∧ ∀ s : State, s.Inv →
    if s.packet.a.toInt < lo ∨ s.packet.a.toInt > hi then
      exec i s = .next ({ s with wr := s.wr.aligned }.failedWith .valueRangeError)
    else if s.wr.aligned.cur + 8 * (bytes s.packet.a).length > 8 * s.wr.size then
      exec i s = .next ({ s with wr := s.wr.aligned }.failedWith .boundsError)
    else
      ∃ m, BytesStored s.buf m s.wr.alignedByte (bytes s.packet.a) ∧
        exec i s = .next
          ({ s with
              buf := m
              wr := { s.wr with cur := s.wr.aligned.cur + 8 * (bytes s.packet.a).length } }.answered
            0 [])

/-- The aligned write `i` is WR.ALIGN followed by the field write `f`: the same registers, the same last
response, the same bytes of BUF (43_aligned_write.md R131, R132, R133). -/
def Sys2Proof.Machine.WritesAsAlignThenField (i f : Instr) : Prop :=
  ∀ s : State, s.Inv →
    ∃ t t1 t2 r, exec i s = .next t ∧ exec .wrAlign s = .next t1 ∧ exec f t1 = .next t2 ∧
      t.responses = s.responses ++ [r] ∧ t2.responses = t1.responses ++ [r] ∧
      t.rd = t2.rd ∧ t.wr = t2.wr ∧ t.err = t2.err ∧ ∀ a, t.bufByte a = t2.bufByte a

/-- WR.U8 and WR.I8 as 43_aligned_write.md R131 and R132 say, and that they are WR.ALIGN followed by
WR.BITSU 8 and by WR.BITSI 8. -/
def Obligations.AlignedByteWritesFollowRule : Prop :=
  AlignedWriteRule .wrU8 0x2400 0 255 (fun a => [a.extractLsb' 0 8]) ∧
    AlignedWriteRule .wrI8 0x2500 (-128) 127 (fun a => [a.extractLsb' 0 8]) ∧
    WritesAsAlignThenField .wrU8 (.wrBitsU 8) ∧ WritesAsAlignThenField .wrI8 (.wrBitsI 8)

/-- WR.U16LE and WR.I16LE as 43_aligned_write.md R133 and R134 say: the low byte at the lower
address; WR.U16LE stores what WR.ALIGN followed by WR.BITSU 16 stores. -/
def Obligations.AlignedLittleEndianWritesFollowRule : Prop :=
  AlignedWriteRule .wrU16LE 0x2600 0 65535 (fun a => [a.extractLsb' 0 8, a.extractLsb' 8 8]) ∧
    AlignedWriteRule .wrI16LE 0x2700 (-32768) 32767
      (fun a => [a.extractLsb' 0 8, a.extractLsb' 8 8]) ∧
    WritesAsAlignThenField .wrU16LE (.wrBitsU 16)

/-- WR.U16BE and WR.I16BE as 43_aligned_write.md R135 and R136 say: the high byte at the lower
address. -/
def Obligations.AlignedBigEndianWritesFollowRule : Prop :=
  AlignedWriteRule .wrU16BE 0x2800 0 65535 (fun a => [a.extractLsb' 8 8, a.extractLsb' 0 8]) ∧
    AlignedWriteRule .wrI16BE 0x2900 (-32768) 32767
      (fun a => [a.extractLsb' 8 8, a.extractLsb' 0 8])

/-- What 44_aligned_read.md R140 says of an aligned read of `len` bytes with the value `value` of them:
align, test the bounds, read; the alignment stays on an error. -/
def Sys2Proof.Machine.AlignedReadRule (i : Instr) (cw : CmdWord) (len : Nat) (value : (Nat → Byte) → Int) : Prop :=
  decode cw = .ok i ∧ ∀ s : State, s.Inv →
    if s.rd.aligned.cur + 8 * len > 8 * s.rd.size then
      exec i s = .next ({ s with rd := s.rd.aligned }.failedWith .boundsError)
    else
      ∃ v : Word, v.toInt = value (fun j => s.bufByte (s.rd.alignedByte + j)) ∧
        exec i s = .next
          ({ s with rd := { s.rd with cur := s.rd.aligned.cur + 8 * len } }.answered v [])

/-- The aligned read `i` is RD.ALIGN followed by the field read `f`: the same state but for the response
of RD.ALIGN (44_aligned_read.md R141, R142, R143). -/
def Sys2Proof.Machine.ReadsAsAlignThenField (i f : Instr) : Prop :=
  ∀ s : State, s.Inv →
    ∃ t t1 t2 r, exec i s = .next t ∧ exec .rdAlign s = .next t1 ∧ exec f t1 = .next t2 ∧
      t.responses = s.responses ++ [r] ∧ t2.responses = t1.responses ++ [r] ∧
      t = { t2 with responses := t.responses }

/-- RD.U8 and RD.I8 as 44_aligned_read.md R141 and R142 say, and that they are RD.ALIGN followed by
RD.BITSU 8 and by RD.BITSI 8. -/
def Obligations.AlignedByteReadsFollowRule : Prop :=
  AlignedReadRule .rdU8 0x1400 1 (fun b => ((b 0).toNat : Int)) ∧
    AlignedReadRule .rdI8 0x1500 1 (fun b => (b 0).toInt) ∧
    ReadsAsAlignThenField .rdU8 (.rdBitsU 8) ∧ ReadsAsAlignThenField .rdI8 (.rdBitsI 8)

/-- RD.U16LE and RD.I16LE as 44_aligned_read.md R143 and R144 say: the low byte at the lower
address; RD.U16LE is RD.ALIGN followed by RD.BITSU 16. -/
def Obligations.AlignedLittleEndianReadsFollowRule : Prop :=
  AlignedReadRule .rdU16LE 0x1600 2 (fun b => (((b 1).toNat * 256 + (b 0).toNat : Nat) : Int)) ∧
    AlignedReadRule .rdI16LE 0x1700 2 (fun b => (b 1 ++ b 0).toInt) ∧
    ReadsAsAlignThenField .rdU16LE (.rdBitsU 16)

/-- RD.U16BE and RD.I16BE as 44_aligned_read.md R145 and R146 say: the high byte at the lower
address. -/
def Obligations.AlignedBigEndianReadsFollowRule : Prop :=
  AlignedReadRule .rdU16BE 0x1800 2 (fun b => (((b 0).toNat * 256 + (b 1).toNat : Nat) : Int)) ∧
    AlignedReadRule .rdI16BE 0x1900 2 (fun b => (b 0 ++ b 1).toInt)

/-! ### Stream commands -/

/-- RLE.ENC as 46_rle.md R181 says: it always succeeds, and OUT is the records of the greedy runs of
IN. -/
def Obligations.RleEncFollowsRule : Prop :=
  decode 0x3000 = .ok .rleEnc ∧ ∀ s : State,
    ∃ rs : List (Nat × Byte), greedyRuns rs ∧ expandRuns rs = s.packet.inp ∧
      exec .rleEnc s = .next (s.answered 0 (rs.flatMap fun r => [BitVec.ofNat 8 r.1, r.2]))

/-- RLE.DEC as 46_rle.md R182 says: FormatError for an odd length or a zero count, else the records
expanded. -/
def Obligations.RleDecFollowsRule : Prop :=
  decode 0x3100 = .ok .rleDec ∧ ∀ s : State,
    let y := s.packet.inp
    let bad := y.length % 2 ≠ 0 ∨ ∃ r < y.length / 2, y.getD (2 * r) 0 = 0
    (bad → exec .rleDec s = .next (s.failedWith .formatError)) ∧
      (¬ bad → exec .rleDec s = .next (s.answered 0 ((List.range (y.length / 2)).flatMap fun r =>
        List.replicate (y.getD (2 * r) 0).toNat (y.getD (2 * r + 1) 0))))

/-- RLE3.ENC as 46_rle.md R184 says: it always succeeds, and OUT is the records of the greedy runs of
the triplets of IN, the last one padded with zeros. -/
def Obligations.Rle3EncFollowsRule : Prop :=
  decode 0x3200 = .ok .rle3Enc ∧ ∀ s : State,
    ∃ rs : List (Nat × List Byte), greedyRuns rs ∧
      expandRuns rs = (List.range ((s.packet.inp.length + 2) / 3)).map (tripletAt s.packet.inp) ∧
      exec .rle3Enc s = .next (s.answered 0 (rs.flatMap fun r => BitVec.ofNat 8 r.1 :: r.2))

/-- RLE3.DEC as 46_rle.md R185 says: the tests in their order, or the expansion cut to the known
length A. -/
def Obligations.Rle3DecFollowsRule : Prop :=
  decode 0x3300 = .ok .rle3Dec ∧ ∀ s : State,
    let y := s.packet.inp
    let k := s.packet.a.toInt
    let z := (List.range (y.length / 4)).flatMap fun r =>
      (List.replicate (y.getD (4 * r) 0).toNat
        [y.getD (4 * r + 1) 0, y.getD (4 * r + 2) 0, y.getD (4 * r + 3) 0]).flatten
    let bad := y.length % 4 ≠ 0 ∨ (∃ r < y.length / 4, y.getD (4 * r) 0 = 0) ∨
      z.length ≠ 3 * ((k.toNat + 2) / 3) ∨ ∃ m, k.toNat ≤ m ∧ m < z.length ∧ z.getD m 0 ≠ 0
    (k < 0 → exec .rle3Dec s = .next (s.failedWith .valueRangeError)) ∧
      (0 ≤ k ∧ bad → exec .rle3Dec s = .next (s.failedWith .formatError)) ∧
      (0 ≤ k ∧ ¬ bad → exec .rle3Dec s = .next (s.answered 0 (z.take k.toNat)))

/-- B64.ENC as 47_base64.md R201 says: it always succeeds, and OUT is the groups of IN. -/
def Obligations.B64EncFollowsRule : Prop :=
  decode 0x3400 = .ok .b64Enc ∧ ∀ s : State,
    exec .b64Enc s = .next (s.answered 0
      ((List.range ((s.packet.inp.length + 2) / 3)).flatMap (textGroupAt s.packet.inp)))

/-- B64.DEC as 47_base64.md R202 says: FormatError for a bad length or a malformed group, else the
bytes of the groups. -/
def Obligations.B64DecFollowsRule : Prop :=
  decode 0x3500 = .ok .b64Dec ∧ ∀ s : State,
    let t := s.packet.inp
    let bad := t.length % 4 ≠ 0 ∨ ∃ g < t.length / 4, textGroupBad t g
    (bad → exec .b64Dec s = .next (s.failedWith .formatError)) ∧
      (¬ bad → exec .b64Dec s = .next (s.answered 0
        ((List.range (t.length / 4)).flatMap (textBytes t))))

/-- The laws of 46_rle.md R183: decoding an encoding gives the input back, encoding never fails, a
decoding is as long as the sum of its counts, and decoding is not injective. -/
def Obligations.RleLaws : Prop :=
  (∀ (s s' : State) (out : List Byte), exec .rleEnc s = .next (s.answered 0 out) →
    s'.packet.inp = out → exec .rleDec s' = .next (s'.answered 0 s.packet.inp)) ∧
  (∀ s : State, ∃ out, exec .rleEnc s = .next (s.answered 0 out)) ∧
  (∀ (s : State) (out : List Byte), exec .rleDec s = .next (s.answered 0 out) →
    out.length = ((List.range (s.packet.inp.length / 2)).map fun r =>
      (s.packet.inp.getD (2 * r) 0).toNat).sum) ∧
  (∃ (s s' : State) (x y : List Byte), exec .rleDec s = .next (s.answered 0 x) ∧
    s'.packet.inp = x ∧ exec .rleEnc s' = .next (s'.answered 0 y) ∧ y ≠ s.packet.inp)

/-- The laws of 46_rle.md R186: decoding an encoding with the right length gives the input back,
encoding never fails, and with another length the decoder fails or, within the same bracket of three
and over zero bytes, gives the input cut or extended with zeros. -/
def Obligations.Rle3Laws : Prop :=
  (∀ s : State, ∃ out, exec .rle3Enc s = .next (s.answered 0 out)) ∧
  (∀ (s s' : State) (out : List Byte), exec .rle3Enc s = .next (s.answered 0 out) →
    s'.packet.inp = out → s'.packet.a.toInt = s.packet.inp.length →
      exec .rle3Dec s' = .next (s'.answered 0 s.packet.inp)) ∧
  (∀ (s s' : State) (out : List Byte), exec .rle3Enc s = .next (s.answered 0 out) →
    s'.packet.inp = out → 0 ≤ s'.packet.a.toInt →
      exec .rle3Dec s' = .next (s'.failedWith .formatError) ∨
        ((s'.packet.a.toNat + 2) / 3 = (s.packet.inp.length + 2) / 3 ∧
          (∀ b ∈ s.packet.inp.drop s'.packet.a.toNat, b = 0) ∧
          exec .rle3Dec s' = .next (s'.answered 0
            ((s.packet.inp ++ [0, 0]).take s'.packet.a.toNat))))

/-- The laws of 47_base64.md R204: decoding a text gives the bytes back, encoding never fails and gives
four characters for three bytes, only canonical text is decoded, and every character is one of the 65
codes. -/
def Obligations.B64Laws : Prop :=
  (∀ (s s' : State) (out : List Byte), exec .b64Enc s = .next (s.answered 0 out) →
    s'.packet.inp = out → exec .b64Dec s' = .next (s'.answered 0 s.packet.inp)) ∧
  (∀ s : State, ∃ out, exec .b64Enc s = .next (s.answered 0 out) ∧
    out.length = 4 * ((s.packet.inp.length + 2) / 3) ∧
    ∀ c ∈ out, c = padByte ∨ ∃ i < 64, alphaByte i = c) ∧
  (∀ (s s' : State) (out : List Byte), exec .b64Dec s = .next (s.answered 0 out) →
    s'.packet.inp = out → exec .b64Enc s' = .next (s'.answered 0 s.packet.inp))

/-! ### Codecs -/

/-- With CODEC_ALIGNS false, a codec of fixed size moves the cursor by exactly its size, encoding and
decoding (45_codec_macros.md R154, R162). -/
def Obligations.FixedCodecMovesCursorByItsSize : Prop :=
  ∀ (c : Codec) (b : Nat), c.bitSize = some b →
    (∀ (v : Value) (s t : State), encodeValue false c v s = .done () t →
      t.wr.cur = s.wr.cur + b) ∧
    (∀ (v : Value) (s t : State), decodeValue false c s = .done v t → t.rd.cur = s.rd.cur + b)

/-- Every codec gives back the value it encoded, for both settings of CODEC_ALIGNS, and ends with equal
cursors (45_codec_macros.md R150). The value comes back as `Codec.canon` says: unchanged, but for a raw
integer of an enum that is a key's code (R159), the order of a record's fields and a field alone. The
premise on lengths rules out only a varArray whose length codec is an enum with a key for a count: its
decoded length is no number (R159, R165; log entry 13). -/
def Obligations.CodecRoundTrip : Prop :=
  ∀ (aligns : Bool) (c : Codec) (v : Value) (s t : State), c.numericLengths = true → s.Inv →
    s.rd = s.wr → encodeValue aligns c v s = .done () t →
      ∃ t', decodeValue aligns c t = .done (c.canon v) t' ∧ t'.rd.cur = t.wr.cur ∧
        t'.buf = t.buf ∧ t'.wr = t.wr

/-- A command that fails ends an expansion: its error is the result, no later command is issued, and
what the commands before it did remains; for a list of commands, for every encode and for every decode
(45_codec_macros.md R150). -/
def Obligations.ExpansionStopsAtFirstError : Prop :=
  (∀ (before after : List Packet) (p : Packet) (s t u : State) (e : ErrorKind),
    sendAll before s = .done () t → send p t = .failed e u →
      sendAll (before ++ p :: after) s = .failed e u) ∧
  (∀ (aligns : Bool) (c : Codec) (v : Value) (s : State),
    EndsAtFirstError (encodeValue aligns c v s) s) ∧
  (∀ (aligns : Bool) (c : Codec) (s : State), EndsAtFirstError (decodeValue aligns c s) s)

/-- `padBits(n)` that fits the region writes n zero bits, for every n and both settings of
CODEC_ALIGNS, and changes no other bit of BUF (45_codec_macros.md R158). -/
def Obligations.PadBitsWritesZeros : Prop :=
  ∀ (aligns : Bool) (n : Nat) (s : State), s.Inv → s.wr.cur + n ≤ 8 * s.wr.size →
    ∃ t, encodeValue aligns (.padBits n) .none s = .done () t ∧
      t.wr = { s.wr with cur := s.wr.cur + n } ∧ t.rd = s.rd ∧ t.err = s.err ∧
      ∀ y, Memory.bit t.buf y =
        if s.wr.bitPos ≤ y ∧ y < s.wr.bitPos + n then false else Memory.bit s.buf y

/-- A list of the wrong length is a StructureError of the host before any command: the unit is left as
it was (45_codec_macros.md R163, R164, R166). -/
def Obligations.WrongLengthIssuesNoCommand : Prop :=
  ∀ (aligns : Bool) (name : String) (elem len : Codec) (count : Nat) (align : Bool)
    (xs : List Value) (s : State), elem.admitted = true → len.admitted = true →
    (xs.length ≠ count →
      encodeValue aligns (.array name elem count) (.list xs) s = .failed .structureError s) ∧
    (xs.length > count →
      encodeValue aligns (.varArray name elem len count align) (.list xs) s =
        .failed .structureError s)

/-- The decoded length of a varArray is tested before the alignment and before any element is read: an
over-limit or negative one is a StructureError of the host, and the reader stays after the length
(45_codec_macros.md R165). -/
def Obligations.DecodedLengthIsChecked : Prop :=
  ∀ (aligns : Bool) (name : String) (elem len : Codec) (maxCount : Nat) (align : Bool) (l : Int)
    (s t : State), elem.admitted = true → len.admitted = true →
    len.dec aligns s = .done (.int l) t → l > maxCount ∨ l < 0 →
      decodeValue aligns (.varArray name elem len maxCount align) s = .failed .structureError t

/-- The layout of a struct (45_codec_macros.md R162): it holds an entry for a field exactly when every
item before the field is fixed, with the sum of their sizes as the offset and the field's own size, so a
field after the first Variable item has none and nothing else is in it; the struct is of fixed size
exactly when every item is, and then its size is the sum; byteSizeCeil is that size in bytes, rounded up,
for a fixed-size struct, and is defined for nothing else. -/
def Obligations.LayoutOffsetIsSumOfSizes : Prop :=
  (∀ (name : String) (items : List Codec) (entry : LayoutEntry),
    entry ∈ (Codec.struct name items).layout ↔
      ∃ (before after : List Codec) (c : Codec) (sizes : List Nat),
        items = before ++ .field entry.name c :: after ∧
          before.map Codec.bitSize = sizes.map some ∧ entry.bitOffset = sizes.sum ∧
          entry.bitSize = c.bitSize) ∧
  (∀ (name : String) (items : List Codec) (b : Nat), (Codec.struct name items).bitSize = some b ↔
    ∃ sizes : List Nat, items.map Codec.bitSize = sizes.map some ∧ sizes.sum = b) ∧
  (∀ (c : Codec) (n : Nat), c.byteSizeCeil = some n ↔
    ∃ (name : String) (items : List Codec) (b : Nat),
      c = .struct name items ∧ c.bitSize = some b ∧ n = (b + 7) / 8)

/-- Which values a codec encodes, and what that leaves. An encode is done exactly when the value has an
image and the image has room in the region. Then BUF holds the image: fields in declaration order
(45_codec_macros.md R160, R161), elements in index order (R163), a length before them and the alignment
after it only where the descriptor asks for it (R164), zeros of a pad (R158); every other bit, a skipped
one too (R157), keeps its value, WR.CUR is moved past the image, every command of the encode has answered
OK, nothing else changes; and WR.LEN then gives `ceil(WR.CUR / 8)` (40_context_control.md R105,
20_memory.md R65). -/
def Obligations.EncodeStoresImage : Prop :=
  ∀ (aligns : Bool) (c : Codec) (v : Value) (s : State), s.Inv → c.admitted = true →
    (∀ bs, c.image aligns v s.wr.cur = some bs → s.wr.cur + bs.length ≤ 8 * s.wr.size →
      ∃ t, encodeValue aligns c v s = .done () t ∧ ImageStored s.buf t.buf s.wr.bitPos bs ∧
        t = { s with buf := t.buf, wr := { s.wr with cur := s.wr.cur + bs.length }
                     packet := t.packet, responses := t.responses } ∧
        (∃ n, t.responses = s.responses ++ List.replicate n ⟨0, 0, []⟩) ∧
        ∃ t', runLine "WR.LEN".toList t =
          some (.done (((s.wr.cur + bs.length + 7) / 8 : Nat) : Int) t')) ∧
    ∀ t, encodeValue aligns c v s = .done () t →
      ∃ bs, c.image aligns v s.wr.cur = some bs ∧ s.wr.cur + bs.length ≤ 8 * s.wr.size

/-- A decode over a BUF that holds the image of a value, at the reader's cursor and inside its region,
succeeds, gives the value back as `Codec.canon` says, moves RD.CUR past the image and changes nothing
else (45_codec_macros.md R151 to R165). What the skipped places hold does not matter
(42_bit_read.md R122). -/
def Obligations.DecodeReadsImage : Prop :=
  ∀ (aligns : Bool) (c : Codec) (v : Value) (s : State) (bs : Image), s.Inv → c.admitted = true →
    c.numericLengths = true → c.image aligns v s.rd.cur = some bs →
    s.rd.cur + bs.length ≤ 8 * s.rd.size → ImagePresent s.buf s.rd.bitPos bs →
      ∃ t, decodeValue aligns c s = .done (c.canon v) t ∧
        t = { s with rd := { s.rd with cur := s.rd.cur + bs.length }
                     packet := t.packet, responses := t.responses }
end

