-- ==== Sys2Proof/Laws/Memory.lean ====
section
/-! SUPPORT. BUF as a list of recorded bytes: reading after writing, and the canonical form that every write keeps. -/

namespace Sys2Proof.Machine

@[simp] theorem lookup_set (m : Memory) (a : Nat) (b : Byte) (x : Nat) :
    Memory.lookup (Memory.set m a b) x = if x = a then some b else Memory.lookup m x := by
  induction m with
  | nil => by_cases h : a = x <;> simp [Memory.set, Memory.lookup, h, eq_comm]
  | cons c m ih =>
    obtain ⟨a', b'⟩ := c
    rcases lt_trichotomy a a' with h1 | rfl | h1
    · rw [Memory.set, if_pos h1]
      by_cases h : x = a
      · simp [Memory.lookup, h]
      · simp [Memory.lookup, h, Ne.symm h]
    · rw [Memory.set, if_neg (lt_irrefl _), if_pos rfl]
      by_cases h : x = a
      · simp [Memory.lookup, h]
      · simp [Memory.lookup, h, Ne.symm h]
    · rw [Memory.set, if_neg (by omega), if_neg (by omega), Memory.lookup, ih]
      by_cases h : x = a
      · rw [if_neg (by omega), if_pos h, if_pos h]
      · rw [if_neg h, if_neg h, Memory.lookup]

@[simp] theorem byteAt_set (m : Memory) (a : Nat) (b : Byte) (x : Nat) :
    Memory.byteAt (Memory.set m a b) x = if x = a then b else Memory.byteAt m x := by
  simp only [Memory.byteAt, lookup_set]
  split <;> rfl

/-- A write records one cell and no other. -/
theorem mem_set {m : Memory} {a : Nat} {b : Byte} {c : Host.Cell} (h : c ∈ Memory.set m a b) :
    c = (a, b) ∨ c ∈ m := by
  induction m with
  | nil => simpa [Memory.set] using h
  | cons d m ih =>
    simp only [Memory.set] at h
    split at h
    · simpa using h
    · split at h
      · rcases List.mem_cons.mp h with h | h
        · exact .inl h
        · exact .inr (List.mem_cons_of_mem _ h)
      · rcases List.mem_cons.mp h with h | h
        · exact .inr (h ▸ List.mem_cons_self ..)
        · rcases ih h with h | h
          · exact .inl h
          · exact .inr (List.mem_cons_of_mem _ h)

/-- The canonical form says that the addresses rise strictly. -/
theorem wf_iff_pairwise (m : Memory) :
    Memory.wf m = true ↔ m.Pairwise (fun c d => c.1 < d.1) := by
  induction m with
  | nil => simp [Memory.wf]
  | cons c m ih =>
    cases m with
    | nil => simp [Memory.wf]
    | cons d m =>
      simp only [Memory.wf, Bool.and_eq_true, decide_eq_true_eq, ih, List.pairwise_cons,
        List.mem_cons, forall_eq_or_imp]
      constructor
      · rintro ⟨h, h2, h3⟩
        exact ⟨⟨h, fun e he => lt_trans h (h2 e he)⟩, h2, h3⟩
      · rintro ⟨⟨h, -⟩, h2, h3⟩
        exact ⟨h, h2, h3⟩

/-- A write keeps the canonical form. -/
theorem wf_set {m : Memory} (h : Memory.wf m = true) (a : Nat) (b : Byte) :
    Memory.wf (Memory.set m a b) = true := by
  rw [wf_iff_pairwise] at h ⊢
  induction m with
  | nil => simp [Memory.set]
  | cons c m ih =>
    obtain ⟨h1, h2⟩ := List.pairwise_cons.mp h
    simp only [Memory.set]
    split
    · rename_i hlt
      refine List.pairwise_cons.mpr ⟨fun d hd => ?_, h⟩
      rcases List.mem_cons.mp hd with rfl | hd
      · exact hlt
      · exact lt_trans hlt (h1 d hd)
    · split
      · rename_i heq
        exact List.pairwise_cons.mpr ⟨fun d hd => by simpa [heq] using h1 d hd, h2⟩
      · rename_i hlt heq
        refine List.pairwise_cons.mpr ⟨fun d hd => ?_, ih h2⟩
        rcases mem_set hd with rfl | hd
        · exact lt_of_le_of_ne (not_lt.mp hlt) (Ne.symm heq)
        · exact h1 d hd

/-- An address below every recorded one records nothing. -/
theorem lookup_eq_none {m : Memory} {a : Nat} (h : ∀ c ∈ m, a < c.1) :
    Memory.lookup m a = none := by
  induction m with
  | nil => rfl
  | cons c m ih =>
    have hc := h c (List.mem_cons_self ..)
    simp only [Memory.lookup]
    rw [if_neg (by omega)]
    exact ih fun d hd => h d (List.mem_cons_of_mem _ hd)

/-- The canonical form is canonical: two canonical memories that record the same are equal data. -/
theorem wf_ext {m m' : Memory} (h : Memory.wf m = true) (h' : Memory.wf m' = true)
    (he : ∀ a, Memory.lookup m a = Memory.lookup m' a) : m = m' := by
  rw [wf_iff_pairwise] at h h'
  induction m generalizing m' with
  | nil =>
    cases m' with
    | nil => rfl
    | cons d m' => simpa [Memory.lookup] using he d.1
  | cons c m ih =>
    cases m' with
    | nil => simpa [Memory.lookup] using he c.1
    | cons d m' =>
      obtain ⟨h1, h2⟩ := List.pairwise_cons.mp h
      obtain ⟨h1', h2'⟩ := List.pairwise_cons.mp h'
      obtain ⟨ca, cb⟩ := c
      obtain ⟨da, db⟩ := d
      have hlt : ¬ ca < da := fun hl => by
        have := he ca
        rw [lookup_eq_none (m := (da, db) :: m')] at this
        · simp [Memory.lookup] at this
        · intro e he'
          rcases List.mem_cons.mp he' with rfl | he'
          · exact hl
          · exact lt_trans hl (h1' e he')
      have hgt : ¬ da < ca := fun hl => by
        have := he da
        rw [lookup_eq_none (m := (ca, cb) :: m)] at this
        · simp [Memory.lookup] at this
        · intro e he'
          rcases List.mem_cons.mp he' with rfl | he'
          · exact hl
          · exact lt_trans hl (h1 e he')
      obtain rfl : ca = da := by omega
      have hb : cb = db := by simpa [Memory.lookup] using he ca
      subst hb
      refine congrArg _ (ih h2 h2' (fun a => ?_))
      by_cases ha : ca = a
      · subst ha
        rw [lookup_eq_none h1, lookup_eq_none h1']
      · simpa [Memory.lookup, ha] using he a

/-- `MemRead` inside BUF. -/
theorem memRead_ok {size : Nat} {m : Memory} {a : Nat} (h : a < size) :
    memRead size m a = .ok (Memory.byteAt m a) := if_pos h

/-- `MemWrite` inside BUF. -/
theorem memWrite_ok {size : Nat} {m : Memory} {a : Nat} {b : Byte} (h : a < size) :
    memWrite size m a b = .ok (Memory.set m a b) := if_pos h

/-- What `MemWrite` can answer: the write of one byte that exists. -/
theorem memWrite_cases {size : Nat} {m m' : Memory} {a : Nat} {b : Byte}
    (h : memWrite size m a b = .ok m') : a < size ∧ m' = Memory.set m a b := by
  unfold memWrite at h
  split at h
  · exact ⟨‹_›, by cases h; rfl⟩
  · cases h

/-- What `MemRead` can answer: the byte at an address that exists. -/
theorem memRead_cases {size : Nat} {m : Memory} {a : Nat} {b : Byte}
    (h : memRead size m a = .ok b) : a < size ∧ b = Memory.byteAt m a := by
  unfold memRead at h
  split at h
  · exact ⟨‹_›, by cases h; rfl⟩
  · cases h

end Sys2Proof.Machine
end

