-- ==== Sys2Proof/Laws/Bits.lean ====
section
/-! SUPPORT. The two bit primitives of 20_memory.md: what GetBits answers and what PutBits leaves, bit by bit. -/

namespace Sys2Proof.Machine

/-! ### Bits and fields of BUF -/

/-- A byte is its eight bits. -/
theorem byteAt_eq_of_bits {m m' : Memory} {a : Nat}
    (h : ∀ j < 8, Memory.bit m (8 * a + j) = Memory.bit m' (8 * a + j)) :
    Memory.byteAt m a = Memory.byteAt m' a := by
  refine BitVec.eq_of_getLsbD_eq fun j hj => ?_
  have := h j hj
  simp only [Memory.bit] at this
  rwa [show (8 * a + j) / 8 = a by omega, show (8 * a + j) % 8 = j by omega] at this

/-- A bit of BUF is a bit of its byte. -/
theorem bit_of_byteAt (m : Memory) (a j : Nat) (hj : j < 8) :
    Memory.bit m (8 * a + j) = (Memory.byteAt m a).getLsbD j := by
  simp only [Memory.bit]
  rw [show (8 * a + j) / 8 = a by omega, show (8 * a + j) % 8 = j by omega]

/-- Cursor bit `k` of the region at `base` (20_memory.md R52). -/
theorem bit_of_cursor (m : Memory) (base k : Nat) :
    Memory.bit m (8 * base + k) = (Memory.byteAt m (base + k / 8)).getLsbD (k % 8) := by
  simp only [Memory.bit]
  rw [show (8 * base + k) / 8 = base + k / 8 by omega, show (8 * base + k) % 8 = k % 8 by omega]

theorem field_zero (m : Memory) (x : Nat) : Memory.field m x 0 = 0 := by simp [Memory.field]

theorem field_succ (m : Memory) (x n : Nat) :
    Memory.field m x (n + 1) = Memory.field m x n + if Memory.bit m (x + n) then 2 ^ n else 0 := by
  simp [Memory.field, Finset.sum_range_succ]

/-- A field of `n` bits is below `2^n` (20_memory.md R54). -/
theorem field_lt (m : Memory) (x n : Nat) : Memory.field m x n < 2 ^ n := by
  induction n with
  | zero => simp [field_zero]
  | succ n ih =>
    rw [field_succ, Nat.pow_succ]
    split <;> omega

/-- Bit `j` of a field is the bit of BUF at the field's position `j` (20_memory.md R54). -/
theorem field_testBit (m : Memory) (x n j : Nat) :
    (Memory.field m x n).testBit j = (decide (j < n) && Memory.bit m (x + j)) := by
  induction n with
  | zero => simp [field_zero]
  | succ n ih =>
    rw [field_succ]
    have hlt := field_lt m x n
    by_cases hb : Memory.bit m (x + n) = true
    · rw [if_pos hb, Nat.add_comm]
      rcases lt_trichotomy j n with h | h | h
      · rw [Nat.testBit_two_pow_add_gt h, ih]
        simp [h, Nat.lt_succ_of_lt h]
      · subst h
        rw [Nat.testBit_two_pow_add_eq, Nat.testBit_lt_two_pow hlt]
        simp [hb]
      · rw [Nat.testBit_lt_two_pow (lt_of_lt_of_le (by omega : _ < 2 ^ (n + 1))
          (Nat.pow_le_pow_right (by omega) (by omega : n + 1 ≤ j)))]
        simp [show ¬ j < n + 1 by omega]
    · rw [if_neg hb, Nat.add_zero, ih]
      by_cases h : j = n
      · subst h; simp [hb]
      · simp only [show (j < n) ↔ (j < n + 1) by omega]

/-- Fields over equal bits are equal. -/
theorem field_congr {m m' : Memory} {x x' n : Nat}
    (h : ∀ j < n, Memory.bit m (x + j) = Memory.bit m' (x' + j)) :
    Memory.field m x n = Memory.field m' x' n := by
  refine Finset.sum_congr rfl fun j hj => ?_
  rw [h j (Finset.mem_range.mp hj)]

/-- The field of eight bits of one byte is the byte. -/
theorem field_byte (m : Memory) (a : Nat) :
    Memory.field m (8 * a) 8 = (Memory.byteAt m a).toNat := by
  refine Nat.eq_of_testBit_eq fun j => ?_
  rw [field_testBit]
  by_cases h : j < 8
  · rw [bit_of_byteAt m a j h]
    simp [h, BitVec.getLsbD]
  · rw [BitVec.testBit_toNat, BitVec.getLsbD_of_ge _ _ (by omega)]
    simp [h]

/-! ### GetBits -/

theorem bitOfByte_eq (b : Byte) (k : Nat) : bitOfByte b k = if b.getLsbD k then 1 else 0 := by
  simp only [bitOfByte, BitVec.getLsbD, Nat.testBit_eq_decide_div_mod_eq]
  split <;> simp_all

/-- GetBits inside BUF answers the field of 20_memory.md R54. -/
theorem getBits_ok {size : Nat} (m : Memory) {base k n : Nat}
    (h : n ≠ 0 → base + (k + n - 1) / 8 < size) :
    getBits size m base k n = .ok (Memory.field m (8 * base + k) n) := by
  induction n with
  | zero => simp [getBits, field_zero]
  | succ n ih =>
    have h' := h (by omega)
    rw [getBits, ih (fun _ => by omega)]
    simp only []
    rw [memRead_ok (by omega)]
    rw [field_succ, Nat.add_assoc, bit_of_cursor]
    simp only [bitOfByte_eq]
    split <;> simp

/-- What GetBits can answer: the field of 20_memory.md R54. -/
theorem getBits_cases {size : Nat} {m : Memory} {base k n u : Nat}
    (h : getBits size m base k n = .ok u) : u = Memory.field m (8 * base + k) n := by
  induction n generalizing u with
  | zero => simpa [getBits, field_zero] using h.symm
  | succ n ih =>
    rw [getBits] at h
    split at h
    · cases h
    · rename_i v hv
      split at h
      · cases h
      · rename_i b hb
        cases h
        rw [ih hv, (memRead_cases hb).2, field_succ, Nat.add_assoc (8 * base), bit_of_cursor,
          bitOfByte_eq]
        split <;> simp

/-! ### PutBits -/

/-- LOWMASK has ones in exactly the low `t` bits (20_memory.md R56). -/
theorem lowMask_getLsbD {t j : Nat} (ht : t ≤ 8) (hj : j < 8) :
    (lowMask t).getLsbD j = decide (j < t) := by
  have : ∀ t ≤ 8, ∀ j < 8, (lowMask t).getLsbD j = decide (j < t) := by decide
  exact this t ht j hj

/-- A partial write changes exactly its `t` bits (20_memory.md R55). -/
theorem mergeByte_getLsbD (old : Byte) {p t c j : Nat} (hp : p + t ≤ 8) (hc : c < 2 ^ t)
    (hj : j < 8) :
    (mergeByte old p t c).getLsbD j =
      if p ≤ j ∧ j < p + t then c.testBit (j - p) else old.getLsbD j := by
  have h255 : (0xFF : Byte).getLsbD j = true := by
    have : ∀ j < 8, (0xFF : Byte).getLsbD j = true := by decide
    exact this j hj
  have hlow : (lowMask t).getLsbD (j - p) = decide (j - p < t) :=
    lowMask_getLsbD (by omega) (by omega)
  simp only [mergeByte, BitVec.getLsbD_or, BitVec.getLsbD_and, BitVec.getLsbD_xor,
    BitVec.getLsbD_shiftLeft, h255, hlow, BitVec.getLsbD_ofNat, hj, show j - p < 8 by omega,
    decide_true, Bool.true_and]
  by_cases h1 : j < p
  · simp [h1, show ¬ p ≤ j by omega]
  · by_cases h2 : j < p + t
    · simp [h1, h2, show p ≤ j by omega, show j - p < t by omega]
    · have : c.testBit (j - p) = false :=
        Nat.testBit_lt_two_pow (lt_of_lt_of_le hc (Nat.pow_le_pow_right (by omega) (by omega)))
      simp [h1, h2, this, show ¬ j - p < t by omega]

/-- One round of PutBits, bit by bit. -/
theorem bit_set_mergeByte (m : Memory) (base pos t v x : Nat) (ht : t ≤ 8 - pos % 8) :
    Memory.bit (Memory.set m (base + pos / 8)
        (mergeByte (Memory.byteAt m (base + pos / 8)) (pos % 8) t (v % 2 ^ t))) x =
      if 8 * base + pos ≤ x ∧ x < 8 * base + pos + t then v.testBit (x - (8 * base + pos))
      else Memory.bit m x := by
  simp only [Memory.bit, byteAt_set]
  by_cases h : x / 8 = base + pos / 8
  · rw [if_pos h, h, mergeByte_getLsbD _ (by omega) (Nat.mod_lt _ (Nat.two_pow_pos t))
      (Nat.mod_lt _ (by omega))]
    by_cases h2 : pos % 8 ≤ x % 8 ∧ x % 8 < pos % 8 + t
    · rw [if_pos h2, if_pos (by omega), Nat.testBit_mod_two_pow,
        show x - (8 * base + pos) = x % 8 - pos % 8 by omega]
      simp [show x % 8 - pos % 8 < t by omega]
    · rw [if_neg h2, if_neg (by omega)]
  · rw [if_neg h, if_neg (by omega)]

/-- What PutBits leaves of the bits of BUF: the field holds `u`, every other bit is as before
(20_memory.md R55). -/
def FieldWritten (m m' : Memory) (x n u : Nat) : Prop :=
  ∀ y, Memory.bit m' y = if x ≤ y ∧ y < x + n then u.testBit (y - x) else Memory.bit m y

theorem putLoop_cases {size base : Nat} {rounds : Nat} {m m' : Memory} {pos rem v : Nat}
    (hr : rem ≤ rounds) (h : putLoop size base rounds m pos rem v = .ok m') :
    FieldWritten m m' (8 * base + pos) rem v ∧
      (Memory.wf m = true → Memory.wf m' = true) ∧
      ((∀ c ∈ m, c.1 < size) → ∀ c ∈ m', c.1 < size) := by
  induction rounds generalizing m pos rem v with
  | zero =>
    obtain rfl : rem = 0 := by omega
    cases h
    exact ⟨fun y => by rw [if_neg (by omega)], id, id⟩
  | succ rounds ih =>
    rw [putLoop] at h
    split at h
    · subst rem
      cases h
      exact ⟨fun y => by rw [if_neg (by omega)], id, id⟩
    · rename_i hrem
      simp only at h
      generalize ht : min (8 - pos % 8) rem = t at h
      split at h
      · cases h
      · rename_i old hold
        split at h
        · cases h
        · rename_i m1 hm1
          obtain ⟨ha, rfl⟩ := memWrite_cases hm1
          obtain ⟨-, rfl⟩ := memRead_cases hold
          obtain ⟨h1, h2, h3⟩ := ih (by omega) h
          refine ⟨fun y => ?_, fun hw => h2 (wf_set hw ..), fun hc => h3 fun c hcm => ?_⟩
          · rw [h1 y, bit_set_mergeByte _ _ _ _ _ _ (by omega)]
            by_cases hy1 : 8 * base + (pos + t) ≤ y ∧ y < 8 * base + (pos + t) + (rem - t)
            · rw [if_pos hy1, if_pos (by omega), Nat.testBit_div_two_pow,
                show y - (8 * base + (pos + t)) + t = y - (8 * base + pos) by omega]
            · rw [if_neg hy1]
              by_cases hy2 : 8 * base + pos ≤ y ∧ y < 8 * base + pos + t
              · rw [if_pos hy2, if_pos (by omega)]
              · rw [if_neg hy2, if_neg (by omega)]
          · rcases mem_set hcm with rfl | hcm
            · exact ha
            · exact hc c hcm

theorem putLoop_ok {size base : Nat} {rounds : Nat} (m : Memory) {pos rem : Nat} (v : Nat)
    (h : rem ≠ 0 → base + (pos + rem - 1) / 8 < size) :
    ∃ m', putLoop size base rounds m pos rem v = .ok m' := by
  induction rounds generalizing m pos rem v with
  | zero => exact ⟨m, rfl⟩
  | succ rounds ih =>
    rw [putLoop]
    split
    · exact ⟨m, rfl⟩
    · rename_i hrem
      have h' := h hrem
      simp only
      rw [memRead_ok (by omega)]
      simp only
      rw [memWrite_ok (by omega)]
      refine ih _ _ fun h2 => ?_
      rw [show pos + min (8 - pos % 8) rem + (rem - min (8 - pos % 8) rem) = pos + rem by omega]
      exact h'

/-- What PutBits can answer (20_memory.md R55): the field written, every other bit unchanged, and the
canonical form kept. -/
theorem putBits_cases {size : Nat} {m m' : Memory} {base k n u : Nat}
    (h : putBits size m base k n u = .ok m') :
    FieldWritten m m' (8 * base + k) n u ∧ (Memory.wf m = true → Memory.wf m' = true) ∧
      ((∀ c ∈ m, c.1 < size) → ∀ c ∈ m', c.1 < size) :=
  putLoop_cases le_rfl h

/-- PutBits inside BUF answers. -/
theorem putBits_ok {size : Nat} (m : Memory) {base k n : Nat} (u : Nat)
    (h : n ≠ 0 → base + (k + n - 1) / 8 < size) : ∃ m', putBits size m base k n u = .ok m' :=
  putLoop_ok m u h

/-- A byte with no bit in the field keeps its value (20_memory.md R55). -/
theorem FieldWritten_byte {m m' : Memory} {x n u a : Nat} (h : FieldWritten m m' x n u)
    (ha : 8 * a + 8 ≤ x ∨ x + n ≤ 8 * a) : Memory.byteAt m' a = Memory.byteAt m a :=
  byteAt_eq_of_bits fun j hj => by rw [h, if_neg (by omega)]

/-- A field written and read back is the value written (20_memory.md R56). -/
theorem FieldWritten_field {m m' : Memory} {x n u : Nat} (h : FieldWritten m m' x n u)
    (hu : u < 2 ^ n) : Memory.field m' x n = u := by
  refine Nat.eq_of_testBit_eq fun j => ?_
  rw [field_testBit]
  by_cases hj : j < n
  · rw [h, if_pos (by omega)]
    simp [hj]
  · rw [Nat.testBit_lt_two_pow (lt_of_lt_of_le hu (Nat.pow_le_pow_right (by omega) (by omega)))]
    simp [hj]

/-! ### Whole bytes -/

/-- What PutBytes leaves: the bytes in address order from the cursor's byte, and every other byte as
before (43_aligned_write.md R133). -/
theorem putBytes_cases {size : Nat} {bs : List Nat} {m m' : Memory} {base q : Nat}
    (h : putBytes size m base (8 * q) bs = .ok m') :
    (∀ a, Memory.byteAt m' a =
        if base + q ≤ a ∧ a < base + q + bs.length then
          BitVec.ofNat 8 (bs.getD (a - (base + q)) 0)
        else Memory.byteAt m a) ∧
      (Memory.wf m = true → Memory.wf m' = true) ∧
      ((∀ c ∈ m, c.1 < size) → ∀ c ∈ m', c.1 < size) := by
  induction bs generalizing m q with
  | nil =>
    cases h
    exact ⟨fun a => by rw [if_neg (by simp)], id, id⟩
  | cons b bs ih =>
    rw [putBytes] at h
    split at h
    · cases h
    · rename_i m1 hm1
      obtain ⟨h1, h2, h3⟩ := putBits_cases hm1
      rw [show 8 * q + 8 = 8 * (q + 1) by ring] at h
      obtain ⟨i1, i2, i3⟩ := ih h
      refine ⟨fun a => ?_, fun hw => i2 (h2 hw), fun hc => i3 (h3 hc)⟩
      rw [i1 a]
      by_cases ha : base + (q + 1) ≤ a ∧ a < base + (q + 1) + bs.length
      · rw [if_pos ha, if_pos (by simp only [List.length_cons]; omega),
          show a - (base + q) = a - (base + (q + 1)) + 1 by omega, List.getD_cons_succ]
      · rw [if_neg ha]
        by_cases ha2 : a = base + q
        · subst ha2
          rw [if_pos (by simp only [List.length_cons]; omega)]
          refine BitVec.eq_of_getLsbD_eq fun j hj => ?_
          rw [← bit_of_byteAt _ _ _ hj, h1, if_pos (by omega), BitVec.getLsbD_ofNat,
            show 8 * (base + q) + j - (8 * base + 8 * q) = j by omega]
          simp [hj]
        · rw [if_neg (by simp only [List.length_cons]; omega)]
          exact FieldWritten_byte h1 (by omega)

/-- PutBytes inside BUF answers. -/
theorem putBytes_ok {size : Nat} {bs : List Nat} (m : Memory) {base q : Nat}
    (h : base + q + bs.length ≤ size) : ∃ m', putBytes size m base (8 * q) bs = .ok m' := by
  induction bs generalizing m q with
  | nil => exact ⟨m, rfl⟩
  | cons b bs ih =>
    simp only [List.length_cons] at h
    obtain ⟨m1, hm1⟩ := putBits_ok (size := size) m (base := base) (k := 8 * q) (n := 8) b
      (fun _ => by omega)
    rw [putBytes, hm1, show 8 * q + 8 = 8 * (q + 1) by ring]
    exact ih m1 (by omega)

/-- GetBytes inside BUF answers the bytes in address order (44_aligned_read.md R143). -/
theorem getBytes_ok {size : Nat} (m : Memory) {base q n : Nat} (h : base + q + n ≤ size) :
    getBytes size m base (8 * q) n =
      .ok ((List.range n).map fun j => (Memory.byteAt m (base + q + j)).toNat) := by
  induction n generalizing q with
  | zero => rfl
  | succ n ih =>
    rw [getBytes, getBits_ok m (fun _ => by omega), show 8 * q + 8 = 8 * (q + 1) by ring,
      ih (by omega), show 8 * base + 8 * q = 8 * (base + q) by ring, field_byte]
    simp only [List.range_succ_eq_map, List.map_cons, List.map_map, Nat.add_zero]
    congr 2
    refine List.map_congr_left fun j _ => ?_
    simp only [Function.comp]
    rw [show base + (q + 1) + j = base + q + (j + 1) by omega]

end Sys2Proof.Machine
end

