-- ==== Sys2Proof/Laws/Operands.lean ====
section
/-! SUPPORT. Operands and results: what the range checks, the bias and sign extension say of the 64-bit words. -/

namespace Sys2Proof.Machine

/-- A result that 64 bits hold is the integer it stands for. -/
theorem resultWord_toInt {v : Int} (h : -(2 ^ 63) ≤ v) (h' : v < 2 ^ 63) :
    (resultWord v).toInt = v := by
  rw [resultWord, BitVec.toInt_ofInt]
  exact Int.bmod_eq_of_le (by norm_num; omega) (by norm_num; omega)

theorem fitsUnsigned_iff {n : Nat} {v : Int} : fitsUnsigned n v = true ↔ 0 ≤ v ∧ v < 2 ^ n := by
  simp [fitsUnsigned]

theorem fitsSigned_iff {n : Nat} {v : Int} :
    fitsSigned n v = true ↔ -(2 ^ (n - 1)) ≤ v ∧ v ≤ 2 ^ (n - 1) - 1 := by
  simp [fitsSigned]

/-- A word modulo `2^n`, `n ≤ 64`, is its signed value modulo `2^n`. -/
theorem toNat_mod_two_pow (a : Word) {n : Nat} (hn : n ≤ 64) :
    ((a.toNat % 2 ^ n : Nat) : Int) = a.toInt % 2 ^ n := by
  have hd : (2 ^ n : Int) ∣ 2 ^ 64 := pow_dvd_pow 2 hn
  rw [BitVec.toInt_eq_toNat_cond]
  split
  · push_cast; rfl
  · push_cast
    obtain ⟨k, hk⟩ := hd
    rw [show (18446744073709551616 : Int) = 2 ^ 64 by norm_num, hk, Int.sub_mul_emod_self_left]

/-- The value an unsigned field stores is the low bits of operand A. -/
theorem unsigned_pattern {a : Word} {n : Nat} (hn : n ≤ 64)
    (h : fitsUnsigned n a.toInt = true) : a.toInt.toNat = a.toNat % 2 ^ n := by
  obtain ⟨h1, h2⟩ := fitsUnsigned_iff.mp h
  have := toNat_mod_two_pow a hn
  rw [Int.emod_eq_of_lt h1 h2] at this
  omega

/-- The pattern a signed field stores is the low bits of operand A (41_bit_write.md R113). -/
theorem signed_pattern {a : Word} {n : Nat} (hn : 1 ≤ n) (hn' : n ≤ 64)
    (h : fitsSigned n a.toInt = true) : biased n a.toInt = a.toNat % 2 ^ n := by
  obtain ⟨h1, h2⟩ := fitsSigned_iff.mp h
  have hm := toNat_mod_two_pow a hn'
  have hp : (2 : Int) ^ n = 2 * 2 ^ (n - 1) := by
    rw [← pow_succ', Nat.sub_add_cancel hn]
  have hpos : (0 : Int) < 2 ^ (n - 1) := by positivity
  unfold biased
  split
  · rw [← Int.add_emod_right, Int.emod_eq_of_lt (by omega) (by omega)] at hm
    omega
  · rw [Int.emod_eq_of_lt (by omega) (by omega)] at hm
    omega

/-- A stored pattern is below `2^n`. -/
theorem pattern_lt (a : Word) (n : Nat) : a.toNat % 2 ^ n < 2 ^ n := Nat.mod_lt _ (Nat.two_pow_pos n)

/-- Bit `j` of a stored pattern is bit `j` of operand A. -/
theorem pattern_testBit (a : Word) {n j : Nat} (hj : j < n) :
    (a.toNat % 2 ^ n).testBit j = a.getLsbD j := by
  rw [Nat.testBit_mod_two_pow]
  simp [hj, BitVec.getLsbD]

/-- Sign extension of the biased pattern gives the value back (42_bit_read.md R123). -/
theorem signExtend_biased {n : Nat} {v : Int} (hn : 1 ≤ n) (h : fitsSigned n v = true) :
    signExtend n (biased n v) = v := by
  obtain ⟨h1, h2⟩ := fitsSigned_iff.mp h
  have hp : (2 : Int) ^ n = 2 * 2 ^ (n - 1) := by
    rw [← pow_succ', Nat.sub_add_cancel hn]
  have hpos : (0 : Int) < 2 ^ (n - 1) := by positivity
  have hcast : ((2 ^ (n - 1) : Nat) : Int) = 2 ^ (n - 1) := by push_cast; rfl
  unfold signExtend biased
  split <;> split <;> omega

/-- The bias of a value in range is below `2^n` (41_bit_write.md R111). -/
theorem biased_lt {n : Nat} {v : Int} (hn : 1 ≤ n) (h : fitsSigned n v = true) :
    biased n v < 2 ^ n := by
  obtain ⟨h1, h2⟩ := fitsSigned_iff.mp h
  have hp : (2 : Int) ^ n = 2 * 2 ^ (n - 1) := by
    rw [← pow_succ', Nat.sub_add_cancel hn]
  have hpos : (0 : Int) < 2 ^ (n - 1) := by positivity
  have hcast : ((2 ^ n : Nat) : Int) = 2 ^ n := by push_cast; rfl
  unfold biased
  split <;> omega

/-- The range of a sign-extended field (42_bit_read.md R121). -/
theorem signExtend_range {n u : Nat} (hn : 1 ≤ n) (hu : u < 2 ^ n) :
    -(2 ^ (n - 1)) ≤ signExtend n u ∧ signExtend n u ≤ 2 ^ (n - 1) - 1 := by
  have hp : (2 : Nat) ^ n = 2 * 2 ^ (n - 1) := by
    rw [← pow_succ', Nat.sub_add_cancel hn]
  have hcast : ((2 ^ (n - 1) : Nat) : Int) = 2 ^ (n - 1) := by push_cast; rfl
  have hcast2 : ((2 ^ n : Nat) : Int) = 2 ^ n := by push_cast; rfl
  unfold signExtend
  split <;> omega

/-- `alignup(k)` is the least multiple of 8 not below `k` (00_scope.md R9). -/
theorem alignUp_spec (k : Nat) : k ≤ alignUp k ∧ alignUp k < k + 8 ∧ alignUp k % 8 = 0 := by
  unfold alignUp; omega

/-- The alignment of a legal cursor is a legal cursor (20_memory.md R60). -/
theorem alignUp_le {k n : Nat} (h : k ≤ 8 * n) : alignUp k ≤ 8 * n := by unfold alignUp; omega

end Sys2Proof.Machine
end

