-- ==== Sys2Proof/Laws/State.lean ====
section
/-! SUPPORT. What each update of a state does to each field: one lemma per field per update, all true by unfolding, so that no proof unfolds an update. -/

namespace Sys2Proof.Machine

section Ctx

variable (s : State) (side : Side) (c : Context) (k : Nat)

@[simp] theorem ctx_rd : s.ctx .rd = s.rd := rfl
@[simp] theorem ctx_wr : s.ctx .wr = s.wr := rfl

@[simp] theorem setCtx_rd_rd : (s.setCtx .rd c).rd = c := rfl
@[simp] theorem setCtx_rd_wr : (s.setCtx .rd c).wr = s.wr := rfl
@[simp] theorem setCtx_wr_rd : (s.setCtx .wr c).rd = s.rd := rfl
@[simp] theorem setCtx_wr_wr : (s.setCtx .wr c).wr = c := rfl
@[simp] theorem setCtx_buf : (s.setCtx side c).buf = s.buf := by cases side <;> rfl
@[simp] theorem setCtx_bufBytes : (s.setCtx side c).bufBytes = s.bufBytes := by cases side <;> rfl
@[simp] theorem setCtx_err : (s.setCtx side c).err = s.err := by cases side <;> rfl
@[simp] theorem setCtx_packet : (s.setCtx side c).packet = s.packet := by cases side <;> rfl
@[simp] theorem setCtx_inputs : (s.setCtx side c).inputs = s.inputs := by cases side <;> rfl
@[simp] theorem setCtx_responses : (s.setCtx side c).responses = s.responses := by
  cases side <;> rfl

@[simp] theorem setCur_rd_rd : (s.setCur .rd k).rd = { s.rd with cur := k } := rfl
@[simp] theorem setCur_rd_wr : (s.setCur .rd k).wr = s.wr := rfl
@[simp] theorem setCur_wr_rd : (s.setCur .wr k).rd = s.rd := rfl
@[simp] theorem setCur_wr_wr : (s.setCur .wr k).wr = { s.wr with cur := k } := rfl
@[simp] theorem setCur_buf : (s.setCur side k).buf = s.buf := by cases side <;> rfl
@[simp] theorem setCur_bufBytes : (s.setCur side k).bufBytes = s.bufBytes := by cases side <;> rfl
@[simp] theorem setCur_err : (s.setCur side k).err = s.err := by cases side <;> rfl
@[simp] theorem setCur_packet : (s.setCur side k).packet = s.packet := by cases side <;> rfl
@[simp] theorem setCur_inputs : (s.setCur side k).inputs = s.inputs := by cases side <;> rfl
@[simp] theorem setCur_responses : (s.setCur side k).responses = s.responses := by
  cases side <;> rfl

@[simp] theorem alignCur_rd_rd : (s.alignCur .rd).rd = { s.rd with cur := alignUp s.rd.cur } := rfl
@[simp] theorem alignCur_rd_wr : (s.alignCur .rd).wr = s.wr := rfl
@[simp] theorem alignCur_wr_rd : (s.alignCur .wr).rd = s.rd := rfl
@[simp] theorem alignCur_wr_wr : (s.alignCur .wr).wr = { s.wr with cur := alignUp s.wr.cur } := rfl
@[simp] theorem alignCur_buf : (s.alignCur side).buf = s.buf := by cases side <;> rfl
@[simp] theorem alignCur_bufBytes : (s.alignCur side).bufBytes = s.bufBytes := by
  cases side <;> rfl
@[simp] theorem alignCur_err : (s.alignCur side).err = s.err := by cases side <;> rfl
@[simp] theorem alignCur_packet : (s.alignCur side).packet = s.packet := by cases side <;> rfl
@[simp] theorem alignCur_inputs : (s.alignCur side).inputs = s.inputs := by cases side <;> rfl
@[simp] theorem alignCur_responses : (s.alignCur side).responses = s.responses := by
  cases side <;> rfl

end Ctx

section Buf

variable (s : State) (m : Memory)

@[simp] theorem setBuf_buf : (s.setBuf m).buf = m := rfl
@[simp] theorem setBuf_bufBytes : (s.setBuf m).bufBytes = s.bufBytes := rfl
@[simp] theorem setBuf_rd : (s.setBuf m).rd = s.rd := rfl
@[simp] theorem setBuf_wr : (s.setBuf m).wr = s.wr := rfl
@[simp] theorem setBuf_err : (s.setBuf m).err = s.err := rfl
@[simp] theorem setBuf_packet : (s.setBuf m).packet = s.packet := rfl
@[simp] theorem setBuf_inputs : (s.setBuf m).inputs = s.inputs := rfl
@[simp] theorem setBuf_responses : (s.setBuf m).responses = s.responses := rfl

end Buf

section Respond

variable (s : State) (r : Response)

@[simp] theorem respond_buf : (s.respond r).buf = s.buf := rfl
@[simp] theorem respond_bufBytes : (s.respond r).bufBytes = s.bufBytes := rfl
@[simp] theorem respond_rd : (s.respond r).rd = s.rd := rfl
@[simp] theorem respond_wr : (s.respond r).wr = s.wr := rfl
@[simp] theorem respond_err : (s.respond r).err = s.err := rfl
@[simp] theorem respond_packet : (s.respond r).packet = s.packet := rfl
@[simp] theorem respond_inputs : (s.respond r).inputs = s.inputs := rfl
@[simp] theorem respond_responses : (s.respond r).responses = s.responses ++ [r] := rfl

end Respond

section Raised

variable (s : State) (e : ErrorKind)

@[simp] theorem raised_buf : (s.raised e).buf = s.buf := rfl
@[simp] theorem raised_bufBytes : (s.raised e).bufBytes = s.bufBytes := rfl
@[simp] theorem raised_rd : (s.raised e).rd = s.rd := rfl
@[simp] theorem raised_wr : (s.raised e).wr = s.wr := rfl
@[simp] theorem raised_err : (s.raised e).err = stickyErr s.err e := rfl
@[simp] theorem raised_packet : (s.raised e).packet = s.packet := rfl
@[simp] theorem raised_inputs : (s.raised e).inputs = s.inputs := rfl
@[simp] theorem raised_responses :
    (s.raised e).responses = s.responses ++ [⟨e.code, 0, []⟩] := rfl

end Raised

section Inputs

variable (s : State) (p : Packet)

@[simp] theorem applyReset_buf : s.applyReset.buf = s.buf := rfl
@[simp] theorem applyReset_bufBytes : s.applyReset.bufBytes = s.bufBytes := rfl
@[simp] theorem applyReset_rd : s.applyReset.rd = Context.reset := rfl
@[simp] theorem applyReset_wr : s.applyReset.wr = Context.reset := rfl
@[simp] theorem applyReset_err : s.applyReset.err = 0 := rfl
@[simp] theorem applyReset_packet : s.applyReset.packet = s.packet := rfl
@[simp] theorem applyReset_inputs : s.applyReset.inputs = s.inputs := rfl
@[simp] theorem applyReset_responses : s.applyReset.responses = s.responses := rfl

@[simp] theorem dropInput_buf : s.dropInput.buf = s.buf := rfl
@[simp] theorem dropInput_bufBytes : s.dropInput.bufBytes = s.bufBytes := rfl
@[simp] theorem dropInput_rd : s.dropInput.rd = s.rd := rfl
@[simp] theorem dropInput_wr : s.dropInput.wr = s.wr := rfl
@[simp] theorem dropInput_err : s.dropInput.err = s.err := rfl
@[simp] theorem dropInput_packet : s.dropInput.packet = s.packet := rfl
@[simp] theorem dropInput_inputs : s.dropInput.inputs = s.inputs.tail := rfl
@[simp] theorem dropInput_responses : s.dropInput.responses = s.responses := rfl

@[simp] theorem receive_buf : (s.receive p).buf = s.buf := rfl
@[simp] theorem receive_bufBytes : (s.receive p).bufBytes = s.bufBytes := rfl
@[simp] theorem receive_rd : (s.receive p).rd = s.rd := rfl
@[simp] theorem receive_wr : (s.receive p).wr = s.wr := rfl
@[simp] theorem receive_err : (s.receive p).err = s.err := rfl
@[simp] theorem receive_packet : (s.receive p).packet = p := rfl
@[simp] theorem receive_inputs : (s.receive p).inputs = s.inputs := rfl
@[simp] theorem receive_responses : (s.receive p).responses = s.responses := rfl

@[simp] theorem issueFirst_buf : (s.issueFirst p).buf = s.buf := rfl
@[simp] theorem issueFirst_bufBytes : (s.issueFirst p).bufBytes = s.bufBytes := rfl
@[simp] theorem issueFirst_rd : (s.issueFirst p).rd = s.rd := rfl
@[simp] theorem issueFirst_wr : (s.issueFirst p).wr = s.wr := rfl
@[simp] theorem issueFirst_err : (s.issueFirst p).err = s.err := rfl
@[simp] theorem issueFirst_packet : (s.issueFirst p).packet = s.packet := rfl
@[simp] theorem issueFirst_inputs : (s.issueFirst p).inputs = .command p :: s.inputs := rfl
@[simp] theorem issueFirst_responses : (s.issueFirst p).responses = s.responses := rfl

end Inputs

section Reset

@[simp] theorem resetOver_buf (n : Nat) (m : Memory) : (State.resetOver n m).buf = m := rfl
@[simp] theorem resetOver_bufBytes (n : Nat) (m : Memory) :
    (State.resetOver n m).bufBytes = n := rfl
@[simp] theorem reset_buf : State.reset.buf = [] := rfl
@[simp] theorem reset_bufBytes : State.reset.bufBytes = Config.bufBytes := rfl
@[simp] theorem reset_rd : State.reset.rd = Context.reset := rfl
@[simp] theorem reset_wr : State.reset.wr = Context.reset := rfl
@[simp] theorem reset_err : State.reset.err = 0 := rfl

end Reset

end Sys2Proof.Machine
end

