-- ==== Sys2Proof/Laws/Ops.lean ====
section
/-! SUPPORT. For each shared operation, once, everything it can answer; later proofs cite these and do not unfold the operation. -/

namespace Sys2Proof.Machine

/-- What an error leaves is what 60_exceptions.md R214 says. -/
theorem raised_eq_failedWith (s : State) (e : ErrorKind) : s.raised e = s.failedWith e := rfl

@[simp] theorem raise_eq_next (e : ErrorKind) (s t : State) :
    raise e s = .next t ↔ t = s.raised e := by
  simp only [raise, Host.Outcome.next.injEq, eq_comm]

@[simp] theorem reply_eq_next (v : Word) (s t : State) :
    reply v s = .next t ↔ t = s.answered v [] := by
  simp only [reply, Host.Outcome.next.injEq, eq_comm]; rfl

@[simp] theorem replyStream_eq_next (out : List Byte) (s t : State) :
    replyStream out s = .next t ↔ t = s.answered 0 out := by
  simp only [replyStream, Host.Outcome.next.injEq, eq_comm]; rfl

/-- The end of a stream command: the error, or the output. -/
theorem endStream_cases {r : Except ErrorKind (List Byte)} {s t : State}
    (h : endStream r s = .next t) :
    (∃ e, r = .error e ∧ t = s.raised e) ∨ (∃ out, r = .ok out ∧ t = s.answered 0 out) := by
  cases r with
  | error e => exact .inl ⟨e, rfl, by simpa [endStream] using h⟩
  | ok out => exact .inr ⟨out, rfl, by simpa [endStream] using h⟩

/-- A field write: the bounds error, or the field written and the cursor advanced
(41_bit_write.md R110). -/
theorem writeField_cases {n u : Nat} {s t : State} (h : writeField n u s = .next t) :
    (s.wr.cap < s.wr.cur + n ∧ t = s.raised .boundsError) ∨
      (s.wr.cur + n ≤ s.wr.cap ∧ ∃ m, FieldWritten s.buf m s.wr.bitPos n u ∧
        (Memory.wf s.buf = true → Memory.wf m = true) ∧
        ((∀ c ∈ s.buf, c.1 < s.bufBytes) → ∀ c ∈ m, c.1 < s.bufBytes) ∧
        t = ((s.setBuf m).setCur .wr (s.wr.cur + n)).answered 0 []) := by
  unfold writeField at h
  split at h
  · exact .inl ⟨‹_›, by simpa using h⟩
  · refine .inr ⟨by omega, ?_⟩
    split at h
    · cases h
    · rename_i m hm
      obtain ⟨h1, h2, h3⟩ := putBits_cases hm
      exact ⟨m, h1, h2, h3, by simpa using h⟩

/-- A field write over a legal context answers (41_bit_write.md R110). -/
theorem writeField_next {n u : Nat} {s : State} (h : s.wr.legal s.bufBytes) :
    ∃ t, writeField n u s = .next t := by
  unfold writeField
  split
  · exact ⟨_, rfl⟩
  · rename_i hc
    unfold Context.cap at hc
    obtain ⟨m, hm⟩ := putBits_ok (size := s.bufBytes) s.buf (base := s.wr.base) (k := s.wr.cur)
      (n := n) u (fun _ => by have := h.1; omega)
    rw [hm]
    exact ⟨_, rfl⟩

/-- A field read: the bounds error, or the field as the result and the cursor advanced
(42_bit_read.md R120). -/
theorem readField_cases {n : Nat} {interp : Nat → Int} {s t : State}
    (h : readField n interp s = .next t) :
    (s.rd.cap < s.rd.cur + n ∧ t = s.raised .boundsError) ∨
      (s.rd.cur + n ≤ s.rd.cap ∧
        t = (s.setCur .rd (s.rd.cur + n)).answered
          (resultWord (interp (Memory.field s.buf s.rd.bitPos n))) []) := by
  unfold readField at h
  split at h
  · exact .inl ⟨‹_›, by simpa using h⟩
  · refine .inr ⟨by omega, ?_⟩
    split at h
    · cases h
    · rename_i u hu
      obtain rfl := getBits_cases hu
      simpa [Context.bitPos] using h

/-- A field read over a legal context answers (42_bit_read.md R120). -/
theorem readField_next {n : Nat} {interp : Nat → Int} {s : State} (h : s.rd.legal s.bufBytes) :
    ∃ t, readField n interp s = .next t := by
  unfold readField
  split
  · exact ⟨_, rfl⟩
  · rename_i hc
    unfold Context.cap at hc
    rw [getBits_ok s.buf (fun _ => by have := h.1; omega)]
    exact ⟨_, rfl⟩

/-- The bytes of BUF after the bytes `bs` are stored from address `a0`. -/
def BytesWritten (m m' : Memory) (a0 : Nat) (bs : List Nat) : Prop :=
  ∀ a, Memory.byteAt m' a =
    if a0 ≤ a ∧ a < a0 + bs.length then BitVec.ofNat 8 (bs.getD (a - a0) 0)
    else Memory.byteAt m a

/-- Stage 3 of an aligned write: the bounds error, or the bytes stored and the cursor advanced
(43_aligned_write.md R130). -/
theorem writeBytes_cases {bs : List Nat} {s t : State} {q : Nat} (hq : s.wr.cur = 8 * q)
    (h : writeBytes bs s = .next t) :
    (s.wr.cap < s.wr.cur + 8 * bs.length ∧ t = s.raised .boundsError) ∨
      (s.wr.cur + 8 * bs.length ≤ s.wr.cap ∧ ∃ m, BytesWritten s.buf m (s.wr.base + q) bs ∧
        (Memory.wf s.buf = true → Memory.wf m = true) ∧
        ((∀ c ∈ s.buf, c.1 < s.bufBytes) → ∀ c ∈ m, c.1 < s.bufBytes) ∧
        t = ((s.setBuf m).setCur .wr (s.wr.cur + 8 * bs.length)).answered 0 []) := by
  unfold writeBytes at h
  split at h
  · exact .inl ⟨‹_›, by simpa using h⟩
  · refine .inr ⟨by omega, ?_⟩
    split at h
    · cases h
    · rename_i m hm
      rw [hq] at hm
      obtain ⟨h1, h2, h3⟩ := putBytes_cases hm
      exact ⟨m, h1, h2, h3, by simpa using h⟩

/-- Stage 3 of an aligned write over a legal context answers (43_aligned_write.md R130). -/
theorem writeBytes_next {bs : List Nat} {s : State} {q : Nat} (hq : s.wr.cur = 8 * q)
    (h : s.wr.base + s.wr.size ≤ s.bufBytes) : ∃ t, writeBytes bs s = .next t := by
  unfold writeBytes
  split
  · exact ⟨_, rfl⟩
  · rename_i hc
    unfold Context.cap at hc
    obtain ⟨m, hm⟩ := putBytes_ok (size := s.bufBytes) (bs := bs) s.buf (base := s.wr.base)
      (q := q) (by omega)
    rw [hq, hm]
    exact ⟨_, rfl⟩

/-- What GetBytes can answer: the bytes in address order (44_aligned_read.md R143). -/
theorem getBytes_cases {size : Nat} {m : Memory} {base q n : Nat} {bs : List Nat}
    (h : getBytes size m base (8 * q) n = .ok bs) :
    bs = (List.range n).map fun j => (Memory.byteAt m (base + q + j)).toNat := by
  induction n generalizing q bs with
  | zero => simpa [getBytes] using h.symm
  | succ n ih =>
    rw [getBytes] at h
    split at h
    · cases h
    · rename_i b hb
      split at h
      · cases h
      · rename_i bs' hbs'
        cases h
        rw [show 8 * q + 8 = 8 * (q + 1) by ring] at hbs'
        rw [getBits_cases hb, show 8 * base + 8 * q = 8 * (base + q) by ring, field_byte, ih hbs']
        simp only [List.range_succ_eq_map, List.map_cons, List.map_map, Nat.add_zero]
        congr 1
        refine List.map_congr_left fun j _ => ?_
        simp only [Function.comp]
        rw [show base + (q + 1) + j = base + q + (j + 1) by omega]

/-- Stage 3 of an aligned read: the bounds error, or the bytes as the result and the cursor advanced
(44_aligned_read.md R140). -/
theorem readBytes_cases {len : Nat} {interp : List Nat → Int} {s t : State} {q : Nat}
    (hq : s.rd.cur = 8 * q) (h : readBytes len interp s = .next t) :
    (s.rd.cap < s.rd.cur + 8 * len ∧ t = s.raised .boundsError) ∨
      (s.rd.cur + 8 * len ≤ s.rd.cap ∧
        t = (s.setCur .rd (s.rd.cur + 8 * len)).answered
          (resultWord (interp ((List.range len).map fun j =>
            (Memory.byteAt s.buf (s.rd.base + q + j)).toNat))) []) := by
  unfold readBytes at h
  split at h
  · exact .inl ⟨‹_›, by simpa using h⟩
  · refine .inr ⟨by omega, ?_⟩
    split at h
    · cases h
    · rename_i bs hbs
      rw [hq] at hbs
      rw [getBytes_cases hbs] at h
      simpa using h

/-- Stage 3 of an aligned read over a legal context answers (44_aligned_read.md R140). -/
theorem readBytes_next {len : Nat} {interp : List Nat → Int} {s : State} {q : Nat}
    (hq : s.rd.cur = 8 * q) (h : s.rd.base + s.rd.size ≤ s.bufBytes) :
    ∃ t, readBytes len interp s = .next t := by
  unfold readBytes
  split
  · exact ⟨_, rfl⟩
  · rename_i hc
    unfold Context.cap at hc
    rw [hq, getBytes_ok s.buf (by omega)]
    exact ⟨_, rfl⟩

/-- The alignment of the writer's cursor, in bytes. -/
theorem alignCur_wr_cur (s : State) : (s.alignCur .wr).wr.cur = 8 * ((s.wr.cur + 7) / 8) := rfl

/-- The alignment of the reader's cursor, in bytes. -/
theorem alignCur_rd_cur (s : State) : (s.alignCur .rd).rd.cur = 8 * ((s.rd.cur + 7) / 8) := rfl

/-- An aligned write: the range error, the bounds error, or the bytes stored; the alignment stays in
each case (43_aligned_write.md R130). -/
theorem alignedWrite_cases {fits : Int → Bool} {bytes : Int → List Nat} {s t : State}
    (h : alignedWrite fits bytes s = .next t) :
    (fits s.opA = false ∧ t = (s.alignCur .wr).raised .valueRangeError) ∨
      (fits s.opA = true ∧ writeBytes (bytes s.opA) (s.alignCur .wr) = .next t) := by
  unfold alignedWrite at h
  by_cases hf : fits s.opA = true
  · rw [if_pos hf] at h; exact .inr ⟨hf, h⟩
  · rw [if_neg hf] at h; exact .inl ⟨by simpa using hf, by simpa using h⟩

/-- Opening a context: the three errors in their order, or the three registers written
(40_context_control.md R100). -/
theorem openContext_cases {side : Side} {s t : State} (h : openContext side s = .next t) :
    ((s.opA < 0 ∨ s.opB < 0) ∧ t = s.raised .valueRangeError) ∨
      (0 ≤ s.opA ∧ 0 ≤ s.opB ∧
        (s.opA + s.opB > (s.bufBytes : Int) ∨ s.opC < 0 ∨ s.opC > 8 * s.opB) ∧
        t = s.raised .boundsError) ∨
      (0 ≤ s.opA ∧ 0 ≤ s.opB ∧ s.opA + s.opB ≤ (s.bufBytes : Int) ∧ 0 ≤ s.opC ∧
        s.opC ≤ 8 * s.opB ∧
        t = (s.setCtx side ⟨s.opA.toNat, s.opB.toNat, s.opC.toNat⟩).answered 0 []) := by
  unfold openContext at h
  split at h
  · exact .inl ⟨‹_›, by simpa using h⟩
  · rename_i h1
    split at h
    · exact .inr (.inl ⟨by omega, by omega, .inl ‹_›, by simpa using h⟩)
    · rename_i h2
      split at h
      · exact .inr (.inl ⟨by omega, by omega, .inr ‹_›, by simpa using h⟩)
      · rename_i h3
        exact .inr (.inr ⟨by omega, by omega, by omega, by omega, by omega, by simpa using h⟩)

/-- A register has a value exactly for the numbers 0 to 6 (10_state.md R26). -/
theorem register_isSome (s : State) (n : Nat) : (s.register n).isSome = decide (n ≤ 6) := by
  match n with
  | 0 | 1 | 2 | 3 | 4 | 5 | 6 => rfl
  | n + 7 => simp [State.register]

end Sys2Proof.Machine
end

