-- ==== Sys2Proof/Laws/PerInstr.lean ====
section
/-! SUPPORT. One law per command, about the command as syntax: the fields of its word. -/

namespace Sys2Proof.Laws

/-- The fields of a command's word are its opcode, zero, and its number (30_encoding.md R72). -/
def EncodeFields.Statement (i : Instr) : Prop :=
  opcField (encode i) = i.opcode.toNat ∧ rsvField (encode i) = 0 ∧ nField (encode i) = i.number

theorem encodeFields_of_word (o : BitVec 8) (n : NField) :
    opcField ((o ++ (0 : BitVec 2)) ++ n) = o.toNat ∧ rsvField ((o ++ (0 : BitVec 2)) ++ n) = 0 ∧
      nField ((o ++ (0 : BitVec 2)) ++ n) = n := by
  have h1 : ((o ++ (0 : BitVec 2)) ++ n).extractLsb' 8 8 = o := by
    refine BitVec.eq_of_getLsbD_eq fun j hj => ?_
    simp only [BitVec.getLsbD_extractLsb', BitVec.getLsbD_append, hj]
    rw [if_neg (by omega), if_neg (by omega)]
    simp [show 8 + j - 6 - 2 = j by omega]
  have h2 : ((o ++ (0 : BitVec 2)) ++ n).extractLsb' 6 2 = 0 := by
    refine BitVec.eq_of_getLsbD_eq fun j hj => ?_
    simp only [BitVec.getLsbD_extractLsb', BitVec.getLsbD_append, hj]
    rw [if_neg (by omega), if_pos (by omega)]
    simp
  have h3 : ((o ++ (0 : BitVec 2)) ++ n).extractLsb' 0 6 = n := by
    refine BitVec.eq_of_getLsbD_eq fun j hj => ?_
    simp only [BitVec.getLsbD_extractLsb', BitVec.getLsbD_append, hj, Nat.zero_add]
    simp
  exact ⟨congrArg BitVec.toNat h1, congrArg BitVec.toNat h2, h3⟩

theorem EncodeFields.getreg (n : NField) : EncodeFields.Statement (.getreg n) := encodeFields_of_word _ _
theorem EncodeFields.rdOpen : EncodeFields.Statement .rdOpen := encodeFields_of_word _ _
theorem EncodeFields.rdBitsU (n : NField) : EncodeFields.Statement (.rdBitsU n) := encodeFields_of_word _ _
theorem EncodeFields.rdBitsI (n : NField) : EncodeFields.Statement (.rdBitsI n) := encodeFields_of_word _ _
theorem EncodeFields.rdAlign : EncodeFields.Statement .rdAlign := encodeFields_of_word _ _
theorem EncodeFields.rdU8 : EncodeFields.Statement .rdU8 := encodeFields_of_word _ _
theorem EncodeFields.rdI8 : EncodeFields.Statement .rdI8 := encodeFields_of_word _ _
theorem EncodeFields.rdU16LE : EncodeFields.Statement .rdU16LE := encodeFields_of_word _ _
theorem EncodeFields.rdI16LE : EncodeFields.Statement .rdI16LE := encodeFields_of_word _ _
theorem EncodeFields.rdU16BE : EncodeFields.Statement .rdU16BE := encodeFields_of_word _ _
theorem EncodeFields.rdI16BE : EncodeFields.Statement .rdI16BE := encodeFields_of_word _ _
theorem EncodeFields.wrOpen : EncodeFields.Statement .wrOpen := encodeFields_of_word _ _
theorem EncodeFields.wrBitsU (n : NField) : EncodeFields.Statement (.wrBitsU n) := encodeFields_of_word _ _
theorem EncodeFields.wrBitsI (n : NField) : EncodeFields.Statement (.wrBitsI n) := encodeFields_of_word _ _
theorem EncodeFields.wrAlign : EncodeFields.Statement .wrAlign := encodeFields_of_word _ _
theorem EncodeFields.wrU8 : EncodeFields.Statement .wrU8 := encodeFields_of_word _ _
theorem EncodeFields.wrI8 : EncodeFields.Statement .wrI8 := encodeFields_of_word _ _
theorem EncodeFields.wrU16LE : EncodeFields.Statement .wrU16LE := encodeFields_of_word _ _
theorem EncodeFields.wrI16LE : EncodeFields.Statement .wrI16LE := encodeFields_of_word _ _
theorem EncodeFields.wrU16BE : EncodeFields.Statement .wrU16BE := encodeFields_of_word _ _
theorem EncodeFields.wrI16BE : EncodeFields.Statement .wrI16BE := encodeFields_of_word _ _
theorem EncodeFields.rleEnc : EncodeFields.Statement .rleEnc := encodeFields_of_word _ _
theorem EncodeFields.rleDec : EncodeFields.Statement .rleDec := encodeFields_of_word _ _
theorem EncodeFields.rle3Enc : EncodeFields.Statement .rle3Enc := encodeFields_of_word _ _
theorem EncodeFields.rle3Dec : EncodeFields.Statement .rle3Dec := encodeFields_of_word _ _
theorem EncodeFields.b64Enc : EncodeFields.Statement .b64Enc := encodeFields_of_word _ _
theorem EncodeFields.b64Dec : EncodeFields.Statement .b64Dec := encodeFields_of_word _ _

end Sys2Proof.Laws
end

