-- ==== Sys2Proof/Laws/Step.lean ====
section
/-! SUPPORT. What one step can do. -/

namespace Sys2Proof.Machine

/-- A packet whose word spells a command runs that command (30_encoding.md R75). -/
theorem issue_ok {p : Packet} {i : Instr} (h : decode p.cw = .ok i) (s : State) :
    issue p s = exec i (s.receive p) := by
  simp [issue, h]

/-- A packet whose word spells no command raises IllegalCommand (30_encoding.md R75). -/
theorem issue_illegal {p : Packet} {x : Illegal} (h : decode p.cw = .error x) (s : State) :
    issue p s = .next ((s.receive p).raised .illegalCommand) := by
  simp [issue, h, raise]

/-- Everything a step can do: wait, reset, refuse a word, or run a command. -/
theorem step_cases {s : State} {r : Result} (h : step s = r) :
    (s.inputs = [] ∧ r = .next s) ∨
      (∃ rest, s.inputs = .reset :: rest ∧ r = .next s.dropInput.applyReset) ∨
      (∃ p rest x, s.inputs = .command p :: rest ∧ decode p.cw = .error x ∧
        r = .next ((s.dropInput.receive p).raised .illegalCommand)) ∨
      (∃ p rest i, s.inputs = .command p :: rest ∧ decode p.cw = .ok i ∧
        r = exec i (s.dropInput.receive p)) := by
  subst h
  unfold step takeInput
  split
  · exact .inl ⟨‹_›, rfl⟩
  · exact .inr (.inl ⟨_, ‹_›, rfl⟩)
  · rename_i p rest hp
    cases hd : decode p.cw with
    | error x => exact .inr (.inr (.inl ⟨p, rest, x, hp, hd, issue_illegal hd _⟩))
    | ok i => exact .inr (.inr (.inr ⟨p, rest, i, hp, hd, issue_ok hd _⟩))

end Sys2Proof.Machine
end

