-- ==== Sys2Proof/Laws/Transaction.lean ====
section
/-! SUPPORT. What the host's side of a transaction can do: one command, a list of commands, an expansion. -/

namespace Sys2Proof.Machine

variable {α β : Type}

@[simp] theorem andThen_done (v : α) (s : State) (f : α → State → HostResult β) :
    andThen (.done v s) f = f v s := rfl

@[simp] theorem andThen_failed (e : ErrorKind) (s : State) (f : α → State → HostResult β) :
    andThen (.failed e s) f = .failed e s := rfl

@[simp] theorem andThen_notAdmitted (s : State) (f : α → State → HostResult β) :
    andThen (.notAdmitted s) f = .notAdmitted s := rfl

@[simp] theorem andThen_stopped (r : Result) (f : α → State → HostResult β) :
    andThen (.stopped r) f = .stopped r := rfl

/-- Two activities are done when the first is and the second is after it. -/
theorem andThen_eq_done {x : HostResult α} {f : α → State → HostResult β} {v : β} {t : State} :
    andThen x f = .done v t ↔ ∃ a s, x = .done a s ∧ f a s = .done v t := by
  cases x <;> simp

/-- Three activities group either way. -/
theorem andThen_assoc {γ : Type} (x : HostResult α) (f : α → State → HostResult β)
    (g : β → State → HostResult γ) :
    andThen (andThen x f) g = andThen x fun v s => andThen (f v s) g := by
  cases x <;> rfl

/-- The host reads the last response: V, or its error (45_codec_macros.md R150). -/
theorem readResponse_of_append {t : State} {rs : List Response} {r : Response}
    (h : t.responses = rs ++ [r]) :
    readResponse t = match errorOfCode r.st with
      | none => .done r.v.toInt t
      | some e => .failed e t := by
  cases hr : errorOfCode r.st <;> simp [readResponse, h, hr]

/-- A command that answers OK gives its result. -/
theorem send_of_answered {p : Packet} {s t : State} {v : Word} {out : List Byte}
    (h : issue p s = .next (t.answered v out)) : send p s = .done v.toInt (t.answered v out) := by
  rw [send, h]
  exact readResponse_of_append (r := ⟨0, v, out⟩) rfl

/-- A command that raises an error gives the error. -/
theorem send_of_raised {p : Packet} {s t : State} {e : ErrorKind}
    (h : issue p s = .next (t.raised e)) : send p s = .failed e (t.raised e) := by
  rw [send, h]
  refine (readResponse_of_append (r := ⟨e.code, 0, []⟩) rfl).trans ?_
  cases e <;> rfl

/-- Commands in order: the first part, and then the rest after it (45_codec_macros.md R150). -/
theorem sendAll_append (ps qs : List Packet) (s : State) :
    sendAll (ps ++ qs) s = andThen (sendAll ps s) fun _ t => sendAll qs t := by
  induction ps generalizing s with
  | nil => rfl
  | cons p ps ih =>
    rw [List.cons_append, sendAll, sendAll, andThen_assoc]
    exact congrArg (andThen (send p s)) (funext fun _ => funext fun t => ih t)

/-- One expansion after another runs as the first and then the second (45_codec_macros.md R161). -/
theorem runScript_followedBy (x y : Script) (s : State) :
    runScript (followedBy x y) s = andThen (runScript x s) fun _ t => runScript y t := by
  obtain ⟨ps, stop⟩ := x
  cases stop with
  | none =>
    simp only [followedBy, runScript, sendAll_append, andThen_assoc]
    rfl
  | some h => cases h <;> simp only [followedBy, runScript, andThen_assoc] <;> rfl

end Sys2Proof.Machine
end

