-- ==== Sys2Proof/Tests/Slice0.lean ====
section
/-! SUPPORT. Tests: words written out from the opcode table of 30_encoding.md R74, vectors of 95_test_vectors.md, one step each, and for every statement with hypotheses a state that meets them. -/

namespace Sys2Proof.Tests

open Sys2Proof Sys2Proof.Machine

/-! ### Well-formedness and decoding -/

theorem test_getreg_of_reserved_register_is_ill_formed : (Instr.getreg 7).wellFormed = false := by decide
theorem test_getreg_of_err_is_well_formed : (Instr.getreg 6).wellFormed = true := by decide

theorem test_decode_context_and_control :
    decode 0b0000000100000110 = .ok (.getreg 6) ∧ decode 0b0001000000000000 = .ok .rdOpen ∧
      decode 0b0010000000000000 = .ok .wrOpen := by decide

theorem test_decode_bit_reads :
    decode 0b0001000100100000 = .ok (.rdBitsU 32) ∧ decode 0b0001001000000001 = .ok (.rdBitsI 1) ∧
      decode 0b0001001100000000 = .ok .rdAlign := by decide

theorem test_decode_bit_writes :
    decode 0b0010000100111111 = .ok (.wrBitsU 63) ∧ decode 0b0010001000010000 = .ok (.wrBitsI 16) ∧
      decode 0b0010001100000000 = .ok .wrAlign := by decide

theorem test_decode_aligned_reads :
    decode 0b0001010000000000 = .ok .rdU8 ∧ decode 0b0001010100000000 = .ok .rdI8 ∧
      decode 0b0001011000000000 = .ok .rdU16LE ∧ decode 0b0001011100000000 = .ok .rdI16LE ∧
      decode 0b0001100000000000 = .ok .rdU16BE ∧ decode 0b0001100100000000 = .ok .rdI16BE := by decide

theorem test_decode_aligned_writes :
    decode 0b0010010000000000 = .ok .wrU8 ∧ decode 0b0010010100000000 = .ok .wrI8 ∧
      decode 0b0010011000000000 = .ok .wrU16LE ∧ decode 0b0010011100000000 = .ok .wrI16LE ∧
      decode 0b0010100000000000 = .ok .wrU16BE ∧ decode 0b0010100100000000 = .ok .wrI16BE := by decide

theorem test_decode_streams :
    decode 0b0011000000000000 = .ok .rleEnc ∧ decode 0b0011000100000000 = .ok .rleDec ∧
      decode 0b0011001000000000 = .ok .rle3Enc ∧ decode 0b0011001100000000 = .ok .rle3Dec ∧
      decode 0b0011010000000000 = .ok .b64Enc ∧ decode 0b0011010100000000 = .ok .b64Dec := by decide

/-- The words X3, X7, X9 and X11 of 95_test_vectors.md, one for each test of R75. -/
theorem test_decode_refuses_by_name :
    decode 0x0200 = .error .unknownOpcode ∧ decode 0x2140 = .error .reservedBits ∧
      decode 0x2301 = .error .nonzeroN ∧ decode 0x0107 = .error .reservedRegister := by decide

theorem test_decodeTableWord : decodeTableWord 16 0x2103 = some (.wrBitsU 3) := by decide

/-- A command word runs as the first command after reset. -/
theorem test_first_command_after_reset :
    step (State.reset.withFetchWord 16 0x0106) =
      .next { State.reset with packet := Packet.ofWord 0x0106, responses := [⟨0, 0, []⟩] } := by rfl

/-! ### One command on a small unit -/

/-- A packet with an operand A and an input stream. -/
def packetA (cw : CmdWord) (a : Int) (inp : List Nat := []) : Packet :=
  ⟨cw, BitVec.ofInt 64 a, 0, 0, inp.map (BitVec.ofNat 8)⟩

/-- A packet with three operands. -/
def packetABC (cw : CmdWord) (a b c : Int) : Packet :=
  ⟨cw, BitVec.ofInt 64 a, BitVec.ofInt 64 b, BitVec.ofInt 64 c, []⟩

/-- A BUF loaded with bytes from address 0. -/
def loaded (bytes : List Nat) : Memory := (bytes.zipIdx).map fun x => (x.2, BitVec.ofNat 8 x.1)

/-- A unit over a loaded BUF with both contexts set and a packet received. -/
def running (bytes : List Nat) (rd wr : Context) (p : Packet) : State :=
  { State.resetOver bytes.length (loaded bytes) with rd := rd, wr := wr, packet := p }

/-- The same unit with the packet still waiting. -/
def waiting (bytes : List Nat) (rd wr : Context) (p : Packet) : State :=
  { running bytes rd wr Packet.idle with inputs := [.command p] }

/-- The next state, if there is one. -/
def nextOf (r : Result) : Option State :=
  match r with
  | .next t => some t
  | .fault _ => none
  | .refused _ => none

/-- The last response as (ST, V, OUT). -/
def answer (r : Result) : Option (Nat × Int × List Nat) :=
  (nextOf r).bind fun t =>
    t.responses.getLast?.map fun x => (x.st.toNat, x.v.toInt, x.out.map (·.toNat))

/-- The last status alone. -/
def status (r : Result) : Option Nat := (answer r).map (·.1)

/-- The bytes of BUF and the writer's cursor. -/
def written (r : Result) : Option (List Nat × Nat) :=
  (nextOf r).map fun t => (t.buf.map (·.2.toNat), t.wr.cur)

/-- The last result V and the reader's cursor. -/
def fetched (r : Result) : Option (Int × Nat) :=
  (nextOf r).bind fun t => t.responses.getLast?.map fun x => (x.v.toInt, t.rd.cur)

/-- A step of a stream command: the answer. -/
def streamStep (cw : CmdWord) (a : Int) (inp : List Nat) : Option (Nat × Int × List Nat) :=
  answer (step (waiting [] ⟨0, 0, 0⟩ ⟨0, 0, 0⟩ (packetA cw a inp)))

/-- A step of a writer command: BUF and the cursor. -/
def writeStep (bytes : List Nat) (wr : Context) (cw : CmdWord) (a : Int) : Option (List Nat × Nat) :=
  written (step (waiting bytes ⟨0, 0, 0⟩ wr (packetA cw a)))

/-- A step of a reader command: V and the cursor. -/
def readStep (bytes : List Nat) (rd : Context) (cw : CmdWord) : Option (Int × Nat) :=
  fetched (step (waiting bytes rd ⟨0, 0, 0⟩ (packetA cw 0)))

/-- The status of a step over both contexts at one place. -/
def statusStep (bytes : List Nat) (c : Context) (p : Packet) : Option Nat :=
  status (step (waiting bytes c c p))

/-- BUF of the vectors AR. -/
def arBytes : List Nat :=
  [0x05, 0xab, 0xfe, 0x34, 0x12, 0x12, 0x34, 0xfe, 0xff, 0xff, 0xfe, 0x00, 0x80, 0x80, 0x00, 0x7f]

/-- BUF of the vectors RB. -/
def rbBytes : List Nat := [0x8d, 0x0d, 0xff, 0xff, 0xff, 0xff, 0x00, 0x80]

/-! Context and control: O1, O6, O9, O11, O16, O18. -/

theorem test_O1 : (nextOf (step (waiting rbBytes ⟨0, 0, 0⟩ ⟨0, 0, 0⟩ (packetABC 0x1000 4 3 3)))).map
    (·.rd) = some ⟨4, 3, 3⟩ := by decide
theorem test_O9 : (nextOf (step (waiting rbBytes ⟨0, 0, 0⟩ ⟨0, 0, 0⟩ (packetABC 0x2000 4 4 0)))).map
    (·.wr) = some ⟨4, 4, 0⟩ := by decide
theorem test_O16 : readStep rbBytes ⟨1, 2, 16⟩ 0x0102 = some (16, 16) := by decide
theorem test_O18 : answer (exec (.getreg 6) { running [] ⟨0, 0, 0⟩ ⟨0, 0, 0⟩ Packet.idle with err := 1 })
    = some (0, 1, []) := by decide

/-! Bit-field writes: WU8, WU19, WI9, WI11, WA3. -/

theorem test_WU8 : writeStep [255, 255, 255, 255, 255, 255, 255, 255] ⟨1, 5, 4⟩ 0x2120 305419896 =
    some ([0xff, 0x8f, 0x67, 0x45, 0x23, 0xf1, 0xff, 0xff], 36) := by decide
theorem test_WU19 : writeStep [255, 255, 255, 255, 0xaf, 2, 0, 0] ⟨0, 8, 42⟩ 0x210D 6844 =
    some ([255, 255, 255, 255, 0xaf, 0xf2, 0x6a, 0], 55) := by decide
theorem test_WI9 : writeStep [0xdd, 1, 0, 0, 0, 0, 0, 0] ⟨0, 8, 10⟩ 0x2204 (-8) =
    some ([0xdd, 0x21, 0, 0, 0, 0, 0, 0], 14) := by decide
theorem test_WI11 : writeStep [0xdd, 0x21, 0, 0, 0, 0, 0, 0] ⟨0, 8, 16⟩ 0x2220 (-2147483648) =
    some ([0xdd, 0x21, 0, 0, 0, 0x80, 0, 0], 48) := by decide
theorem test_WA3 : writeStep [0xf8, 255, 255, 255] ⟨0, 2, 3⟩ 0x2300 0 =
    some ([0xf8, 255, 255, 255], 8) := by decide

/-! Bit-field reads: RB7, RB21, RB3, RB16, RB6. -/

theorem test_RB7 : readStep rbBytes ⟨0, 8, 16⟩ 0x1120 = some (4294967295, 48) := by decide
theorem test_RB21 : readStep rbBytes ⟨0, 8, 4⟩ 0x110C = some (216, 16) := by decide
theorem test_RB3 : readStep rbBytes ⟨0, 8, 8⟩ 0x1204 = some (-3, 12) := by decide
theorem test_RB16 : readStep rbBytes ⟨0, 8, 32⟩ 0x1220 = some (-2147418113, 64) := by decide
theorem test_RB6 : readStep rbBytes ⟨0, 8, 12⟩ 0x1300 = some (0, 16) := by decide

/-! Aligned writes: AW1 to AW6 (bytes 0 to 3 or a shorter BUF), AW15. -/

theorem test_AW1 : writeStep [0xee, 0xee] ⟨0, 2, 3⟩ 0x2400 171 = some ([0xee, 0xab], 16) := by decide
theorem test_AW2 : writeStep [0xee, 0xee] ⟨0, 2, 8⟩ 0x2500 (-2) = some ([0xee, 0xfe], 16) := by decide
theorem test_AW3 : writeStep [0xee, 0xee, 0xee] ⟨0, 3, 8⟩ 0x2600 0x1234 =
    some ([0xee, 0x34, 0x12], 24) := by decide
theorem test_AW4 : writeStep [0xee, 0xee, 0xee] ⟨0, 3, 8⟩ 0x2800 0x1234 =
    some ([0xee, 0x12, 0x34], 24) := by decide
theorem test_AW5 : writeStep [0xee, 0xee, 0xee] ⟨0, 3, 8⟩ 0x2700 (-2) =
    some ([0xee, 0xfe, 0xff], 24) := by decide
theorem test_AW6 : writeStep [0xee, 0xee, 0xee] ⟨0, 3, 8⟩ 0x2900 (-2) =
    some ([0xee, 0xff, 0xfe], 24) := by decide
theorem test_AW15_keeps_alignment : writeStep [255, 1, 0, 0] ⟨0, 3, 9⟩ 0x2600 1 =
    some ([255, 1, 0, 0], 16) := by decide

/-! Aligned reads: AR1 to AR6, AR10. -/

theorem test_AR1 : readStep arBytes ⟨0, 16, 3⟩ 0x1400 = some (171, 16) := by decide
theorem test_AR2 : readStep arBytes ⟨0, 16, 16⟩ 0x1500 = some (-2, 24) := by decide
theorem test_AR3 : readStep arBytes ⟨0, 16, 24⟩ 0x1600 = some (4660, 40) := by decide
theorem test_AR4 : readStep arBytes ⟨0, 16, 40⟩ 0x1800 = some (4660, 56) := by decide
theorem test_AR5 : readStep arBytes ⟨0, 16, 56⟩ 0x1700 = some (-2, 72) := by decide
theorem test_AR6 : readStep arBytes ⟨0, 16, 72⟩ 0x1900 = some (-2, 88) := by decide
theorem test_AR10_keeps_alignment : readStep arBytes ⟨0, 16, 121⟩ 0x1600 = some (0, 128) := by decide

/-! Streams: L7, L12, L16, T3, T14, T20, B3, B6, B14, B19. -/

theorem test_L7 : streamStep 0x3000 0 [1, 1, 2, 3, 3, 3] = some (0, 0, [2, 1, 1, 2, 3, 3]) := by decide
theorem test_L12 : streamStep 0x3100 0 [2, 1, 1, 2, 3, 3] = some (0, 0, [1, 1, 2, 3, 3, 3]) := by decide
theorem test_L16 : streamStep 0x3100 0 [3, 9, 0, 9] = some (4, 0, []) := by decide
theorem test_T3 : streamStep 0x3200 0 [5, 0, 0, 5] = some (0, 0, [2, 5, 0, 0]) := by decide
theorem test_T14 : streamStep 0x3300 5 [2, 5, 0, 0] = some (0, 0, [5, 0, 0, 5, 0]) := by decide
theorem test_T20 : streamStep 0x3300 2 [1, 1, 2, 3] = some (4, 0, []) := by decide
theorem test_B3 : streamStep 0x3400 0 [255, 255] = some (0, 0, [0x2f, 0x2f, 0x38, 0x3d]) := by decide
theorem test_B6 : streamStep 0x3400 0 [3, 9, 8, 7] =
    some (0, 0, [0x41, 0x77, 0x6b, 0x49, 0x42, 0x77, 0x3d, 0x3d]) := by decide
theorem test_B14 : streamStep 0x3500 0 [0x2f, 0x2f, 0x38, 0x3d] = some (0, 0, [255, 255]) := by decide
theorem test_B19 : streamStep 0x3500 0 [0x41, 0x42, 0x3d, 0x3d] = some (4, 0, []) := by decide

/-- RUN_MAX splits a run (46_rle.md R181; vectors L5 and T5 in short). -/
theorem test_run_max : runsFrom (7 : Byte) 254 [7, 7, 7] = [(255, 7), (2, 7)] := by decide

/-! Errors: X1, X15, P4 step 3, and reset after an error. -/

theorem test_X1 : statusStep [0, 0, 0, 0] ⟨0, 4, 0⟩ (packetA 0x0000 1099511627776) = some 5 := by decide
theorem test_X15 : statusStep [0, 0, 0, 0] ⟨0, 4, 0⟩ (packetA 0x2128 1099511627776) = some 2 := by decide
theorem test_err_keeps_the_first_code :
    (nextOf (exec .rdU8 { running [] ⟨0, 0, 0⟩ ⟨0, 0, 0⟩ Packet.idle with err := 2 })).map (·.err) =
      some 2 := by decide
theorem test_reset_clears_err_and_keeps_buf :
    (nextOf (step { running [0x12] ⟨0, 1, 8⟩ ⟨0, 1, 8⟩ Packet.idle with
      err := 1, inputs := [.reset] })).map (fun t => (t.err, t.rd, t.buf)) =
      some (0, ⟨0, 0, 0⟩, [(0, 0x12)]) := by decide

/-! ### Memory -/

theorem test_memory_stays_sorted :
    Memory.set (Memory.set (Memory.set [] 5 1) 2 7) 5 9 = [(2, 7), (5, 9)] := by decide

theorem test_unlisted_byte_is_the_open_value : Memory.byteAt [(2, 7)] 3 = Config.initialByte 3 := rfl

/-! ### Codecs and assembler: S2, P2, M5, M7, M8, M10, M11, M13, R77 -/

/-- The struct of S2. -/
def s2 : Codec := .struct "s" [.field "a" (.u 3), .field "b" (.u 5)]

/-- The codec of S4. -/
def s4 : Codec := .varArray "xs" .u8 (.u 5) 8 true

/-- BUF after an encode into a zero BUF of 4 bytes, from a cursor. -/
def encoded (aligns : Bool) (c : Codec) (v : Value) (cur : Nat) : Option (List Nat × Nat) :=
  match encodeValue aligns c v (running [0, 0, 0, 0] ⟨0, 0, 0⟩ ⟨0, 4, cur⟩ Packet.idle) with
  | .done _ t => written (.next t)
  | .failed _ _ => none
  | .notAdmitted _ => none
  | .stopped _ => none

theorem test_S2_encode :
    encoded Config.codecAligns s2 (.record [("a", .int 5), ("b", .int 17)]) 0 = some ([0x8d, 0, 0, 0], 8) := by
  decide

theorem test_S2_decode :
    (match decodeValue false s2 (running [0x8d] ⟨0, 1, 0⟩ ⟨0, 0, 0⟩ Packet.idle) with
      | .done v _ => some v
      | _ => none) = some (.record [("a", .int 5), ("b", .int 17)]) := rfl

theorem test_P2_encode :
    encoded false s4 (.list [.int 9, .int 8, .int 7]) 0 = some ([3, 9, 8, 7], 32) := by decide

theorem test_M5_pad : (scriptPad 40).packets = [packetA 0x2120 0, packetA 0x2108 0] := by decide

theorem test_M8_length_checked_before_alignment :
    (match decodeValue false s4 (running [9, 1, 2, 3] ⟨0, 4, 0⟩ ⟨0, 0, 0⟩ Packet.idle) with
      | .failed e t => some (e, t.rd.cur, t.err)
      | _ => none) = some (.structureError, 5, 0) := by decide

theorem test_M10 : (Codec.enc false .i16be (.int (-300))).packets =
    [packetA 0x2208 (-2), packetA 0x2108 212] := by decide

theorem test_M11 : encoded true .i16be (.int (-300)) 3 = some ([0, 0xfe, 0xd4, 0], 24) := by decide

theorem test_M13 : encoded false (.array "xs" (.u 4) 3) (.list [.int 1, .int 2, .int 3]) 0 =
    some ([0x21, 3, 0, 0], 12) := by decide

/-- R161: an anonymous struct without fields takes no value. -/
theorem test_anonymous_struct_without_fields :
    encoded false (.struct "s" [.field "a" (.u 3), .struct "gap" [.padBits 2, .alignToByte], .field "b" .u8])
      (.record [("a", .int 5), ("b", .int 17)]) 0 = some ([5, 17, 0, 0], 16) := by decide

/-- R162: byteSizeCeil is defined for fixed-size structs only. -/
theorem test_byteSizeCeil :
    s2.byteSizeCeil = some 1 ∧ (Codec.u 5).byteSizeCeil = none ∧
      (Codec.struct "s" [.alignToByte]).byteSizeCeil = none := by decide

/-- R162: a field after a Variable item has no entry. -/
theorem test_layout_stops_after_variable_item :
    (Codec.struct "s" [.field "a" (.u 3), .field "b" .alignToByte, .field "c" .u8]).layout =
      [⟨"a", 0, some 3⟩, ⟨"b", 3, none⟩] := by decide

theorem test_M1_layout : s2.layout = [⟨"a", 0, some 3⟩, ⟨"b", 3, some 5⟩] := by decide

theorem test_assemble_open : assemble "WR.OPEN 0, 4".toList = some ⟨⟨0x2000, 0, 4, 0, []⟩, .asItStands⟩ := by decide

theorem test_assemble_stream :
    assemble "RLE3.DEC [2, 0x05, 0, 0], len=5  # T14".toList =
      some ⟨⟨0x3300, 5, 0, 0, [2, 5, 0, 0]⟩, .asItStands⟩ := by
  decide

/-- R105: after 19 bits WR.TELL gives 19 and WR.LEN gives 3 bytes. -/
theorem test_tell_and_len :
    ["WR.TELL", "WR.LEN"].map (fun line =>
      match runLine line.toList (running [0, 0, 0, 0] ⟨0, 4, 7⟩ ⟨0, 4, 19⟩ Packet.idle) with
      | some (.done v _) => some v
      | _ => none) = [some 19, some 3] := by decide

theorem test_rd_tell : assemble "RD.TELL".toList = some ⟨Packet.ofWord 0x0102, .asItStands⟩ := by decide

/-! ### States and operands that meet the hypotheses of the statements -/

/-- A unit with both contexts at one place of a BUF of four bytes. -/
def unitAt (c : Context) (p : Packet) : State := running [0x8d, 0x0d, 0xff, 0x80] c c p

theorem witness_Inv_at_boundaries :
    (unitAt ⟨0, 4, 0⟩ Packet.idle).Inv ∧ (unitAt ⟨4, 0, 0⟩ Packet.idle).Inv ∧
      (unitAt ⟨1, 3, 24⟩ (packetA 0x2120 4294967296)).Inv ∧
      State.Inv { unitAt ⟨0, 4, 31⟩ Packet.idle with err := 5 } := by
  unfold State.Inv Context.legal; decide

theorem witness_DecodeEncodeRoundTrip :
    (Instr.getreg 6).wellFormed = true ∧ (Instr.wrBitsI 63).wellFormed = true ∧
      Instr.b64Dec.wellFormed = true := by decide

theorem witness_EncodeDecodeRoundTrip :
    decode 0x0106 = .ok (.getreg 6) ∧ decode 0x223F = .ok (.wrBitsI 63) := by decide

theorem witness_DecodableWordsSelectOneTableRow :
    ∃ r ∈ opcodeTable, (0x213F : CmdWord) &&& r.mask = r.pattern := by decide

/-- Each clause of the reserved words at the ends of its ranges. -/
theorem witness_ReservedWordsRaiseIllegalCommand :
    (∀ opc ∈ [0x00, 0x02, 0x0F, 0x1A, 0x1F, 0x2A, 0x2F, 0x36, 0xFF],
      status (issue (packetA (BitVec.ofNat 16 (256 * opc)) 0) (unitAt ⟨0, 4, 0⟩ Packet.idle)) = some 5) ∧
    (∀ w ∈ [0x0000, 0xFFFF, 0x2140, 0x2183, 0x2301, 0x103F, 0x0107, 0x013F],
      status (issue (packetA (BitVec.ofNat 16 w) 0) (unitAt ⟨0, 4, 0⟩ Packet.idle)) = some 5) ∧
    (∀ w ∈ [0x1121, 0x113F, 0x1221, 0x123F, 0x2121, 0x213F, 0x2221, 0x223F],
      status (issue (packetA (BitVec.ofNat 16 w) 0) (unitAt ⟨0, 4, 0⟩ Packet.idle)) = some 2) ∧
    (∀ w ∈ [0x1120, 0x1201, 0x2100, 0x2220, 0x0106],
      status (issue (packetA (BitVec.ofNat 16 w) 0) (unitAt ⟨0, 4, 0⟩ Packet.idle)) = some 0) := by decide

theorem witness_StepRunsDecodedCommand :
    (waiting [0] ⟨0, 1, 0⟩ ⟨0, 1, 0⟩ (packetA 0x2400 7)).inputs = .command (packetA 0x2400 7) :: [] ∧
      decode (packetA 0x2400 7).cw = .ok .wrU8 := by decide

theorem witness_StepAnswersIllegalCommand :
    (waiting [0] ⟨0, 1, 0⟩ ⟨0, 1, 0⟩ (packetA 0x0107 7)).inputs = .command (packetA 0x0107 7) :: [] ∧
      decode (packetA 0x0107 7).cw = .error .reservedRegister := by decide

theorem witness_ResetInputClearsRegistersOnly :
    { unitAt ⟨0, 4, 31⟩ Packet.idle with err := 5, inputs := [.reset] }.inputs = .reset :: [] := rfl

theorem witness_UnitWaitsWithoutInput : State.reset.inputs = [] := rfl

/-- Bit counts and operands at the ends of the ranges that the statement about reset names. -/
theorem witness_ResetRegistersAndEmptyRegions :
    (1 ≤ (1 : NField).toNat ∧ (32 : NField).toNat ≤ 32) ∧
      (0 ≤ (packetA 0 4294967295).a.toInt ∧ (packetA 0 4294967295).a.toInt < 2 ^ (32 : NField).toNat) ∧
      (-(2 ^ ((32 : NField).toNat - 1)) ≤ (packetA 0 (-2147483648)).a.toInt) ∧
      (0 ≤ (packetA 0 127).a.toInt ∧ (packetA 0 127).a.toInt ≤ 127) ∧
      isAlignedWrite .wrI16BE = true ∧ isAlignedRead .rdU8 = true := by decide

theorem witness_StepKeepsInvariant :
    (waiting [0, 0] ⟨0, 2, 3⟩ ⟨0, 2, 3⟩ (packetA 0x2400 7)).Inv ∧
      (nextOf (step (waiting [0, 0] ⟨0, 2, 3⟩ ⟨0, 2, 3⟩ (packetA 0x2400 7)))).isSome := by
  unfold State.Inv Context.legal; decide

/-- A command that fails: for FailedCommandEffect, CommandGivesOneResponse, UnitNeverAnswersUnusedCodes
and ErrGatesNothing. -/
theorem witness_FailedCommandEffect :
    ∃ t, exec .rdU16LE (unitAt ⟨0, 4, 25⟩ Packet.idle) = .next t ∧
      t.responses = (unitAt ⟨0, 4, 25⟩ Packet.idle).responses ++ [⟨1, 0, []⟩] ∧ (1 : Code) ≠ 0 ∧
      Instr.rdU16LE ≠ .getreg 6 := ⟨_, rfl, rfl, by decide, by decide⟩

/-- A command that succeeds while ERR is set. -/
theorem witness_SuccessLeavesErr :
    ∃ t, exec .rdU8 { unitAt ⟨0, 4, 0⟩ Packet.idle with err := 4 } = .next t ∧
      t.responses = [] ++ [⟨0, 0x8d, []⟩] := ⟨_, rfl, rfl⟩

theorem witness_UnusedResultsAreZero :
    ∃ t, exec .wrAlign (unitAt ⟨0, 4, 1⟩ Packet.idle) = .next t ∧ t.responses = [] ++ [⟨0, 0, []⟩] ∧
      answersValue .wrAlign = false ∧ isStream .wrAlign = false := ⟨_, rfl, rfl, rfl, rfl⟩

/-- A run of two commands, one of which fails. -/
theorem witness_RunErrorFreeIffErrZero :
    let s := { unitAt ⟨0, 4, 25⟩ Packet.idle with
      inputs := [.command (packetA 0x1400 0), .command (packetA 0x0106 0)] }
    s.commandsOnly ∧ s.err = 0 ∧ ∃ t, core.run 2 s = .next t ∧ t.err = 1 :=
  ⟨by unfold State.commandsOnly; decide, rfl, _, rfl, rfl⟩

theorem witness_ContextsAreIndependent :
    isReader .rdU8 = true ∧ isWriter .wrU8 = true ∧
      (nextOf (exec .rdU8 (unitAt ⟨0, 4, 0⟩ Packet.idle))).isSome ∧
      (nextOf (exec .wrU8 (unitAt ⟨0, 4, 0⟩ Packet.idle))).isSome := by decide

theorem witness_StreamCommandsTouchNoState :
    isStream .rle3Dec = true ∧
      ∃ t, exec .rle3Dec (unitAt ⟨0, 4, 0⟩ (packetA 0x3300 3 [1, 1, 2, 3])) = .next t ∧
        t.responses = [] ++ [⟨0, 0, [1, 2, 3]⟩] := ⟨rfl, _, rfl, rfl⟩

/-- Addresses beside the writer's region, on both sides. -/
theorem witness_WritesStayInRegion :
    (nextOf (exec (.wrBitsU 16) (unitAt ⟨1, 2, 0⟩ (packetA 0x2110 0)))).map
      (fun t => (t.bufByte 0, t.bufByte 1, t.bufByte 2, t.bufByte 3)) = some (0x8d, 0, 0, 0x80) := by decide

/-- Another BUF that agrees on the region of bytes 1 and 2 only. -/
theorem witness_ReadsStayInRegion :
    isReader (.rdBitsU 16) = true ∧
      (nextOf (exec (.rdBitsU 16) (unitAt ⟨1, 2, 0⟩ Packet.idle))).isSome ∧
      ∀ a, 1 ≤ a → a < 1 + 2 →
        Memory.byteAt [(0, 1), (1, 0x0d), (2, 0xff), (3, 2)] a = (unitAt ⟨1, 2, 0⟩ Packet.idle).bufByte a := by
  refine ⟨rfl, rfl, fun a h1 h2 => ?_⟩
  obtain rfl | rfl : a = 1 ∨ a = 2 := by omega
  · rfl
  · rfl

theorem witness_CursorsOnlyAdvance :
    Instr.rdAlign ≠ .rdOpen ∧ Instr.rdAlign ≠ .wrOpen ∧
      (nextOf (exec .rdAlign (unitAt ⟨0, 4, 31⟩ Packet.idle))).isSome := by decide

/-- Each branch of OPEN at the ends of its ranges, over a BUF of four bytes. -/
theorem witness_RdOpenFollowsRule :
    [(-1, 4, 0), (0, -1, 0), (0, 5, 0), (4, 1, 0), (0, 2, -1), (0, 2, 17), (0, 2, 16), (4, 0, 0)].map
      (fun x : Int × Int × Int => status (exec .rdOpen (unitAt ⟨0, 0, 0⟩ (packetABC 0x1000 x.1 x.2.1 x.2.2)))) =
      [some 2, some 2, some 1, some 1, some 1, some 1, some 0, some 0] := by decide

theorem witness_WrOpenFollowsRule :
    [(-1, 4, 0), (0, -1, 0), (0, 5, 0), (4, 1, 0), (0, 2, -1), (0, 2, 17), (0, 2, 16), (4, 0, 0)].map
      (fun x : Int × Int × Int => status (exec .wrOpen (unitAt ⟨0, 0, 0⟩ (packetABC 0x2000 x.1 x.2.1 x.2.2)))) =
      [some 2, some 2, some 1, some 1, some 1, some 1, some 0, some 0] := by decide

/-- Register numbers at the boundary, in a state of the invariant (`witness_Inv_at_boundaries`). -/
theorem witness_GetregFollowsRule :
    (6 : NField).toNat ≤ 6 ∧ ¬ (7 : NField).toNat ≤ 6 ∧
      (0x0107 : CmdWord) = 0x0100 + (7 : NField).zeroExtend 16 := by decide

/-- Each branch of WR.BITSU: the count, the value from both sides, the bounds, the last bit of room. -/
theorem witness_WrBitsUFollowsRule :
    [status (exec (.wrBitsU 33) (unitAt ⟨0, 4, 0⟩ (packetA 0 0))),
     status (exec (.wrBitsU 32) (unitAt ⟨0, 4, 0⟩ (packetA 0 (-1)))),
     status (exec (.wrBitsU 32) (unitAt ⟨0, 4, 0⟩ (packetA 0 4294967296))),
     status (exec (.wrBitsU 32) (unitAt ⟨0, 4, 1⟩ (packetA 0 0))),
     status (exec (.wrBitsU 32) (unitAt ⟨0, 4, 0⟩ (packetA 0 4294967295))),
     status (exec (.wrBitsU 0) (unitAt ⟨0, 4, 32⟩ (packetA 0 0)))] =
      [some 2, some 2, some 2, some 1, some 0, some 0] := by decide

theorem witness_WrBitsIFollowsRule :
    [status (exec (.wrBitsI 0) (unitAt ⟨0, 4, 0⟩ (packetA 0 0))),
     status (exec (.wrBitsI 33) (unitAt ⟨0, 4, 0⟩ (packetA 0 0))),
     status (exec (.wrBitsI 32) (unitAt ⟨0, 4, 0⟩ (packetA 0 (-2147483649)))),
     status (exec (.wrBitsI 32) (unitAt ⟨0, 4, 0⟩ (packetA 0 2147483648))),
     status (exec (.wrBitsI 32) (unitAt ⟨0, 4, 1⟩ (packetA 0 0))),
     status (exec (.wrBitsI 32) (unitAt ⟨0, 4, 0⟩ (packetA 0 (-2147483648)))),
     status (exec (.wrBitsI 1) (unitAt ⟨0, 4, 31⟩ (packetA 0 (-1))))] =
      [some 2, some 2, some 2, some 2, some 1, some 0, some 0] := by decide

theorem witness_RdBitsUFollowsRule :
    [status (exec (.rdBitsU 33) (unitAt ⟨0, 4, 0⟩ Packet.idle)),
     status (exec (.rdBitsU 32) (unitAt ⟨0, 4, 1⟩ Packet.idle)),
     status (exec (.rdBitsU 32) (unitAt ⟨0, 4, 0⟩ Packet.idle)),
     status (exec (.rdBitsU 0) (unitAt ⟨0, 4, 32⟩ Packet.idle))] =
      [some 2, some 1, some 0, some 0] := by decide

theorem witness_RdBitsIFollowsRule :
    [status (exec (.rdBitsI 0) (unitAt ⟨0, 4, 0⟩ Packet.idle)),
     status (exec (.rdBitsI 33) (unitAt ⟨0, 4, 0⟩ Packet.idle)),
     status (exec (.rdBitsI 32) (unitAt ⟨0, 4, 1⟩ Packet.idle)),
     status (exec (.rdBitsI 32) (unitAt ⟨0, 4, 0⟩ Packet.idle))] =
      [some 2, some 2, some 1, some 0] := by decide

/-- A legal cursor at the end of its region, for the clause of AlignFollowsRule. -/
theorem witness_AlignFollowsRule :
    (unitAt ⟨0, 4, 32⟩ Packet.idle).wr.cur ≤ 8 * (unitAt ⟨0, 4, 32⟩ Packet.idle).wr.size := by decide

theorem witness_PutBitsThenGetBits :
    (8 ≤ 8) ∧ (32 ≤ 32) ∧ 4294967295 < 2 ^ 32 ∧ 8 * 0 + 0 + 32 ≤ 8 * 4 ∧
      (putBits 4 [] 0 0 32 4294967295).toOption.isSome := by decide

/-- Writes that succeed with both contexts at one place, at the end of the region. -/
theorem witness_WriteThenReadReturnsValue :
    State.Inv (unitAt ⟨0, 4, 0⟩ (packetA 0 4294967295)) ∧
      (∃ t, exec (.wrBitsU 32) (unitAt ⟨0, 4, 0⟩ (packetA 0 4294967295)) = .next t ∧
        t.responses = [] ++ [⟨0, 0, []⟩]) ∧
      1 ≤ (32 : NField).toNat ∧
      ∃ t, exec (.wrBitsI 1) (unitAt ⟨0, 4, 31⟩ (packetA 0 (-1))) = .next t ∧
        t.responses = [] ++ [⟨0, 0, []⟩] :=
  ⟨by unfold State.Inv Context.legal; decide, ⟨_, rfl, rfl⟩, by decide, _, rfl, rfl⟩

/-- Each branch of the aligned byte writes: the value from both sides, the bounds, the last byte. -/
theorem witness_AlignedByteWritesFollowRule :
    [status (exec .wrU8 (unitAt ⟨0, 4, 0⟩ (packetA 0 (-1)))),
     status (exec .wrU8 (unitAt ⟨0, 4, 0⟩ (packetA 0 256))),
     status (exec .wrU8 (unitAt ⟨0, 4, 25⟩ (packetA 0 255))),
     status (exec .wrU8 (unitAt ⟨0, 4, 24⟩ (packetA 0 255))),
     status (exec .wrI8 (unitAt ⟨0, 4, 0⟩ (packetA 0 (-129)))),
     status (exec .wrI8 (unitAt ⟨0, 4, 0⟩ (packetA 0 128))),
     status (exec .wrI8 (unitAt ⟨0, 4, 25⟩ (packetA 0 127))),
     status (exec .wrI8 (unitAt ⟨0, 4, 24⟩ (packetA 0 (-128))))] =
      [some 2, some 2, some 1, some 0, some 2, some 2, some 1, some 0] := by decide

theorem witness_AlignedLittleEndianWritesFollowRule :
    [status (exec .wrU16LE (unitAt ⟨0, 4, 0⟩ (packetA 0 (-1)))),
     status (exec .wrU16LE (unitAt ⟨0, 4, 0⟩ (packetA 0 65536))),
     status (exec .wrU16LE (unitAt ⟨0, 4, 17⟩ (packetA 0 65535))),
     status (exec .wrU16LE (unitAt ⟨0, 4, 16⟩ (packetA 0 65535))),
     status (exec .wrI16LE (unitAt ⟨0, 4, 0⟩ (packetA 0 (-32769)))),
     status (exec .wrI16LE (unitAt ⟨0, 4, 0⟩ (packetA 0 32768))),
     status (exec .wrI16LE (unitAt ⟨0, 4, 17⟩ (packetA 0 32767))),
     status (exec .wrI16LE (unitAt ⟨0, 4, 16⟩ (packetA 0 (-32768))))] =
      [some 2, some 2, some 1, some 0, some 2, some 2, some 1, some 0] := by decide

theorem witness_AlignedBigEndianWritesFollowRule :
    [status (exec .wrU16BE (unitAt ⟨0, 4, 0⟩ (packetA 0 (-1)))),
     status (exec .wrU16BE (unitAt ⟨0, 4, 0⟩ (packetA 0 65536))),
     status (exec .wrU16BE (unitAt ⟨0, 4, 17⟩ (packetA 0 65535))),
     status (exec .wrU16BE (unitAt ⟨0, 4, 16⟩ (packetA 0 65535))),
     status (exec .wrI16BE (unitAt ⟨0, 4, 0⟩ (packetA 0 (-32769)))),
     status (exec .wrI16BE (unitAt ⟨0, 4, 0⟩ (packetA 0 32768))),
     status (exec .wrI16BE (unitAt ⟨0, 4, 17⟩ (packetA 0 32767))),
     status (exec .wrI16BE (unitAt ⟨0, 4, 16⟩ (packetA 0 (-32768))))] =
      [some 2, some 2, some 1, some 0, some 2, some 2, some 1, some 0] := by decide

/-- The bounds of the aligned reads: the last place with room and the first without. -/
theorem witness_AlignedReadsFollowRules :
    [Instr.rdU8, .rdI8].map (fun i => (status (exec i (unitAt ⟨0, 4, 24⟩ Packet.idle)),
      status (exec i (unitAt ⟨0, 4, 25⟩ Packet.idle)))) = [(some 0, some 1), (some 0, some 1)] ∧
    [Instr.rdU16LE, .rdI16LE, .rdU16BE, .rdI16BE].map
      (fun i => (status (exec i (unitAt ⟨0, 4, 16⟩ Packet.idle)),
        status (exec i (unitAt ⟨0, 4, 17⟩ Packet.idle)))) =
      [(some 0, some 1), (some 0, some 1), (some 0, some 1), (some 0, some 1)] := by decide

/-- For the statements that an aligned command is an alignment and a field command: a mid-byte cursor,
with each pair of commands that they name. -/
theorem witness_AlignThenField :
    State.Inv (unitAt ⟨0, 4, 3⟩ (packetA 0 255)) ∧
      ∀ x ∈ [(Instr.wrU8, Instr.wrBitsU 8), (.wrI8, .wrBitsI 8), (.wrU16LE, .wrBitsU 16),
        (.rdU8, .rdBitsU 8), (.rdI8, .rdBitsI 8), (.rdU16LE, .rdBitsU 16)],
        (nextOf (exec x.1 (unitAt ⟨0, 4, 3⟩ (packetA 0 255)))).isSome ∧
          (nextOf (exec x.2 (unitAt ⟨0, 4, 3⟩ (packetA 0 255)))).isSome := by
  unfold State.Inv Context.legal; decide

/-- Each way a stream is malformed, and streams that are not. -/
theorem witness_RleDecFollowsRule :
    [streamStep 0x3100 0 [2, 1, 1], streamStep 0x3100 0 [1, 5, 0, 5], streamStep 0x3100 0 [],
      streamStep 0x3100 0 [3, 9]] =
      [some (4, 0, []), some (4, 0, []), some (0, 0, []), some (0, 0, [9, 9, 9])] := by decide

theorem witness_Rle3DecFollowsRule :
    [streamStep 0x3300 (-1) [1, 1, 2, 3], streamStep 0x3300 0 [1, 1, 2], streamStep 0x3300 3 [0, 1, 2, 3],
      streamStep 0x3300 4 [1, 1, 2, 3], streamStep 0x3300 2 [1, 1, 2, 3], streamStep 0x3300 2 [1, 1, 2, 0],
      streamStep 0x3300 0 []] =
      [some (2, 0, []), some (4, 0, []), some (4, 0, []), some (4, 0, []), some (4, 0, []),
        some (0, 0, [1, 2]), some (0, 0, [])] := by decide

/-- B20, B28, B26, B32, B22, B13, B11 of 95_test_vectors.md. -/
theorem witness_B64DecFollowsRule :
    [streamStep 0x3500 0 [0x54, 0x57, 0x46],
      streamStep 0x3500 0 [0x41, 0x41, 0x3d, 0x3d, 0x41, 0x41, 0x41, 0x41],
      streamStep 0x3500 0 [0x54, 0x57, 0x2d, 0x75], streamStep 0x3500 0 [0x54, 0x52, 0x3d, 0x3d],
      streamStep 0x3500 0 [0x2f, 0x2f, 0x39, 0x3d], streamStep 0x3500 0 [0x41, 0x41, 0x3d, 0x3d],
      streamStep 0x3500 0 []] =
      [some (4, 0, []), some (4, 0, []), some (4, 0, []), some (4, 0, []), some (4, 0, []),
        some (0, 0, [0]), some (0, 0, [])] := by decide

/-- An encoding and a decoding of it, with the right length and with others. -/
theorem witness_RleLaws :
    let s := unitAt ⟨0, 4, 0⟩ (packetA 0x3000 0 [7, 7, 8])
    let s' := unitAt ⟨0, 4, 0⟩ (packetA 0x3100 0 [2, 7, 1, 8])
    exec .rleEnc s = .next (s.answered 0 [2, 7, 1, 8]) ∧ s'.packet.inp = [2, 7, 1, 8] ∧
      exec .rleDec s' = .next (s'.answered 0 [7, 7, 8]) := ⟨rfl, rfl, rfl⟩

theorem witness_Rle3Laws :
    let s := unitAt ⟨0, 4, 0⟩ (packetA 0x3200 0 [5, 0, 0, 5])
    let s' := unitAt ⟨0, 4, 0⟩ (packetA 0x3300 4 [2, 5, 0, 0])
    let s'' := unitAt ⟨0, 4, 0⟩ (packetA 0x3300 0 [2, 5, 0, 0])
    exec .rle3Enc s = .next (s.answered 0 [2, 5, 0, 0]) ∧ s'.packet.inp = [2, 5, 0, 0] ∧
      s'.packet.a.toInt = s.packet.inp.length ∧ s''.packet.inp = [2, 5, 0, 0] ∧
      0 ≤ s''.packet.a.toInt := ⟨rfl, rfl, rfl, rfl, by decide⟩

theorem witness_B64Laws :
    let s := unitAt ⟨0, 4, 0⟩ (packetA 0x3400 0 [0])
    let s' := unitAt ⟨0, 4, 0⟩ (packetA 0x3500 0 [0x41, 0x41, 0x3d, 0x3d])
    exec .b64Enc s = .next (s.answered 0 [0x41, 0x41, 0x3d, 0x3d]) ∧
      s'.packet.inp = [0x41, 0x41, 0x3d, 0x3d] ∧ exec .b64Dec s' = .next (s'.answered 0 [0]) := by
  refine ⟨?_, rfl, ?_⟩
  · have h : b64Encode [0] = [0x41, 0x41, 0x3d, 0x3d] := by decide
    exact congrArg (fun out => replyStream out _) h
  · have h : b64Decode [0x41, 0x41, 0x3d, 0x3d] = .ok [0] := by decide
    exact congrArg (fun r => endStream r _) h

theorem witness_FixedCodecMovesCursorByItsSize :
    s2.bitSize = some 8 ∧
      (∃ t, encodeValue false s2 (.record [("a", .int 5), ("b", .int 17)]) (unitAt ⟨0, 4, 0⟩ Packet.idle) =
        .done () t) ∧
      ∃ v t, decodeValue false s2 (unitAt ⟨0, 4, 0⟩ Packet.idle) = .done v t :=
  ⟨rfl, ⟨_, rfl⟩, _, _, rfl⟩

/-- A codec of every composite kind: an enum given a raw integer that is a key's code, an alignment, a
pad, an array and a varArray in a struct. -/
def mixed : Codec :=
  .struct "m" [.field "e" (.enum "E" 2 [("a", 1), ("b", 2)]), .padBits 1, .field "xs" (.array "xs" (.i 3) 2),
    .struct "gap" [.alignToByte], .field "ys" (.varArray "ys" .u8 (.u 5) 8 true)]

/-- A value of it, its fields out of declaration order. -/
def mixedValue : Value :=
  .record [("ys", .list [.int 9, .int 8]), ("e", .int 1), ("xs", .list [.int (-1), .int 3])]

theorem witness_CodecRoundTrip :
    mixed.numericLengths = true ∧ mixed.admitted = true ∧
      State.Inv (running [0, 0, 0, 0, 0] ⟨0, 5, 4⟩ ⟨0, 5, 4⟩ Packet.idle) ∧
      (match encodeValue true mixed mixedValue (running [0, 0, 0, 0, 0] ⟨0, 5, 4⟩ ⟨0, 5, 4⟩ Packet.idle) with
        | .done _ t => written (.next t)
        | _ => none) = some ([0x90, 0x0F, 0x02, 9, 8], 40) := by
  unfold State.Inv Context.legal; decide

/-- What that value comes back as: the key for the raw integer, declaration order. -/
theorem test_canon_of_mixedValue :
    mixed.canon mixedValue =
      .record [("e", .key "a"), ("xs", .list [.int (-1), .int 3]), ("ys", .list [.int 9, .int 8])] := rfl

/-- An image that fills the region to its last bit, with skipped places, zeros and a length. -/
theorem witness_EncodeStoresImage :
    State.Inv (running [0, 0, 0, 0, 0] ⟨0, 5, 4⟩ ⟨0, 5, 4⟩ Packet.idle) ∧ mixed.admitted = true ∧ (mixed.image true mixedValue 4).map List.length = some 36 ∧
      4 + 36 ≤ 8 * (running [0, 0, 0, 0, 0] ⟨0, 5, 4⟩ ⟨0, 5, 4⟩ Packet.idle).wr.size := by
  unfold State.Inv Context.legal; decide

theorem witness_DecodeReadsImage :
    (Codec.padBits 5).admitted = true ∧ (Codec.padBits 5).numericLengths = true ∧ 3 + 5 ≤ 8 * 1 ∧
    (running [7] ⟨0, 1, 3⟩ ⟨0, 1, 3⟩ Packet.idle).Inv ∧
      Codec.image false (.padBits 5) .none 3 = some (List.replicate 5 (some false)) ∧
      ImagePresent (running [7] ⟨0, 1, 3⟩ ⟨0, 1, 3⟩ Packet.idle).buf 3 (List.replicate 5 (some false)) := by
  refine ⟨rfl, rfl, by decide, by unfold State.Inv Context.legal; decide, rfl, fun j b h => ?_⟩
  obtain ⟨hj, h⟩ := List.getElem?_eq_some_iff.1 h
  simp only [List.getElem_replicate, Option.some.injEq] at h
  simp only [List.length_replicate] at hj
  subst h
  interval_cases j <;> decide

/-- A command that succeeds, then one that fails. -/
theorem witness_ExpansionStopsAtFirstError :
    ∃ t u, sendAll [packetA 0x2108 0] (unitAt ⟨0, 4, 24⟩ Packet.idle) = .done () t ∧
      send (packetA 0x2101 0) t = .failed .boundsError u := ⟨_, _, rfl, rfl⟩

/-- A pad of more than one command that fills the region. -/
theorem witness_PadBitsWritesZeros :
    State.Inv (running [255, 255, 255, 255, 255] ⟨0, 0, 0⟩ ⟨0, 5, 3⟩ Packet.idle) ∧ 3 + 37 ≤ 8 * 5 := by
  unfold State.Inv Context.legal; decide

/-- Lists one off the count, on both sides, and one over the limit. -/
theorem witness_WrongLengthIssuesNoCommand :
    Codec.admitted .u8 = true ∧ Codec.admitted (.u 5) = true ∧
      ([Value.int 1] : List Value).length ≠ 2 ∧ ([Value.int 1, .int 2, .int 3] : List Value).length ≠ 2 ∧
      ([Value.int 1] : List Value).length > 0 := by decide

/-- A length one over the limit and a negative one. -/
theorem witness_DecodedLengthIsChecked :
    (∃ t, Codec.dec false (.u 4) (running [9] ⟨0, 1, 0⟩ ⟨0, 0, 0⟩ Packet.idle) = .done (.int 9) t) ∧
      (9 : Int) > (8 : Nat) ∧
      ∃ t, Codec.dec false (.i 4) (running [15] ⟨0, 1, 0⟩ ⟨0, 0, 0⟩ Packet.idle) = .done (.int (-1)) t :=
  ⟨⟨_, rfl⟩, by decide, _, rfl⟩

theorem witness_LayoutOffsetIsSumOfSizes :
    [Codec.field "a" (.u 3), .padBits 2].map Codec.bitSize = [3, 2].map some ∧
      ⟨"c", 5, none⟩ ∈ (Codec.struct "s" [.field "a" (.u 3), .padBits 2, .field "c" .alignToByte]).layout := by
  decide

end Sys2Proof.Tests
end

section
/-! The state family: what a command can do to the state, said once, and the invariant, frame and
noninterference statements that follow from it (10_state.md). -/

namespace Sys2Proof.Machine

/-! ### The errors of the stream commands -/

/-- A malformed run-length stream is a FormatError (46_rle.md R182). -/
theorem rleExpand_error {y : List Byte} {e : ErrorKind} (h : rleExpand y = .error e) :
    e = .formatError := by
  fun_induction rleExpand y with
  | case1 => cases h
  | case2 => cases h; rfl
  | case3 => cases h; rfl
  | case4 count value y hc e' he' ih => cases h; exact ih he'
  | case5 => cases h

/-- RLE.DEC fails with FormatError only (46_rle.md R182). -/
theorem rleDecode_error {y : List Byte} {e : ErrorKind} (h : rleDecode y = .error e) :
    e = .formatError := by
  unfold rleDecode at h
  split at h
  · cases h; rfl
  · exact rleExpand_error h

/-- A malformed triplet stream is a FormatError (46_rle.md R185). -/
theorem rle3Expand_error {y : List Byte} {e : ErrorKind} (h : rle3Expand y = .error e) :
    e = .formatError := by
  fun_induction rle3Expand y with
  | case1 => cases h
  | case2 => cases h; rfl
  | case3 count t0 t1 t2 y hc e' he' ih => cases h; exact ih he'
  | case4 => cases h
  | case5 => cases h; rfl

/-- RLE3.DEC fails with ValueRangeError or FormatError (46_rle.md R185). -/
theorem rle3Decode_error {k : Int} {y : List Byte} {e : ErrorKind}
    (h : rle3Decode k y = .error e) : e = .valueRangeError ∨ e = .formatError := by
  unfold rle3Decode at h
  split at h
  · cases h; exact .inl rfl
  · split at h
    · cases h; exact .inr rfl
    · split at h
      · rename_i e' he'
        cases h
        exact .inr (rle3Expand_error he')
      · unfold cutToLength at h
        split at h
        · cases h; exact .inr rfl
        · split at h
          · cases h; exact .inr rfl
          · cases h

/-- A malformed group of a text is a FormatError (47_base64.md R202). -/
theorem b64DecodeGroup_error {last : Bool} {q0 q1 q2 q3 : Byte} {e : ErrorKind}
    (h : b64DecodeGroup last q0 q1 q2 q3 = .error e) : e = .formatError := by
  simp only [b64DecodeGroup] at h
  split at h
  · cases h; rfl
  · split at h
    · cases h; rfl
    · split at h
      · cases h; rfl
      · split at h
        · cases h; rfl
        · cases h

/-- A malformed text is a FormatError (47_base64.md R202). -/
theorem b64DecodeGroups_error {t : List Byte} {e : ErrorKind}
    (h : b64DecodeGroups t = .error e) : e = .formatError := by
  fun_induction b64DecodeGroups t with
  | case1 => cases h
  | case2 q0 q1 q2 q3 t e' he' => cases h; exact b64DecodeGroup_error he'
  | case3 q0 q1 q2 q3 t z hz e' he' ih => cases h; exact ih he'
  | case4 => cases h
  | case5 => cases h; rfl

/-- B64.DEC fails with FormatError only (47_base64.md R202). -/
theorem b64Decode_error {t : List Byte} {e : ErrorKind} (h : b64Decode t = .error e) :
    e = .formatError := by
  unfold b64Decode at h
  split at h
  · cases h; rfl
  · exact b64DecodeGroups_error h

/-! ### One form for the commands of a group -/

/-- The six aligned reads are one operation, at a length and a reading of the bytes
(44_aligned_read.md R140). -/
theorem exec_of_isAlignedRead {i : Instr} (h : isAlignedRead i = true) :
    ∃ (len : Nat) (interp : List Nat → Int), 1 ≤ len ∧
      ∀ s, exec i s = alignedRead len interp s := by
  match i, h with
  | .rdU8, _ | .rdI8, _ => exact ⟨1, _, by decide, fun _ => rfl⟩
  | .rdU16LE, _ | .rdI16LE, _ | .rdU16BE, _ | .rdI16BE, _ => exact ⟨2, _, by decide, fun _ => rfl⟩

theorem fitsUnsigned_of_le_127 {n : Nat} (hn : 8 ≤ n) {v : Int} (h0 : 0 ≤ v) (h1 : v ≤ 127) :
    fitsUnsigned n v = true := by
  have : (2 : Int) ^ 8 ≤ 2 ^ n := pow_le_pow_right₀ (by decide) hn
  exact fitsUnsigned_iff.mpr ⟨h0, by omega⟩

theorem fitsSigned_of_le_127 {n : Nat} (hn : 8 ≤ n) {v : Int} (h0 : 0 ≤ v) (h1 : v ≤ 127) :
    fitsSigned n v = true := by
  have : (2 : Int) ^ 7 ≤ 2 ^ (n - 1) := pow_le_pow_right₀ (by decide) (by omega)
  exact fitsSigned_iff.mpr ⟨by omega, by omega⟩

/-- The six aligned writes are one operation, at a range check and a splitting into bytes; each of
them takes the values 0 to 127 (43_aligned_write.md R130). -/
theorem exec_of_isAlignedWrite {i : Instr} (h : isAlignedWrite i = true) :
    ∃ (fits : Int → Bool) (bytes : Int → List Nat),
      (∀ s, exec i s = alignedWrite fits bytes s) ∧
        (∀ v, 0 ≤ v → v ≤ 127 → fits v = true) ∧ ∀ v, 1 ≤ (bytes v).length := by
  have u8 := @fitsUnsigned_of_le_127 8 (by decide)
  have i8 := @fitsSigned_of_le_127 8 (by decide)
  have u16 := @fitsUnsigned_of_le_127 16 (by decide)
  have i16 := @fitsSigned_of_le_127 16 (by decide)
  match i, h with
  | .wrU8, _ =>
    exact ⟨fitsUnsigned 8, fun v => oneByte v.toNat, fun _ => rfl, @u8, fun _ => le_rfl⟩
  | .wrI8, _ =>
    exact ⟨fitsSigned 8, fun v => oneByte (biased 8 v), fun _ => rfl, @i8, fun _ => le_rfl⟩
  | .wrU16LE, _ =>
    exact ⟨fitsUnsigned 16, fun v => lowFirst v.toNat, fun _ => rfl, @u16, fun _ => one_le_two⟩
  | .wrI16LE, _ =>
    exact ⟨fitsSigned 16, fun v => lowFirst (biased 16 v), fun _ => rfl, @i16, fun _ => one_le_two⟩
  | .wrU16BE, _ =>
    exact ⟨fitsUnsigned 16, fun v => highFirst v.toNat, fun _ => rfl, @u16, fun _ => one_le_two⟩
  | .wrI16BE, _ =>
    exact ⟨fitsSigned 16, fun v => highFirst (biased 16 v), fun _ => rfl, @i16, fun _ => one_le_two⟩

/-- A stream command ends with a function of A and IN, which never gives the host's own error
StructureError (10_state.md R27, 45_codec_macros.md R166). -/
theorem exec_of_isStream {i : Instr} (h : isStream i = true) :
    ∃ f : Int → List Byte → Except ErrorKind (List Byte),
      (∀ a x e, f a x = .error e → e ≠ .structureError) ∧
        ∀ s, exec i s = endStream (f s.opA s.packet.inp) s := by
  match i, h with
  | .rleEnc, _ => exact ⟨fun _ x => .ok (rleEncode x), nofun, fun _ => rfl⟩
  | .rleDec, _ =>
    exact ⟨fun _ x => rleDecode x, fun _ _ _ he => by simp [rleDecode_error he], fun _ => rfl⟩
  | .rle3Enc, _ => exact ⟨fun _ x => .ok (rle3Encode x), nofun, fun _ => rfl⟩
  | .rle3Dec, _ =>
    exact ⟨rle3Decode, fun _ _ _ he => by rcases rle3Decode_error he with rfl | rfl <;> decide,
      fun _ => rfl⟩
  | .b64Enc, _ => exact ⟨fun _ x => .ok (b64Encode x), nofun, fun _ => rfl⟩
  | .b64Dec, _ =>
    exact ⟨fun _ x => b64Decode x, fun _ _ _ he => by simp [b64Decode_error he], fun _ => rfl⟩

/-! ### What a command can do -/

/-- The OPEN of a context (40_context_control.md R100, R101). -/
def Side.opener : Side → Instr
  | .rd => .rdOpen
  | .wr => .wrOpen

/-- The state in which a command makes its checks: an aligned command has aligned its cursor
(43_aligned_write.md R130, 44_aligned_read.md R140). -/
def State.atChecks (s : State) (i : Instr) : State :=
  { s with
    rd := if isAlignedRead i then s.rd.aligned else s.rd
    wr := if isAlignedWrite i then s.wr.aligned else s.wr }

section AtChecks

variable (s : State) (i : Instr)

@[simp] theorem atChecks_buf : (s.atChecks i).buf = s.buf := rfl
@[simp] theorem atChecks_bufBytes : (s.atChecks i).bufBytes = s.bufBytes := rfl
@[simp] theorem atChecks_rd :
    (s.atChecks i).rd = if isAlignedRead i then s.rd.aligned else s.rd := rfl
@[simp] theorem atChecks_wr :
    (s.atChecks i).wr = if isAlignedWrite i then s.wr.aligned else s.wr := rfl
@[simp] theorem atChecks_err : (s.atChecks i).err = s.err := rfl
@[simp] theorem atChecks_packet : (s.atChecks i).packet = s.packet := rfl
@[simp] theorem atChecks_inputs : (s.atChecks i).inputs = s.inputs := rfl
@[simp] theorem atChecks_responses : (s.atChecks i).responses = s.responses := rfl

end AtChecks

section Answered

variable (s : State) (v : Word) (out : List Byte)

@[simp] theorem answered_buf : (s.answered v out).buf = s.buf := rfl
@[simp] theorem answered_bufBytes : (s.answered v out).bufBytes = s.bufBytes := rfl
@[simp] theorem answered_rd : (s.answered v out).rd = s.rd := rfl
@[simp] theorem answered_wr : (s.answered v out).wr = s.wr := rfl
@[simp] theorem answered_err : (s.answered v out).err = s.err := rfl
@[simp] theorem answered_packet : (s.answered v out).packet = s.packet := rfl
@[simp] theorem answered_inputs : (s.answered v out).inputs = s.inputs := rfl
@[simp] theorem answered_responses :
    (s.answered v out).responses = s.responses ++ [⟨0, v, out⟩] := rfl

end Answered

/-- What a write to BUF keeps: the canonical form, the recorded addresses inside BUF, and every byte
outside the writer's region (20_memory.md R53). -/
structure BufWrite (s : State) (m : Memory) : Prop where
  wf : Memory.wf s.buf = true → Memory.wf m = true
  inside : (∀ c ∈ s.buf, c.1 < s.bufBytes) → ∀ c ∈ m, c.1 < s.bufBytes
  outside : ∀ a, a < s.wr.base ∨ s.wr.base + s.wr.size ≤ a →
    Memory.byteAt m a = Memory.byteAt s.buf a

/-- Where a cursor can move: forward, and inside the region when it was inside (10_state.md R24,
R30). -/
def Context.advance (c : Context) (k : Nat) : Prop :=
  c.cur ≤ k ∧ (c.cur ≤ 8 * c.size → k ≤ 8 * c.size)

/-- Everything a command can leave of a state: an error, an answer alone, a context opened, the
reader's cursor moved, or BUF written and the writer's cursor moved. -/
inductive CommandEffect (i : Instr) (s : State) : State → Prop
  | failed (e : ErrorKind) (he : e ≠ .structureError) : CommandEffect i s ((s.atChecks i).raised e)
  | answers (v : Word) (out : List Byte) (hr : isReader i = false) (hw : isWriter i = false)
      (hv : answersValue i = false → v = 0) (hout : isStream i = false → out = []) :
      CommandEffect i s (s.answered v out)
  | opens (side : Side) (c : Context) (hi : i = side.opener) (hc : c.legal s.bufBytes) :
      CommandEffect i s ((s.setCtx side c).answered 0 [])
  | reads (k : Nat) (v : Word) (hr : isReader i = true) (hk : s.rd.advance k)
      (hv : answersValue i = false → v = 0) : CommandEffect i s ((s.setCur .rd k).answered v [])
  | writes (k : Nat) (m : Memory) (hw : isWriter i = true) (hk : s.wr.advance k)
      (hm : BufWrite s m) : CommandEffect i s (((s.setBuf m).setCur .wr k).answered 0 [])

theorem bufWrite_self (s : State) : BufWrite s s.buf := ⟨id, id, fun _ _ => rfl⟩

/-- A field inside the writer's region leaves the bytes outside it (20_memory.md R53). -/
theorem byteAt_of_fieldWritten_outside {m m' : Memory} {c : Context} {n u : Nat}
    (h : FieldWritten m m' c.bitPos n u) (hc : c.cur + n ≤ c.cap) {a : Nat}
    (ha : a < c.base ∨ c.base + c.size ≤ a) : Memory.byteAt m' a = Memory.byteAt m a := by
  unfold Context.cap at hc
  exact FieldWritten_byte h (by unfold Context.bitPos; omega)

/-- Bytes stored inside a region leave the bytes outside it (20_memory.md R53). -/
theorem byteAt_of_bytesWritten_outside {m m' : Memory} {c : Context} {q : Nat} {bs : List Nat}
    (h : BytesWritten m m' (c.base + q) bs) (hc : 8 * q + 8 * bs.length ≤ c.cap) {a : Nat}
    (ha : a < c.base ∨ c.base + c.size ≤ a) : Memory.byteAt m' a = Memory.byteAt m a := by
  unfold Context.cap at hc
  rw [h a, if_neg (by omega)]

/-- A move of the cursor by bits that are inside the region (20_memory.md R57). -/
theorem advance_of_le_cap {c : Context} {n : Nat} (h : c.cur + n ≤ c.cap) :
    c.advance (c.cur + n) := ⟨by omega, fun _ => h⟩

/-- An alignment is a move of the cursor inside the region (20_memory.md R60). -/
theorem advance_alignUp (c : Context) : c.advance (alignUp c.cur) :=
  ⟨(alignUp_spec c.cur).1, alignUp_le⟩

/-- An alignment and then a move by bits inside the region. -/
theorem advance_aligned {c : Context} {n : Nat} (h : alignUp c.cur + n ≤ c.cap) :
    c.advance (alignUp c.cur + n) :=
  ⟨by have := (alignUp_spec c.cur).1; omega, fun _ => h⟩

section Effects

variable {i : Instr} {s t : State}

/-- A command that does not align makes its checks in the state it finds. -/
theorem atChecks_of_not_aligned (hr : isAlignedRead i = false) (hw : isAlignedWrite i = false) :
    s.atChecks i = s := by simp [State.atChecks, hr, hw]

/-- An error before any alignment. -/
theorem effect_raised (hr : isAlignedRead i = false) (hw : isAlignedWrite i = false)
    {e : ErrorKind} (he : e ≠ .structureError) : CommandEffect i s (s.raised e) := by
  have h := CommandEffect.failed (i := i) (s := s) e he
  rwa [atChecks_of_not_aligned hr hw] at h

theorem raise_effect (hr : isAlignedRead i = false) (hw : isAlignedWrite i = false)
    {e : ErrorKind} (he : e ≠ .structureError) (h : raise e s = .next t) : CommandEffect i s t :=
  (raise_eq_next e s t).mp h ▸ effect_raised hr hw he

/-- The effect of a field read (42_bit_read.md R120). -/
theorem readField_effect {n : Nat} {interp : Nat → Int} (hr : isReader i = true)
    (hv : answersValue i = true) (har : isAlignedRead i = false) (haw : isAlignedWrite i = false)
    (h : readField n interp s = .next t) : CommandEffect i s t := by
  obtain ⟨-, rfl⟩ | ⟨hc, rfl⟩ := readField_cases h
  · exact effect_raised har haw (by decide)
  · exact .reads _ _ hr (advance_of_le_cap hc) (by simp [hv])

/-- The effect of a field write (41_bit_write.md R110). -/
theorem writeField_effect {n u : Nat} (hw : isWriter i = true) (har : isAlignedRead i = false)
    (haw : isAlignedWrite i = false) (h : writeField n u s = .next t) : CommandEffect i s t := by
  obtain ⟨-, rfl⟩ | ⟨hc, m, hm, hwf, hin, rfl⟩ := writeField_cases h
  · exact effect_raised har haw (by decide)
  · exact .writes _ m hw (advance_of_le_cap hc)
      ⟨hwf, hin, fun _ => byteAt_of_fieldWritten_outside hm hc⟩

/-- The effect of an OPEN (40_context_control.md R100, R101). -/
theorem openContext_effect {side : Side} (h : openContext side s = .next t) :
    CommandEffect side.opener s t := by
  have har : isAlignedRead side.opener = false := by cases side <;> rfl
  have haw : isAlignedWrite side.opener = false := by cases side <;> rfl
  obtain ⟨-, rfl⟩ | ⟨-, -, -, rfl⟩ | ⟨ha, hb, hab, hc, hcb, rfl⟩ := openContext_cases h
  · exact effect_raised har haw (by decide)
  · exact effect_raised har haw (by decide)
  · exact .opens side _ rfl ⟨by simp only; omega, by simp only; omega⟩

/-- The effect of an aligned read (44_aligned_read.md R140). -/
theorem alignedRead_effect (hi : isAlignedRead i = true) (hr : isReader i = true)
    (hv : answersValue i = true) (hw : isAlignedWrite i = false)
    (h : exec i s = .next t) : CommandEffect i s t := by
  obtain ⟨len, interp, -, hexec⟩ := exec_of_isAlignedRead hi
  rw [hexec] at h
  have hchecks : s.alignCur .rd = s.atChecks i := by simp [State.atChecks, hi, hw]; rfl
  obtain ⟨-, rfl⟩ | ⟨hc, rfl⟩ := readBytes_cases (alignCur_rd_cur s) h
  · rw [hchecks]
    exact .failed _ (by decide)
  · exact .reads _ _ hr (advance_aligned hc) (by simp [hv])

/-- The effect of an aligned write (43_aligned_write.md R130). -/
theorem alignedWrite_effect (hi : isAlignedWrite i = true) (hw : isWriter i = true)
    (hr : isAlignedRead i = false) (h : exec i s = .next t) : CommandEffect i s t := by
  obtain ⟨fits, bytes, hexec, -⟩ := exec_of_isAlignedWrite hi
  rw [hexec] at h
  have hchecks : s.alignCur .wr = s.atChecks i := by simp [State.atChecks, hi, hr]; rfl
  obtain ⟨-, rfl⟩ | ⟨-, h⟩ := alignedWrite_cases h
  · rw [hchecks]
    exact .failed _ (by decide)
  · obtain ⟨-, rfl⟩ | ⟨hc, m, hm, hwf, hin, rfl⟩ := writeBytes_cases (alignCur_wr_cur s) h
    · rw [hchecks]
      exact .failed _ (by decide)
    · exact .writes _ m hw (advance_aligned hc)
        ⟨hwf, hin, fun _ => byteAt_of_bytesWritten_outside (c := s.wr) hm hc⟩

/-- The effect of a stream command (10_state.md R27). -/
theorem stream_effect (hi : isStream i = true) (hr : isReader i = false) (hw : isWriter i = false)
    (har : isAlignedRead i = false) (haw : isAlignedWrite i = false) (h : exec i s = .next t) :
    CommandEffect i s t := by
  obtain ⟨f, hf, hexec⟩ := exec_of_isStream hi
  rw [hexec] at h
  obtain ⟨e, he, rfl⟩ | ⟨out, -, rfl⟩ := endStream_cases h
  · exact effect_raised har haw (hf _ _ _ he)
  · exact .answers 0 out hr hw (fun _ => rfl) (by simp [hi])

/-- Everything a command can do. -/
theorem exec_effect (h : exec i s = .next t) : CommandEffect i s t := by
  cases i with
  | getreg n =>
    simp only [exec, execGetreg] at h
    split at h
    · obtain rfl := (reply_eq_next ..).mp h
      exact .answers _ [] rfl rfl nofun fun _ => rfl
    · exact raise_effect rfl rfl (by decide) h
  | rdOpen => exact openContext_effect (side := .rd) h
  | wrOpen => exact openContext_effect (side := .wr) h
  | rdBitsU n =>
    simp only [exec, execRdBitsU] at h
    split at h
    · exact raise_effect rfl rfl (by decide) h
    · exact readField_effect rfl rfl rfl rfl h
  | rdBitsI n =>
    simp only [exec, execRdBitsI] at h
    split at h
    · exact raise_effect rfl rfl (by decide) h
    · exact readField_effect rfl rfl rfl rfl h
  | wrBitsU n =>
    simp only [exec, execWrBitsU] at h
    split at h
    · exact raise_effect rfl rfl (by decide) h
    · split at h
      · exact writeField_effect rfl rfl rfl h
      · exact raise_effect rfl rfl (by decide) h
  | wrBitsI n =>
    simp only [exec, execWrBitsI] at h
    split at h
    · exact raise_effect rfl rfl (by decide) h
    · split at h
      · exact writeField_effect rfl rfl rfl h
      · exact raise_effect rfl rfl (by decide) h
  | rdAlign =>
    obtain rfl := (reply_eq_next ..).mp h
    exact .reads _ 0 rfl (advance_alignUp s.rd) fun _ => rfl
  | wrAlign =>
    obtain rfl := (reply_eq_next ..).mp h
    exact .writes _ s.buf rfl (advance_alignUp s.wr) (bufWrite_self s)
  | rdU8 | rdI8 | rdU16LE | rdI16LE | rdU16BE | rdI16BE => exact alignedRead_effect rfl rfl rfl rfl h
  | wrU8 | wrI8 | wrU16LE | wrI16LE | wrU16BE | wrI16BE => exact alignedWrite_effect rfl rfl rfl h
  | rleEnc | rleDec | rle3Enc | rle3Dec | b64Enc | b64Dec => exact stream_effect rfl rfl rfl rfl rfl h

end Effects

/-! ### The invariant -/

/-- ERR after an error of the unit's own is a code of the unit's own (10_state.md R25, R26). -/
theorem stickyErr_unitCode {c : Code} {e : ErrorKind} (he : e ≠ .structureError)
    (hc : c = 0 ∨ c = 1 ∨ c = 2 ∨ c = 4 ∨ c = 5) :
    stickyErr c e = 0 ∨ stickyErr c e = 1 ∨ stickyErr c e = 2 ∨ stickyErr c e = 4 ∨
      stickyErr c e = 5 := by
  unfold stickyErr
  split
  · cases e <;> simp [ErrorKind.code] at he ⊢
  · exact hc

/-- A legal context stays legal when its cursor moves inside the region (10_state.md R24). -/
theorem legal_of_advance {n k : Nat} {c : Context} (h : c.legal n) (hk : c.advance k) :
    Context.legal n { c with cur := k } := ⟨h.1, hk.2 h.2⟩

/-- The alignment of a cursor keeps its context legal (20_memory.md R60). -/
theorem aligned_legal {n : Nat} {c : Context} (h : c.legal n) : c.aligned.legal n :=
  legal_of_advance h (advance_alignUp c)

/-- A command keeps the invariant. -/
theorem CommandEffect.keeps_inv {i : Instr} {s t : State} (h : CommandEffect i s t) (hs : s.Inv) :
    t.Inv := by
  obtain ⟨hwf, hin, hsize, hrd, hwr, herr⟩ := hs
  cases h with
  | failed e he =>
    refine ⟨hwf, hin, hsize, ?_, ?_, stickyErr_unitCode he herr⟩
    · rw [raised_rd, atChecks_rd]
      split
      · exact aligned_legal hrd
      · exact hrd
    · rw [raised_wr, atChecks_wr]
      split
      · exact aligned_legal hwr
      · exact hwr
  | answers => exact ⟨hwf, hin, hsize, hrd, hwr, herr⟩
  | opens side c _ hc =>
    cases side with
    | rd => exact ⟨hwf, hin, hsize, hc, hwr, herr⟩
    | wr => exact ⟨hwf, hin, hsize, hrd, hc, herr⟩
  | reads k _ _ hk => exact ⟨hwf, hin, hsize, legal_of_advance hrd hk, hwr, herr⟩
  | writes k m _ hk hm =>
    exact ⟨hm.wf hwf, hm.inside hin, hsize, hrd, legal_of_advance hwr hk, herr⟩

theorem reset_context_legal (n : Nat) : Context.reset.legal n := ⟨Nat.zero_le n, Nat.le_refl 0⟩

/-- Taking and receiving a packet leaves everything the invariant speaks of. -/
theorem receive_dropInput_inv {s : State} (h : s.Inv) (p : Packet) :
    (s.dropInput.receive p).Inv := h

/-- Reset keeps the invariant (70_reset_and_hazards.md R240). -/
theorem applyReset_inv {s : State} (h : s.Inv) : s.applyReset.Inv := by
  obtain ⟨hwf, hin, hsize, -⟩ := h
  exact ⟨hwf, hin, hsize, reset_context_legal _, reset_context_legal _, .inl rfl⟩

/-- An IllegalCommand for a word that spells no command keeps the invariant. -/
theorem raised_inv {s : State} (h : s.Inv) {e : ErrorKind} (he : e ≠ .structureError) :
    (s.raised e).Inv := by
  obtain ⟨hwf, hin, hsize, hrd, hwr, herr⟩ := h
  exact ⟨hwf, hin, hsize, hrd, hwr, stickyErr_unitCode he herr⟩

/-- Settles O13: a step waits, resets, refuses a word or runs a command, and each keeps the
invariant. -/
theorem stepKeepsInvariant : Obligations.StepKeepsInvariant := by
  intro s t hs h
  obtain ⟨-, ht⟩ | ⟨rest, -, ht⟩ | ⟨p, rest, x, -, -, ht⟩ | ⟨p, rest, i, -, -, ht⟩ := step_cases h
  · cases ht; exact hs
  · cases ht; exact applyReset_inv (s := s.dropInput) hs
  · cases ht; exact raised_inv (receive_dropInput_inv hs p) (by decide)
  · exact (exec_effect ht.symm).keeps_inv (receive_dropInput_inv hs p)

/-- Settles O12: after reset the regions are empty, no byte is recorded, and BUF_BYTES is in its
range. -/
theorem resetStateHasInvariant : Obligations.ResetStateHasInvariant := by
  have hsize : Config.bufBytes < 2 ^ 60 := Config.bufBytesIndex.isLt
  refine ⟨rfl, by simp, ?_, reset_context_legal _, reset_context_legal _, .inl rfl⟩
  rw [reset_bufBytes]
  omega

/-! ### ERR and the cursors -/

/-- No error has the code of OK (60_exceptions.md R211). -/
theorem code_ne_zero (e : ErrorKind) : e.code ≠ 0 := by cases e <;> decide

/-- Settles O17: an error answers a code that is not 0, and no other effect writes ERR. -/
theorem successLeavesErr : Obligations.SuccessLeavesErr := by
  intro i s t r h hresp hst
  cases exec_effect h with
  | failed e =>
    obtain rfl : (⟨e.code, 0, []⟩ : Response) = r := by simpa using hresp
    exact absurd hst (code_ne_zero e)
  | answers => rfl
  | opens side => simp
  | reads => rfl
  | writes => rfl

theorem cur_le_aligned (c : Context) : c.cur ≤ c.aligned.cur := (alignUp_spec c.cur).1

/-- Settles O26: of the effects only the opening of a context writes its base and size, and every
other one moves the cursor forward or leaves it. -/
theorem cursorsOnlyAdvance : Obligations.CursorsOnlyAdvance := by
  intro i s t h
  cases exec_effect h with
  | failed e =>
    constructor
    · intro
      rw [raised_rd, atChecks_rd]
      split
      · exact ⟨rfl, rfl, cur_le_aligned _⟩
      · exact ⟨rfl, rfl, le_rfl⟩
    · intro
      rw [raised_wr, atChecks_wr]
      split
      · exact ⟨rfl, rfl, cur_le_aligned _⟩
      · exact ⟨rfl, rfl, le_rfl⟩
  | answers => exact ⟨fun _ => ⟨rfl, rfl, le_rfl⟩, fun _ => ⟨rfl, rfl, le_rfl⟩⟩
  | opens side c hi =>
    cases side with
    | rd => exact ⟨fun hne => absurd hi hne, fun _ => ⟨rfl, rfl, le_rfl⟩⟩
    | wr => exact ⟨fun _ => ⟨rfl, rfl, le_rfl⟩, fun hne => absurd hi hne⟩
  | reads k _ _ hk => exact ⟨fun _ => ⟨rfl, rfl, hk.1⟩, fun _ => ⟨rfl, rfl, le_rfl⟩⟩
  | writes k _ _ hk => exact ⟨fun _ => ⟨rfl, rfl, le_rfl⟩, fun _ => ⟨rfl, rfl, hk.1⟩⟩

/-! ### Noninterference: commands on two states that agree where they look -/

/-- Two results related state by state: both answer with related states, or both stop for the same
reason. -/
inductive ResultRel (R : State → State → Prop) : Result → Result → Prop
  | next {t t' : State} (h : R t t') : ResultRel R (.next t) (.next t')
  | fault (f : Fault) : ResultRel R (.fault f) (.fault f)
  | refused (r : Refusal) : ResultRel R (.refused r) (.refused r)

/-- Related results, when the first answers. -/
theorem ResultRel.exists_next {R : State → State → Prop} {x y : Result} {t : State}
    (h : ResultRel R x y) (hx : x = .next t) : ∃ t', y = .next t' ∧ R t t' := by
  subst hx
  cases h with
  | next h => exact ⟨_, rfl, h⟩

/-- A relation that a command on context `side` cannot leave: related states agree on the packet, BUF
and that context, and every update such a command makes keeps the relation. -/
structure Unseen (side : Side) (R : State → State → Prop) : Prop where
  buf : ∀ {s s'}, R s s' → s'.buf = s.buf
  bufBytes : ∀ {s s'}, R s s' → s'.bufBytes = s.bufBytes
  packet : ∀ {s s'}, R s s' → s'.packet = s.packet
  ctx : ∀ {s s'}, R s s' → s'.ctx side = s.ctx side
  setCtx : ∀ {s s'}, R s s' → ∀ c, R (s.setCtx side c) (s'.setCtx side c)
  setBuf : ∀ {s s'}, R s s' → ∀ m, R (s.setBuf m) (s'.setBuf m)
  respond : ∀ {s s'}, R s s' → ∀ r, R (s.respond r) (s'.respond r)
  raised : ∀ {s s'}, R s s' → ∀ e, R (s.raised e) (s'.raised e)

namespace Unseen

variable {side : Side} {R : State → State → Prop} {s s' : State}

theorem setCur (hR : Unseen side R) (h : R s s') (k : Nat) :
    R (s.setCur side k) (s'.setCur side k) := by
  unfold State.setCur
  rw [hR.ctx h]
  exact hR.setCtx h _

theorem alignCur (hR : Unseen side R) (h : R s s') : R (s.alignCur side) (s'.alignCur side) := by
  unfold State.alignCur
  rw [hR.ctx h]
  exact hR.setCur h _

theorem opA (hR : Unseen side R) (h : R s s') : s'.opA = s.opA := by
  unfold State.opA; rw [hR.packet h]

theorem opB (hR : Unseen side R) (h : R s s') : s'.opB = s.opB := by
  unfold State.opB; rw [hR.packet h]

theorem opC (hR : Unseen side R) (h : R s s') : s'.opC = s.opC := by
  unfold State.opC; rw [hR.packet h]

theorem raise_rel (hR : Unseen side R) (h : R s s') (e : ErrorKind) :
    ResultRel R (raise e s) (raise e s') := .next (hR.raised h e)

theorem reply_rel (hR : Unseen side R) (h : R s s') (v : Word) :
    ResultRel R (reply v s) (reply v s') := .next (hR.respond h _)

theorem endStream_rel (hR : Unseen side R) (h : R s s') (x : Except ErrorKind (List Byte)) :
    ResultRel R (endStream x s) (endStream x s') := by
  cases x with
  | error e => exact hR.raise_rel h e
  | ok out => exact .next (hR.respond h _)

theorem readField_rel (hR : Unseen .rd R) (h : R s s') (n : Nat) (interp : Nat → Int) :
    ResultRel R (readField n interp s) (readField n interp s') := by
  have hctx : s'.rd = s.rd := hR.ctx h
  unfold readField
  rw [hR.buf h, hR.bufBytes h, hctx]
  split
  · exact hR.raise_rel h _
  · split
    · exact .fault _
    · exact hR.reply_rel (hR.setCur h _) _

theorem readBytes_rel (hR : Unseen .rd R) (h : R s s') (len : Nat) (interp : List Nat → Int) :
    ResultRel R (readBytes len interp s) (readBytes len interp s') := by
  have hctx : s'.rd = s.rd := hR.ctx h
  unfold readBytes
  rw [hR.buf h, hR.bufBytes h, hctx]
  split
  · exact hR.raise_rel h _
  · split
    · exact .fault _
    · exact hR.reply_rel (hR.setCur h _) _

theorem writeField_rel (hR : Unseen .wr R) (h : R s s') (n u : Nat) :
    ResultRel R (writeField n u s) (writeField n u s') := by
  have hctx : s'.wr = s.wr := hR.ctx h
  unfold writeField
  rw [hR.buf h, hR.bufBytes h, hctx]
  split
  · exact hR.raise_rel h _
  · split
    · exact .fault _
    · exact hR.reply_rel (hR.setCur (hR.setBuf h _) _) _

theorem writeBytes_rel (hR : Unseen .wr R) (h : R s s') (bs : List Nat) :
    ResultRel R (writeBytes bs s) (writeBytes bs s') := by
  have hctx : s'.wr = s.wr := hR.ctx h
  unfold writeBytes
  rw [hR.buf h, hR.bufBytes h, hctx]
  split
  · exact hR.raise_rel h _
  · split
    · exact .fault _
    · exact hR.reply_rel (hR.setCur (hR.setBuf h _) _) _

theorem alignedWrite_rel (hR : Unseen .wr R) (h : R s s') (fits : Int → Bool)
    (bytes : Int → List Nat) :
    ResultRel R (alignedWrite fits bytes s) (alignedWrite fits bytes s') := by
  simp only [alignedWrite, hR.opA h]
  split
  · exact hR.writeBytes_rel (hR.alignCur h) _
  · exact hR.raise_rel (hR.alignCur h) _

theorem openContext_rel (hR : Unseen side R) (h : R s s') :
    ResultRel R (openContext side s) (openContext side s') := by
  unfold openContext
  rw [hR.opA h, hR.opB h, hR.opC h, hR.bufBytes h]
  split
  · exact hR.raise_rel h _
  · split
    · exact hR.raise_rel h _
    · split
      · exact hR.raise_rel h _
      · exact hR.reply_rel (hR.setCtx h _) _

/-- A reader command does not see what the relation leaves free. -/
theorem exec_rel_of_isReader (hR : Unseen .rd R) (h : R s s') {i : Instr} (hi : isReader i = true) :
    ResultRel R (exec i s) (exec i s') := by
  have aligned : isAlignedRead i = true → ResultRel R (exec i s) (exec i s') := fun ha => by
    obtain ⟨len, interp, -, hexec⟩ := exec_of_isAlignedRead ha
    rw [hexec, hexec]
    exact hR.readBytes_rel (hR.alignCur h) _ _
  match i, hi with
  | .rdOpen, _ => exact hR.openContext_rel h
  | .rdBitsU n, _ =>
    simp only [exec, execRdBitsU]
    split
    · exact hR.raise_rel h _
    · exact hR.readField_rel h _ _
  | .rdBitsI n, _ =>
    simp only [exec, execRdBitsI]
    split
    · exact hR.raise_rel h _
    · exact hR.readField_rel h _ _
  | .rdAlign, _ => exact hR.reply_rel (hR.alignCur h) _
  | .rdU8, _ | .rdI8, _ | .rdU16LE, _ | .rdI16LE, _ | .rdU16BE, _ | .rdI16BE, _ => exact aligned rfl

/-- A writer command does not see what the relation leaves free. -/
theorem exec_rel_of_isWriter (hR : Unseen .wr R) (h : R s s') {i : Instr} (hi : isWriter i = true) :
    ResultRel R (exec i s) (exec i s') := by
  have aligned : isAlignedWrite i = true → ResultRel R (exec i s) (exec i s') := fun ha => by
    obtain ⟨fits, bytes, hexec, -⟩ := exec_of_isAlignedWrite ha
    rw [hexec, hexec]
    exact hR.alignedWrite_rel h _ _
  match i, hi with
  | .wrOpen, _ => exact hR.openContext_rel h
  | .wrBitsU n, _ =>
    simp only [exec, execWrBitsU, hR.opA h]
    split
    · exact hR.raise_rel h _
    · split
      · exact hR.writeField_rel h _ _
      · exact hR.raise_rel h _
  | .wrBitsI n, _ =>
    simp only [exec, execWrBitsI, hR.opA h]
    split
    · exact hR.raise_rel h _
    · split
      · exact hR.writeField_rel h _ _
      · exact hR.raise_rel h _
  | .wrAlign, _ => exact hR.reply_rel (hR.alignCur h) _
  | .wrU8, _ | .wrI8, _ | .wrU16LE, _ | .wrI16LE, _ | .wrU16BE, _ | .wrI16BE, _ => exact aligned rfl

/-- A stream command does not see what the relation leaves free. -/
theorem exec_rel_of_isStream (hR : Unseen side R) (h : R s s') {i : Instr} (hi : isStream i = true) :
    ResultRel R (exec i s) (exec i s') := by
  obtain ⟨f, -, hexec⟩ := exec_of_isStream hi
  rw [hexec, hexec, hR.opA h, hR.packet h]
  exact hR.endStream_rel h _

end Unseen

/-- Every command but GETREG is a reader, a writer or a stream command (10_state.md R32). -/
theorem command_kinds (i : Instr) :
    (∃ n, i = .getreg n) ∨ isReader i = true ∨ isWriter i = true ∨ isStream i = true := by
  cases i with
  | getreg n => exact .inl ⟨n, rfl⟩
  | rdOpen | rdBitsU | rdBitsI | rdAlign | rdU8 | rdI8 | rdU16LE | rdI16LE | rdU16BE | rdI16BE =>
    exact .inr (.inl rfl)
  | wrOpen | wrBitsU | wrBitsI | wrAlign | wrU8 | wrI8 | wrU16LE | wrI16LE | wrU16BE | wrI16BE =>
    exact .inr (.inr (.inl rfl))
  | rleEnc | rleDec | rle3Enc | rle3Dec | b64Enc | b64Dec => exact .inr (.inr (.inr rfl))

/-- States that differ in ERR at most. -/
def SameButErr (s s' : State) : Prop := ∃ e, s' = { s with err := e }

/-- No reader, writer or stream command sees ERR (10_state.md R25). -/
theorem unseen_sameButErr (side : Side) : Unseen side SameButErr where
  buf := by rintro _ _ ⟨e, rfl⟩; rfl
  bufBytes := by rintro _ _ ⟨e, rfl⟩; rfl
  packet := by rintro _ _ ⟨e, rfl⟩; rfl
  ctx := by rintro _ _ ⟨e, rfl⟩; cases side <;> rfl
  setCtx := by rintro _ _ ⟨e, rfl⟩ c; exact ⟨e, by cases side <;> rfl⟩
  setBuf := by rintro _ _ ⟨e, rfl⟩ m; exact ⟨e, rfl⟩
  respond := by rintro _ _ ⟨e, rfl⟩ r; exact ⟨e, rfl⟩
  raised := by rintro _ _ ⟨e, rfl⟩ k; exact ⟨stickyErr e k, rfl⟩

/-- The register numbers other than that of ERR name a register that ERR is no part of
(10_state.md R26). -/
theorem register_of_sameButErr {s s' : State} (h : SameButErr s s') {n : Nat} (hn : n ≠ 6) :
    s'.register n = s.register n := by
  obtain ⟨e, rfl⟩ := h
  match n with
  | 0 | 1 | 2 | 3 | 4 | 5 => rfl
  | 6 => exact absurd rfl hn
  | n + 7 => rfl

/-- GETREG of another register than ERR does not see ERR. -/
theorem getreg_rel_of_sameButErr {s s' : State} (h : SameButErr s s') {n : NField} (hn : n ≠ 6) :
    ResultRel SameButErr (exec (.getreg n) s) (exec (.getreg n) s') := by
  have hU := unseen_sameButErr .rd
  simp only [exec, execGetreg]
  rw [register_of_sameButErr h fun h6 => hn (BitVec.eq_of_toNat_eq h6)]
  split
  · exact hU.reply_rel h _
  · exact hU.raise_rel h _

/-- Settles O20: from states that differ in ERR at most, every command but GETREG ERR leads to such
states. -/
theorem errGatesNothing : Obligations.ErrGatesNothing := by
  intro i s t e hi h
  have hs : SameButErr s { s with err := e } := ⟨e, rfl⟩
  have hrel : ResultRel SameButErr (exec i s) (exec i { s with err := e }) := by
    obtain ⟨n, rfl⟩ | hr | hw | hst := command_kinds i
    · exact getreg_rel_of_sameButErr hs fun hn => hi (congrArg _ hn)
    · exact (unseen_sameButErr .rd).exec_rel_of_isReader hs hr
    · exact (unseen_sameButErr .wr).exec_rel_of_isWriter hs hw
    · exact (unseen_sameButErr .rd).exec_rel_of_isStream hs hst
  obtain ⟨t', ht', e', rfl⟩ := hrel.exists_next h
  exact ⟨_, ht', rfl⟩

/-- The other context. -/
def Side.other : Side → Side
  | .rd => .wr
  | .wr => .rd

/-- A command on one context does not see the other one (10_state.md R23). -/
theorem unseen_other (side : Side) (c : Context) :
    Unseen side fun s s' => s' = s.setCtx side.other c where
  buf := by rintro _ _ rfl; simp
  bufBytes := by rintro _ _ rfl; simp
  packet := by rintro _ _ rfl; simp
  ctx := by rintro _ _ rfl; cases side <;> rfl
  setCtx := by rintro _ _ rfl d; cases side <;> rfl
  setBuf := by rintro _ _ rfl m; cases side <;> rfl
  respond := by rintro _ _ rfl r; cases side <;> rfl
  raised := by rintro _ _ rfl e; cases side <;> rfl

/-- A command that sees one context only leaves the other, and commutes with writing it: that it
leaves it is the case of writing the value already there. -/
theorem other_ctx_of_rel {side : Side} {i : Instr} {s t : State}
    (hrel : ∀ {R : State → State → Prop} {s s' : State}, Unseen side R → R s s' →
      ResultRel R (exec i s) (exec i s'))
    (h : exec i s = .next t) (c : Context) :
    t.ctx side.other = s.ctx side.other ∧
      exec i (s.setCtx side.other c) = .next (t.setCtx side.other c) := by
  have hset : ∀ d, exec i (s.setCtx side.other d) = .next (t.setCtx side.other d) := fun d => by
    obtain ⟨t', ht', rfl⟩ := (hrel (unseen_other side d) rfl).exists_next h
    exact ht'
  have hself : s.setCtx side.other (s.ctx side.other) = s := by cases side <;> rfl
  have hkeep : t.setCtx side.other (s.ctx side.other) = t :=
    Host.Outcome.next.inj ((hset _).symm.trans (hself.symm ▸ h))
  refine ⟨?_, hset c⟩
  rw [← hkeep]
  cases side <;> rfl

/-- Settles O22: reader commands see the reader's context only, writer commands the writer's. -/
theorem contextsAreIndependent : Obligations.ContextsAreIndependent := fun _ _ _ c h =>
  ⟨fun hi => other_ctx_of_rel (side := .rd) (fun hR hs => hR.exec_rel_of_isReader hs hi) h c,
    fun hi => other_ctx_of_rel (side := .wr) (fun hR hs => hR.exec_rel_of_isWriter hs hi) h c⟩

/-- Settles O23: a stream command ends with a function of A and IN, which fixes its response over
every state, and its end writes ERR and the response only. -/
theorem streamCommandsTouchNoState : Obligations.StreamCommandsTouchNoState := by
  intro i s t r hi h hresp
  obtain ⟨f, -, hexec⟩ := exec_of_isStream hi
  have hsame : ∀ s' : State, s'.packet.inp = s.packet.inp → s'.packet.a = s.packet.a →
      exec i s' = endStream (f s.opA s.packet.inp) s' := fun s' hinp ha => by
    rw [hexec, hinp, State.opA, ha, State.opA]
  rw [hexec] at h
  obtain ⟨e, hf, rfl⟩ | ⟨out, hf, rfl⟩ := endStream_cases h
  · obtain rfl : (⟨e.code, 0, []⟩ : Response) = r := by simpa using hresp
    exact ⟨rfl, fun s' hinp ha => ⟨s'.raised e, by rw [hsame s' hinp ha, hf]; rfl, rfl⟩⟩
  · obtain rfl : (⟨0, 0, out⟩ : Response) = r := by simpa using hresp
    exact ⟨rfl, fun s' hinp ha => ⟨s'.answered 0 out, by rw [hsame s' hinp ha, hf]; rfl, rfl⟩⟩

/-! ### Reset -/

/-- Settles O9: the reset branch of a step takes the entry and clears the registers. -/
theorem resetInputClearsRegistersOnly : Obligations.ResetInputClearsRegistersOnly := by
  intro s rest h
  have hdrop : s.dropInput = { s with inputs := rest } := by rw [State.dropInput, h]; rfl
  simp only [step, takeInput, h, hdrop]
  rfl

/-- A field read beyond the capacity raises BoundsError (42_bit_read.md R120). -/
theorem readField_of_cap_lt {n : Nat} {interp : Nat → Int} {s : State}
    (h : s.rd.cap < s.rd.cur + n) : readField n interp s = .next (s.raised .boundsError) := if_pos h

/-- A field write beyond the capacity raises BoundsError (41_bit_write.md R110). -/
theorem writeField_of_cap_lt {n u : Nat} {s : State}
    (h : s.wr.cap < s.wr.cur + n) : writeField n u s = .next (s.raised .boundsError) := if_pos h

/-- Stage 3 of an aligned read beyond the capacity raises BoundsError (44_aligned_read.md R140). -/
theorem readBytes_of_cap_lt {len : Nat} {interp : List Nat → Int} {s : State}
    (h : s.rd.cap < s.rd.cur + 8 * len) :
    readBytes len interp s = .next (s.raised .boundsError) := if_pos h

/-- Stage 3 of an aligned write beyond the capacity raises BoundsError (43_aligned_write.md R130). -/
theorem writeBytes_of_cap_lt {bs : List Nat} {s : State}
    (h : s.wr.cap < s.wr.cur + 8 * bs.length) :
    writeBytes bs s = .next (s.raised .boundsError) := if_pos h

section FieldCommands

variable {s : State} {n : NField}

/-- RD.BITSU with an admitted bit count is a field read (42_bit_read.md R120). -/
theorem exec_rdBitsU_of_le (h : n.toNat ≤ 32) :
    exec (.rdBitsU n) s = readField n.toNat zeroExtend s := if_neg (Nat.not_lt.mpr h)

/-- RD.BITSI with an admitted bit count is a field read (42_bit_read.md R121). -/
theorem exec_rdBitsI_of_le (h1 : 1 ≤ n.toNat) (h : n.toNat ≤ 32) :
    exec (.rdBitsI n) s = readField n.toNat (signExtend n.toNat) s :=
  if_neg (not_or.mpr ⟨Nat.not_lt.mpr h1, Nat.not_lt.mpr h⟩)

/-- WR.BITSU with an admitted bit count and a value that fits is a field write
(41_bit_write.md R110). -/
theorem exec_wrBitsU_of_fits (h : n.toNat ≤ 32) (hv : fitsUnsigned n.toNat s.opA = true) :
    exec (.wrBitsU n) s = writeField n.toNat s.opA.toNat s :=
  (if_neg (Nat.not_lt.mpr h)).trans (if_pos hv)

/-- WR.BITSI with an admitted bit count and a value that fits is a field write
(41_bit_write.md R111). -/
theorem exec_wrBitsI_of_fits (h1 : 1 ≤ n.toNat) (h : n.toNat ≤ 32)
    (hv : fitsSigned n.toNat s.opA = true) :
    exec (.wrBitsI n) s = writeField n.toNat (biased n.toNat s.opA) s :=
  (if_neg (not_or.mpr ⟨Nat.not_lt.mpr h1, Nat.not_lt.mpr h⟩)).trans (if_pos hv)

end FieldCommands

/-! The commands over an empty region at cursor 0, the state of a context after reset. -/

section EmptyRegion

variable {s : State} {n : NField}

theorem cap_lt_of_reset {c : Context} (h : c = Context.reset) {k : Nat} (hk : 1 ≤ k) :
    c.cap < c.cur + k := by
  subst h
  exact (Nat.zero_add k).symm ▸ hk

theorem alignCur_rd_of_reset (h : s.rd = Context.reset) : s.alignCur .rd = s := by
  have hcur : alignUp (s.ctx .rd).cur = (s.ctx .rd).cur := by rw [ctx_rd, h]; decide
  rw [State.alignCur, hcur]
  rfl

theorem alignCur_wr_of_reset (h : s.wr = Context.reset) : s.alignCur .wr = s := by
  have hcur : alignUp (s.ctx .wr).cur = (s.ctx .wr).cur := by rw [ctx_wr, h]; decide
  rw [State.alignCur, hcur]
  rfl

theorem exec_rdBitsU_of_reset (h : s.rd = Context.reset) (h1 : 1 ≤ n.toNat) (h32 : n.toNat ≤ 32) :
    exec (.rdBitsU n) s = .next (s.raised .boundsError) := by
  rw [exec_rdBitsU_of_le h32]
  exact readField_of_cap_lt (cap_lt_of_reset h h1)

theorem exec_rdBitsI_of_reset (h : s.rd = Context.reset) (h1 : 1 ≤ n.toNat) (h32 : n.toNat ≤ 32) :
    exec (.rdBitsI n) s = .next (s.raised .boundsError) := by
  rw [exec_rdBitsI_of_le h1 h32]
  exact readField_of_cap_lt (cap_lt_of_reset h h1)

theorem exec_wrBitsU_of_reset (h : s.wr = Context.reset) (h1 : 1 ≤ n.toNat) (h32 : n.toNat ≤ 32)
    (hv : fitsUnsigned n.toNat s.opA = true) :
    exec (.wrBitsU n) s = .next (s.raised .boundsError) := by
  rw [exec_wrBitsU_of_fits h32 hv]
  exact writeField_of_cap_lt (cap_lt_of_reset h h1)

theorem exec_wrBitsI_of_reset (h : s.wr = Context.reset) (h1 : 1 ≤ n.toNat) (h32 : n.toNat ≤ 32)
    (hv : fitsSigned n.toNat s.opA = true) :
    exec (.wrBitsI n) s = .next (s.raised .boundsError) := by
  rw [exec_wrBitsI_of_fits h1 h32 hv]
  exact writeField_of_cap_lt (cap_lt_of_reset h h1)

theorem exec_alignedRead_of_reset (h : s.rd = Context.reset) {i : Instr}
    (hi : isAlignedRead i = true) : exec i s = .next (s.raised .boundsError) := by
  obtain ⟨len, interp, hlen, hexec⟩ := exec_of_isAlignedRead hi
  rw [hexec, alignedRead, alignCur_rd_of_reset h]
  exact readBytes_of_cap_lt (cap_lt_of_reset h (by omega))

theorem exec_alignedWrite_of_reset (h : s.wr = Context.reset) {i : Instr}
    (hi : isAlignedWrite i = true) (h0 : 0 ≤ s.opA) (h127 : s.opA ≤ 127) :
    exec i s = .next (s.raised .boundsError) := by
  obtain ⟨fits, bytes, hexec, hfits, hlen⟩ := exec_of_isAlignedWrite hi
  rw [hexec]
  simp only [alignedWrite, alignCur_wr_of_reset h, hfits _ h0 h127, if_true]
  exact writeBytes_of_cap_lt (cap_lt_of_reset h (by have := hlen s.opA; omega))

end EmptyRegion

/-- Settles O11: after reset both regions are empty, so every access of a bit or more fails its
bounds test. -/
theorem resetRegistersAndEmptyRegions : Obligations.ResetRegistersAndEmptyRegions := by
  refine ⟨rfl, rfl, rfl, fun p => ⟨fun n h1 h32 => ⟨?_, ?_, fun hv => ?_, fun hv => ?_⟩,
    fun i hi => ?_, fun hv i hi => ?_⟩⟩
  · exact exec_rdBitsU_of_reset rfl h1 h32
  · exact exec_rdBitsI_of_reset rfl h1 h32
  · exact exec_wrBitsU_of_reset rfl h1 h32 (fitsUnsigned_iff.mpr hv)
  · exact exec_wrBitsI_of_reset rfl h1 h32
      (fitsSigned_iff.mpr ⟨hv.1, Int.le_sub_one_of_lt hv.2⟩)
  · exact exec_alignedRead_of_reset rfl hi
  · exact exec_alignedWrite_of_reset rfl hi hv.1 hv.2

end Sys2Proof.Machine
end

section
/-! The memory family: the commands stay inside their region of BUF, and the two bit primitives
invert each other (20_memory.md). -/

namespace Sys2Proof.Machine

/-! ### Writes -/

/-- Settles O24: of the effects only that of a writer command writes BUF, and it keeps every byte
outside the writer's region. -/
theorem writesStayInRegion : Obligations.WritesStayInRegion := by
  intro i s t h
  cases exec_effect h with
  | failed | answers | reads => exact ⟨fun _ => rfl, fun _ _ => rfl⟩
  | opens side => cases side <;> exact ⟨fun _ => rfl, fun _ _ => rfl⟩
  | writes k m hw _ hm => exact ⟨fun hn => absurd hw (by simp [hn]), hm.outside⟩

/-! ### Reads over another BUF -/

/-- MemRead sees the byte at its address only. -/
theorem memRead_congr {size a : Nat} {m m' : Memory}
    (h : Memory.byteAt m' a = Memory.byteAt m a) : memRead size m' a = memRead size m a := by
  unfold memRead; rw [h]

/-- GetBits sees the bytes under its field only (20_memory.md R54). -/
theorem getBits_congr {size base k n : Nat} {m m' : Memory}
    (h : ∀ j < n, Memory.byteAt m' (base + (k + j) / 8) = Memory.byteAt m (base + (k + j) / 8)) :
    getBits size m' base k n = getBits size m base k n := by
  induction n with
  | zero => rfl
  | succ n ih =>
    rw [getBits, getBits, ih fun j hj => h j (by omega), memRead_congr (h n (by omega))]

/-- GetBytes sees the bytes under its bits only (44_aligned_read.md R143). -/
theorem getBytes_congr {size base k n : Nat} {m m' : Memory}
    (h : ∀ j < 8 * n,
      Memory.byteAt m' (base + (k + j) / 8) = Memory.byteAt m (base + (k + j) / 8)) :
    getBytes size m' base k n = getBytes size m base k n := by
  induction n generalizing k with
  | zero => rfl
  | succ n ih =>
    rw [getBytes, getBytes, getBits_congr fun j hj => h j (by omega), ih fun j hj => ?_]
    rw [Nat.add_assoc]
    exact h (8 + j) (by omega)

/-- Memory `m` agrees with the BUF of `s` on the reader's region (20_memory.md R53). -/
def AgreesOnRegion (s : State) (m : Memory) : Prop :=
  ∀ a, s.rd.base ≤ a → a < s.rd.base + s.rd.size → Memory.byteAt m a = Memory.byteAt s.buf a

/-- Two results that are the same but for BUF, which is `m` in the second. -/
def SameOver (m : Memory) : Result → Result → Prop := ResultRel fun t t' => t' = t.setBuf m

section OverBuf

variable {s : State} {m : Memory}

@[simp] theorem setBuf_opA : (s.setBuf m).opA = s.opA := rfl
@[simp] theorem setBuf_opB : (s.setBuf m).opB = s.opB := rfl
@[simp] theorem setBuf_opC : (s.setBuf m).opC = s.opC := rfl

/-- A cursor bit inside the region lies in a byte on which the two memories agree. -/
theorem AgreesOnRegion.byteAt_cursor (h : AgreesOnRegion s m) {k : Nat} (hk : k < s.rd.cap) :
    Memory.byteAt m (s.rd.base + k / 8) = Memory.byteAt s.buf (s.rd.base + k / 8) := by
  unfold Context.cap at hk
  exact h _ (by omega) (by omega)

theorem raise_sameOver (e : ErrorKind) (s : State) (m : Memory) :
    SameOver m (raise e s) (raise e (s.setBuf m)) := .next rfl

theorem reply_sameOver (v : Word) (s : State) (m : Memory) :
    SameOver m (reply v s) (reply v (s.setBuf m)) := .next rfl

/-- A field read sees no byte outside the region (42_bit_read.md R120). -/
theorem readField_sameOver (h : AgreesOnRegion s m) (n : Nat) (interp : Nat → Int) :
    SameOver m (readField n interp s) (readField n interp (s.setBuf m)) := by
  unfold readField
  rw [setBuf_rd, setBuf_buf, setBuf_bufBytes]
  split
  · exact raise_sameOver _ s m
  · rename_i hc
    rw [getBits_congr fun j hj => h.byteAt_cursor (by omega)]
    split
    · exact .fault _
    · exact reply_sameOver _ (s.setCur .rd _) m

/-- Stage 3 of an aligned read sees no byte outside the region (44_aligned_read.md R140). -/
theorem readBytes_sameOver (h : AgreesOnRegion s m) (len : Nat) (interp : List Nat → Int) :
    SameOver m (readBytes len interp s) (readBytes len interp (s.setBuf m)) := by
  unfold readBytes
  rw [setBuf_rd, setBuf_buf, setBuf_bufBytes]
  split
  · exact raise_sameOver _ s m
  · rename_i hc
    rw [getBytes_congr fun j hj => h.byteAt_cursor (by omega)]
    split
    · exact .fault _
    · exact reply_sameOver _ (s.setCur .rd _) m

/-- An aligned read sees no byte outside the region: the alignment keeps the region. -/
theorem alignedRead_sameOver (h : AgreesOnRegion s m) (len : Nat) (interp : List Nat → Int) :
    SameOver m (alignedRead len interp s) (alignedRead len interp (s.setBuf m)) :=
  readBytes_sameOver (s := s.alignCur .rd) h len interp

/-- RD.OPEN sees no byte of BUF (40_context_control.md R100). -/
theorem openContext_rd_sameOver (s : State) (m : Memory) :
    SameOver m (openContext .rd s) (openContext .rd (s.setBuf m)) := by
  unfold openContext
  rw [setBuf_opA, setBuf_opB, setBuf_opC, setBuf_bufBytes]
  split
  · exact raise_sameOver _ s m
  · split
    · exact raise_sameOver _ s m
    · split
      · exact raise_sameOver _ s m
      · exact reply_sameOver _ (s.setCtx .rd _) m

/-- A reader command sees no byte outside the reader's region (20_memory.md R53). -/
theorem exec_sameOver_of_isReader (h : AgreesOnRegion s m) {i : Instr} (hi : isReader i = true) :
    SameOver m (exec i s) (exec i (s.setBuf m)) := by
  have aligned : isAlignedRead i = true → SameOver m (exec i s) (exec i (s.setBuf m)) := fun ha => by
    obtain ⟨len, interp, -, hexec⟩ := exec_of_isAlignedRead ha
    rw [hexec, hexec]
    exact alignedRead_sameOver h len interp
  match i, hi with
  | .rdOpen, _ => exact openContext_rd_sameOver s m
  | .rdBitsU n, _ =>
    simp only [exec, execRdBitsU]
    split
    · exact raise_sameOver _ s m
    · exact readField_sameOver h _ _
  | .rdBitsI n, _ =>
    simp only [exec, execRdBitsI]
    split
    · exact raise_sameOver _ s m
    · exact readField_sameOver h _ _
  | .rdAlign, _ => exact reply_sameOver 0 (s.alignCur .rd) m
  | .rdU8, _ | .rdI8, _ | .rdU16LE, _ | .rdI16LE, _ | .rdU16BE, _ | .rdI16BE, _ => exact aligned rfl

end OverBuf

/-- Settles O25: every byte a reader command reads is under its cursor inside the region. -/
theorem readsStayInRegion : Obligations.ReadsStayInRegion := by
  intro i s t m hi h hm
  obtain ⟨t', ht', rfl⟩ := (exec_sameOver_of_isReader hm hi).exists_next h
  exact ht'

/-! ### The two bit primitives together -/

/-- LOWMASK has the contents of 20_memory.md R56. -/
theorem lowMask_toNat : ∀ t ≤ 8, (lowMask t).toNat = 2 ^ t - 1 := by decide

/-- Settles O35: PutBits leaves the field holding `u`, which is what GetBits answers. -/
theorem putBitsThenGetBits : Obligations.PutBitsThenGetBits := by
  refine ⟨lowMask_toNat, fun size m base k n u _ hu hfit => ?_⟩
  have hin : n ≠ 0 → base + (k + n - 1) / 8 < size := fun _ => by omega
  obtain ⟨m', hput⟩ := putBits_ok m u hin
  obtain ⟨hwritten, -, -⟩ := putBits_cases hput
  refine ⟨m', hput, ?_, fun x hx => ?_⟩
  · rw [getBits_ok m' hin, FieldWritten_field hwritten hu]
  · rw [hwritten x, if_neg (by omega)]

end Sys2Proof.Machine
end

section
/-! The encoding family: command words and the commands they spell (30_encoding.md), the one answer
of every command, and the step that runs it. -/

namespace Sys2Proof.Machine

/-! ### The fields of a command word -/

/-- OPC as a number (30_encoding.md R72). -/
theorem opcField_eq_div (w : CmdWord) : opcField w = w.toNat / 256 := by
  rw [opcField, BitVec.extractLsb'_toNat, Nat.shiftRight_eq_div_pow]
  omega

/-- RSV as a number (30_encoding.md R72). -/
theorem rsvField_eq_mod (w : CmdWord) : rsvField w = w.toNat / 64 % 4 := by
  rw [rsvField, BitVec.extractLsb'_toNat, Nat.shiftRight_eq_div_pow]

/-- N as a number (30_encoding.md R72). -/
theorem nField_toNat (w : CmdWord) : (nField w).toNat = w.toNat % 64 := by
  rw [nField, BitVec.extractLsb'_toNat, Nat.shiftRight_zero]

/-- The three fields make up the word (30_encoding.md R72). -/
theorem word_eq_iff {w w' : CmdWord} :
    w = w' ↔ opcField w = opcField w' ∧ rsvField w = rsvField w' ∧ nField w = nField w' := by
  refine ⟨fun h => h ▸ ⟨rfl, rfl, rfl⟩, fun ⟨hopc, hrsv, hn⟩ => BitVec.eq_of_toNat_eq ?_⟩
  have hn := congrArg BitVec.toNat hn
  rw [opcField_eq_div, opcField_eq_div] at hopc
  rw [rsvField_eq_mod, rsvField_eq_mod] at hrsv
  rw [nField_toNat, nField_toNat] at hn
  omega

/-! ### The opcode map and the commands -/

/-- What the opcode map of 30_encoding.md R74 makes of an opcode and a number its format allows: the
command with that opcode and that number, well formed when a number of format G names a register
(10_state.md R26). -/
theorem fields_of_opcodeMap {o : Nat} {f : Format} {mk : NField → Instr} {n : NField}
    (h : opcodeMap o = some (f, mk)) (hn : f = .Z → n = 0) :
    (mk n).opcode.toNat = o ∧ (mk n).number = n ∧
      ((mk n).wellFormed = true ↔ (f = .G → n.toNat ≤ 6)) := by
  unfold opcodeMap at h
  split at h <;> cases h <;> simp_all [Instr.opcode, Instr.number, Instr.wellFormed]

/-- The opcode map has every command at its opcode, in a format that allows its number
(30_encoding.md R74). -/
theorem opcodeMap_opcode (i : Instr) :
    ∃ f mk, opcodeMap i.opcode.toNat = some (f, mk) ∧ (f = .Z → i.number = 0) ∧
      mk i.number = i := by
  cases i <;> exact ⟨_, _, rfl, by simp [Instr.number], rfl⟩

/-- The tests of the decoder, together (30_encoding.md R75). -/
theorem decode_eq_ok_iff_opcodeMap {w : CmdWord} {i : Instr} :
    decode w = .ok i ↔ rsvField w = 0 ∧ ∃ f mk, opcodeMap (opcField w) = some (f, mk) ∧
      (f = .Z → nField w = 0) ∧ (f = .G → (nField w).toNat ≤ 6) ∧ mk (nField w) = i := by
  unfold decode
  by_cases hrsv : rsvField w = 0
  · rcases hmap : opcodeMap (opcField w) with _ | ⟨f, mk⟩
    · simp [hrsv]
    · rw [if_neg (not_not_intro hrsv)]
      dsimp only
      split_ifs with hz hg <;> simp_all
  · simp [hrsv]

/-- A word spells a command exactly when its fields are the command's opcode, zero and the command's
number, and the command is well formed (30_encoding.md R72, R73, R75): both round trips rest on
this. -/
theorem decode_eq_ok_iff {w : CmdWord} {i : Instr} :
    decode w = .ok i ↔ opcField w = i.opcode.toNat ∧ rsvField w = 0 ∧ nField w = i.number ∧
      i.wellFormed = true := by
  rw [decode_eq_ok_iff_opcodeMap]
  constructor
  · rintro ⟨hrsv, f, mk, hmap, hz, hg, rfl⟩
    obtain ⟨hopc, hnum, hwf⟩ := fields_of_opcodeMap hmap hz
    exact ⟨hopc.symm, hrsv, hnum.symm, hwf.mpr hg⟩
  · rintro ⟨hopc, hrsv, hnum, hwf⟩
    obtain ⟨f, mk, hmap, hz, hmk⟩ := opcodeMap_opcode i
    obtain ⟨-, -, hwf'⟩ := fields_of_opcodeMap hmap hz
    rw [hmk] at hwf'
    rw [hopc, hnum]
    exact ⟨hrsv, f, mk, hmap, hz, hwf'.mp hwf, hmk⟩

/-! ### The round trips -/

/-- Settles O1: the fields of a command's word are the ones the decoder asks for. -/
theorem decodeEncodeRoundTrip : Obligations.DecodeEncodeRoundTrip := by
  intro i hwf
  obtain ⟨hopc, hrsv, hnum⟩ := Laws.encodeFields_of_word i.opcode i.number
  exact decode_eq_ok_iff.mpr ⟨hopc, hrsv, hnum, hwf⟩

/-- Settles O2: a word and the word of its command agree in the three fields. -/
theorem encodeDecodeRoundTrip : Obligations.EncodeDecodeRoundTrip := by
  intro w i h
  obtain ⟨hopc, hrsv, hnum, hwf⟩ := decode_eq_ok_iff.mp h
  obtain ⟨hopc', hrsv', hnum'⟩ := Laws.encodeFields_of_word i.opcode i.number
  exact ⟨word_eq_iff.mpr ⟨hopc'.trans hopc.symm, hrsv'.trans hrsv.symm, hnum'.trans hnum.symm⟩, hwf⟩

/-- Settles O5: each of the words is the word of its command. -/
theorem sampleWordsDecode : Obligations.SampleWordsDecode :=
  ⟨decodeEncodeRoundTrip (.getreg 5) rfl, decodeEncodeRoundTrip .rdOpen rfl,
    decodeEncodeRoundTrip (.wrBitsU 3) rfl, decodeEncodeRoundTrip (.rdBitsI 12) rfl,
    decodeEncodeRoundTrip .wrI16BE rfl, decodeEncodeRoundTrip .rdU16BE rfl,
    decodeEncodeRoundTrip .rle3Dec rfl, decodeEncodeRoundTrip .b64Dec rfl,
    decodeEncodeRoundTrip .rdAlign rfl⟩

/-! ### The rows of the opcode table -/

/-- What the masks keep of a word, and what the patterns hold: OPC and RSV are kept, and so is N in
format Z only; RSV and N are zero (30_encoding.md R73, R74). -/
theorem row_mask_and_pattern : ∀ r ∈ opcodeTable,
    r.mask.extractLsb' 8 8 = BitVec.allOnes 8 ∧ r.mask.extractLsb' 6 2 = BitVec.allOnes 2 ∧
      nField r.mask = (if r.format = .Z then BitVec.allOnes 6 else 0) ∧
      rsvField r.pattern = 0 ∧ nField r.pattern = 0 := by decide

/-- A mask of ones over OPC keeps it. -/
theorem opcField_and {w m : CmdWord} (hm : m.extractLsb' 8 8 = BitVec.allOnes 8) :
    opcField (w &&& m) = opcField w := by
  rw [opcField, BitVec.extractLsb'_and, hm, BitVec.and_allOnes, opcField]

/-- A mask of ones over RSV keeps it. -/
theorem rsvField_and {w m : CmdWord} (hm : m.extractLsb' 6 2 = BitVec.allOnes 2) :
    rsvField (w &&& m) = rsvField w := by
  rw [rsvField, BitVec.extractLsb'_and, hm, BitVec.and_allOnes, rsvField]

theorem nField_and (w m : CmdWord) : nField (w &&& m) = nField w &&& nField m :=
  BitVec.extractLsb'_and

/-- When a word selects a row: by OPC and RSV, and in format Z by N too (30_encoding.md R74). -/
theorem selects_row_iff {r : OpcodeRow} (hr : r ∈ opcodeTable) (w : CmdWord) :
    w &&& r.mask = r.pattern ↔
      opcField w = opcField r.pattern ∧ rsvField w = 0 ∧ (r.format = .Z → nField w = 0) := by
  obtain ⟨hopc, hrsv, hn, hrsv0, hn0⟩ := row_mask_and_pattern r hr
  rw [word_eq_iff, opcField_and hopc, rsvField_and hrsv, nField_and, hn, hrsv0, hn0]
  by_cases hz : r.format = .Z
  · rw [if_pos hz, BitVec.and_allOnes]
    simp [hz]
  · simp [hz]

/-- The table has a row for every entry of the opcode map, with its format (30_encoding.md R74). -/
theorem row_of_opcodeMap {o : Nat} {f : Format} {mk : NField → Instr}
    (h : opcodeMap o = some (f, mk)) :
    ∃ r ∈ opcodeTable, opcField r.pattern = o ∧ r.format = f := by
  unfold opcodeMap at h
  split at h <;> cases h <;> decide

/-- The opcode map has an entry for every row of the table, with its format (30_encoding.md R74). -/
theorem opcodeMap_of_row {r : OpcodeRow} (hr : r ∈ opcodeTable) :
    ∃ mk, opcodeMap (opcField r.pattern) = some (r.format, mk) := by
  have h : ∀ r ∈ opcodeTable, (opcodeMap (opcField r.pattern)).map (·.1) = some r.format := by
    decide
  simpa using h r hr

/-- Two rows of one opcode are one row (30_encoding.md R74). -/
theorem row_eq_of_opcField_eq {r r' : OpcodeRow} (hr : r ∈ opcodeTable) (hr' : r' ∈ opcodeTable)
    (h : opcField r.pattern = opcField r'.pattern) : r = r' :=
  List.inj_on_of_nodup_map (f := fun r : OpcodeRow => opcField r.pattern) (by decide) hr hr' h

/-- Settles O3: the decoder's tests are the selection of a row, and the opcode tells the rows
apart. -/
theorem decodableWordsSelectOneTableRow : Obligations.DecodableWordsSelectOneTableRow := by
  refine fun w => ⟨⟨?_, ?_⟩, fun r hr r' hr' h h' => ?_⟩
  · rintro ⟨i, hi⟩
    obtain ⟨hrsv, f, mk, hmap, hz, hg, -⟩ := decode_eq_ok_iff_opcodeMap.mp hi
    obtain ⟨r, hr, hopc, rfl⟩ := row_of_opcodeMap hmap
    exact ⟨r, hr, (selects_row_iff hr w).mpr ⟨hopc.symm, hrsv, hz⟩, hg⟩
  · rintro ⟨r, hr, hsel, hg⟩
    obtain ⟨hopc, hrsv, hz⟩ := (selects_row_iff hr w).mp hsel
    obtain ⟨mk, hmap⟩ := opcodeMap_of_row hr
    exact ⟨_, decode_eq_ok_iff_opcodeMap.mpr ⟨hrsv, _, mk, hopc ▸ hmap, hz, hg, rfl⟩⟩
  · have hopc := ((selects_row_iff hr w).mp h).1
    have hopc' := ((selects_row_iff hr' w).mp h').1
    exact row_eq_of_opcField_eq hr hr' (hopc.symm.trans hopc')

/-! ### Reserved words -/

/-- The opcodes that the table of 30_encoding.md R74 uses. -/
theorem opcode_ranges {i : Instr} {o : Nat} (h : o = i.opcode.toNat) :
    o = 0x01 ∨ (0x10 ≤ o ∧ o ≤ 0x19) ∨ (0x20 ≤ o ∧ o ≤ 0x29) ∨ (0x30 ≤ o ∧ o ≤ 0x35) := by
  subst h
  cases i <;> simp [Instr.opcode]

/-- Only GETREG and the four field commands carry a number (30_encoding.md R73). -/
theorem number_eq_zero_or {i : Instr} {o : Nat} (h : o = i.opcode.toNat) :
    i.number = 0 ∨ o = 0x01 ∨ o = 0x11 ∨ o = 0x12 ∨ o = 0x21 ∨ o = 0x22 := by
  subst h
  cases i <;> simp [Instr.opcode, Instr.number]

/-- A spelled GETREG names one of the seven registers (10_state.md R26). -/
theorem number_le_six {i : Instr} (hwf : i.wellFormed = true) (ho : i.opcode.toNat = 0x01) :
    i.number.toNat ≤ 6 := by
  cases i <;> simp_all [Instr.opcode, Instr.number, Instr.wellFormed]

/-- The first clauses of 30_encoding.md R76: the words that spell no command. -/
def reservedWord (w : Nat) : Prop :=
  w / 256 = 0 ∨ (0x02 ≤ w / 256 ∧ w / 256 ≤ 0x0F) ∨ (0x1A ≤ w / 256 ∧ w / 256 ≤ 0x1F) ∨
    (0x2A ≤ w / 256 ∧ w / 256 ≤ 0x2F) ∨ 0x36 ≤ w / 256 ∨ w / 64 % 4 ≠ 0 ∨
    (w / 256 ≠ 0x01 ∧ ¬ (w / 256 = 0x11 ∨ w / 256 = 0x12 ∨ w / 256 = 0x21 ∨ w / 256 = 0x22) ∧
      w % 64 ≠ 0) ∨ (w / 256 = 0x01 ∧ 7 ≤ w % 64)

/-- A reserved word does not decode: no command has its fields. -/
theorem decode_of_reservedWord {w : CmdWord} (h : reservedWord w.toNat) :
    ∃ x, decode w = .error x := by
  rcases hd : decode w with x | i
  · exact ⟨x, rfl⟩
  · obtain ⟨hopc, hrsv, hnum, hwf⟩ := decode_eq_ok_iff.mp hd
    have hnum := congrArg BitVec.toNat hnum
    rw [opcField_eq_div] at hopc
    rw [rsvField_eq_mod] at hrsv
    rw [nField_toNat] at hnum
    have hranges := opcode_ranges hopc
    have hzero : i.number.toNat = 0 ∨ _ := (number_eq_zero_or hopc).imp_left (congrArg BitVec.toNat)
    have hsix := number_le_six hwf
    unfold reservedWord at h
    omega

/-- The four field commands at a number N (30_encoding.md R73, format F). -/
def fieldCommands (n : NField) : List Instr := [.rdBitsU n, .rdBitsI n, .wrBitsU n, .wrBitsI n]

/-- A field command with a bit count above FIELD_MAX raises ValueRangeError before it looks at
anything else (41_bit_write.md R110, R111, 42_bit_read.md R120, R121). -/
theorem exec_fieldCommand_of_fieldMax_lt {n : NField} (h : fieldMax < n.toNat) {i : Instr}
    (hi : i ∈ fieldCommands n) (s : State) :
    exec i s = .next (s.failedWith .valueRangeError) := by
  simp only [fieldCommands, List.mem_cons, List.not_mem_nil, or_false] at hi
  rcases hi with rfl | rfl | rfl | rfl
  · exact if_pos h
  · exact if_pos (.inr h)
  · exact if_pos h
  · exact if_pos (.inr h)

/-- A word of a field opcode with RSV zero spells a field command with its N, whatever N is
(30_encoding.md R73). -/
theorem decode_of_fieldOpcode {w : CmdWord} (hrsv : rsvField w = 0)
    (hopc : opcField w = 0x11 ∨ opcField w = 0x12 ∨ opcField w = 0x21 ∨ opcField w = 0x22) :
    ∃ i ∈ fieldCommands (nField w), decode w = .ok i := by
  rcases hopc with h | h | h | h
  · exact ⟨.rdBitsU (nField w), by simp [fieldCommands],
      decode_eq_ok_iff.mpr ⟨h, hrsv, rfl, rfl⟩⟩
  · exact ⟨.rdBitsI (nField w), by simp [fieldCommands],
      decode_eq_ok_iff.mpr ⟨h, hrsv, rfl, rfl⟩⟩
  · exact ⟨.wrBitsU (nField w), by simp [fieldCommands],
      decode_eq_ok_iff.mpr ⟨h, hrsv, rfl, rfl⟩⟩
  · exact ⟨.wrBitsI (nField w), by simp [fieldCommands],
      decode_eq_ok_iff.mpr ⟨h, hrsv, rfl, rfl⟩⟩

/-- Settles O4: a reserved word does not decode; a field word does, and its bit count fails. -/
theorem reservedWordsRaiseIllegalCommand : Obligations.ReservedWordsRaiseIllegalCommand := by
  intro p s
  have hillegal (h : reservedWord p.cw.toNat) :
      issue p s = .next ({ s with packet := p }.failedWith .illegalCommand) := by
    obtain ⟨x, hx⟩ := decode_of_reservedWord h
    exact issue_illegal hx s
  refine ⟨hillegal, fun hw => hillegal ?_, fun ⟨hopc, hrsv, hn⟩ => ?_⟩
  · unfold reservedWord
    omega
  · rw [← opcField_eq_div] at hopc
    rw [← rsvField_eq_mod] at hrsv
    rw [← nField_toNat] at hn
    obtain ⟨i, hi, hd⟩ := decode_of_fieldOpcode hrsv hopc
    rw [issue_ok hd]
    exact exec_fieldCommand_of_fieldMax_lt hn hi _

/-! ### The step of a packet -/

/-- With a packet first among the inputs, a step takes it and issues it (30_encoding.md R70). -/
theorem step_command {s : State} {p : Packet} {rest : List Input}
    (h : s.inputs = .command p :: rest) : step s = issue p { s with inputs := rest } := by
  simp [step, takeInput, State.dropInput, h]

/-- Settles O7: the packet is taken, and its word decodes. -/
theorem stepRunsDecodedCommand : Obligations.StepRunsDecodedCommand := by
  intro s p rest i hin hd
  rw [step_command hin, issue_ok hd]
  rfl

/-- Settles O8: the packet is taken, and its word is refused before the command runs. -/
theorem stepAnswersIllegalCommand : Obligations.StepAnswersIllegalCommand := by
  intro s p rest x hin hd
  rw [step_command hin, issue_illegal hd]
  rfl

/-! ### The answer of a command -/

/-- Settles O15: every effect of a command ends in one response and writes none of the other three
fields. -/
theorem commandGivesOneResponse : Obligations.CommandGivesOneResponse := by
  intro i s t h
  cases exec_effect h with
  | failed | answers => exact ⟨⟨_, rfl⟩, rfl, rfl, rfl⟩
  | opens | reads | writes => simp

/-- Settles O19: the results that an effect leaves open are those of the reads, of GETREG and of the
stream commands. -/
theorem unusedResultsAreZero : Obligations.UnusedResultsAreZero := by
  intro i s t r h hresp
  cases exec_effect h with
  | failed e =>
    obtain rfl : (⟨e.code, 0, []⟩ : Response) = r := by simpa using hresp
    exact ⟨fun _ => rfl, fun _ => rfl⟩
  | answers v out _ _ hv hout =>
    obtain rfl : (⟨0, v, out⟩ : Response) = r := by simpa using hresp
    exact ⟨hv, hout⟩
  | reads k v _ _ hv =>
    obtain rfl : (⟨0, v, []⟩ : Response) = r := by simpa using hresp
    exact ⟨hv, fun _ => rfl⟩
  | opens | writes =>
    obtain rfl : (⟨0, 0, []⟩ : Response) = r := by simpa using hresp
    exact ⟨fun _ => rfl, fun _ => rfl⟩

/-! ### No command stops -/

/-- An OPEN answers in every state (40_context_control.md R100, R101). -/
theorem openContext_next (side : Side) (s : State) : ∃ t, openContext side s = .next t := by
  unfold openContext
  split_ifs <;> exact ⟨_, rfl⟩

/-- An aligned read over a legal context answers (44_aligned_read.md R140). -/
theorem exec_alignedRead_next {i : Instr} (hi : isAlignedRead i = true) {s : State}
    (h : s.rd.legal s.bufBytes) : ∃ t, exec i s = .next t := by
  obtain ⟨len, interp, -, hexec⟩ := exec_of_isAlignedRead hi
  rw [hexec]
  exact readBytes_next (alignCur_rd_cur s) (by simpa using h.1)

/-- An aligned write over a legal context answers (43_aligned_write.md R130). -/
theorem exec_alignedWrite_next {i : Instr} (hi : isAlignedWrite i = true) {s : State}
    (h : s.wr.legal s.bufBytes) : ∃ t, exec i s = .next t := by
  obtain ⟨fits, bytes, hexec, -⟩ := exec_of_isAlignedWrite hi
  rw [hexec, alignedWrite]
  split
  · exact writeBytes_next (alignCur_wr_cur s) (by simpa using h.1)
  · exact ⟨_, rfl⟩

/-- A stream command answers in every state (10_state.md R27). -/
theorem exec_stream_next {i : Instr} (hi : isStream i = true) (s : State) :
    ∃ t, exec i s = .next t := by
  obtain ⟨f, -, hexec⟩ := exec_of_isStream hi
  rw [hexec]
  cases f s.opA s.packet.inp <;> exact ⟨_, rfl⟩

/-- Every command answers in a state whose contexts are legal. -/
theorem exec_next (i : Instr) {s : State} (hrd : s.rd.legal s.bufBytes)
    (hwr : s.wr.legal s.bufBytes) : ∃ t, exec i s = .next t := by
  cases i with
  | getreg n =>
    simp only [exec, execGetreg]
    split <;> exact ⟨_, rfl⟩
  | rdOpen => exact openContext_next .rd s
  | wrOpen => exact openContext_next .wr s
  | rdBitsU n =>
    simp only [exec, execRdBitsU]
    split
    · exact ⟨_, rfl⟩
    · exact readField_next hrd
  | rdBitsI n =>
    simp only [exec, execRdBitsI]
    split
    · exact ⟨_, rfl⟩
    · exact readField_next hrd
  | wrBitsU n =>
    simp only [exec, execWrBitsU]
    split_ifs
    · exact ⟨_, rfl⟩
    · exact writeField_next hwr
    · exact ⟨_, rfl⟩
  | wrBitsI n =>
    simp only [exec, execWrBitsI]
    split_ifs
    · exact ⟨_, rfl⟩
    · exact writeField_next hwr
    · exact ⟨_, rfl⟩
  | rdAlign | wrAlign => exact ⟨_, rfl⟩
  | rdU8 | rdI8 | rdU16LE | rdI16LE | rdU16BE | rdI16BE => exact exec_alignedRead_next rfl hrd
  | wrU8 | wrI8 | wrU16LE | wrI16LE | wrU16BE | wrI16BE => exact exec_alignedWrite_next rfl hwr
  | rleEnc | rleDec | rle3Enc | rle3Dec | b64Enc | b64Dec => exact exec_stream_next rfl s

/-- Settles O14: a step waits, resets, refuses a word or runs a command, and each answers. -/
theorem stepNeverStops : Obligations.StepNeverStops := by
  intro s ⟨_, _, _, hrd, hwr, _⟩
  obtain ⟨-, h⟩ | ⟨_, -, h⟩ | ⟨p, _, _, -, -, h⟩ | ⟨p, _, i, -, -, h⟩ := step_cases (s := s) rfl
  · exact ⟨_, h⟩
  · exact ⟨_, h⟩
  · exact ⟨_, h⟩
  · rw [h]
    exact exec_next i hrd hwr

end Sys2Proof.Machine
end

section
/-! The context and control family: the two OPENs and GETREG as their rules say
(40_context_control.md). -/

namespace Sys2Proof.Machine

/-! ### The OPENs -/

/-- Opening a context, with its tests as one chain (40_context_control.md R100, R101). -/
theorem openContext_eq (side : Side) (s : State) :
    openContext side s = .next
      (if s.opA < 0 ∨ s.opB < 0 then s.failedWith .valueRangeError
      else if s.opA + s.opB > s.bufBytes then s.failedWith .boundsError
      else if s.opC < 0 ∨ s.opC > 8 * s.opB then s.failedWith .boundsError
      else (s.setCtx side ⟨s.opA.toNat, s.opB.toNat, s.opC.toNat⟩).answered 0 []) := by
  unfold openContext
  split_ifs <;> rfl

/-- Settles O27: RD.OPEN opens the reader's context. -/
theorem rdOpenFollowsRule : Obligations.RdOpenFollowsRule := fun s =>
  ⟨decodeEncodeRoundTrip .rdOpen rfl, openContext_eq .rd s⟩

/-- Settles O28: WR.OPEN opens the writer's context. -/
theorem wrOpenFollowsRule : Obligations.WrOpenFollowsRule := fun s =>
  ⟨decodeEncodeRoundTrip .wrOpen rfl, openContext_eq .wr s⟩

/-! ### GETREG -/

/-- A word written as `256 * o` plus a number `n`, as the rules of the numbered commands write theirs,
has the fields `o`, zero and `n` (30_encoding.md R72). -/
theorem fields_of_toNat_add {w : CmdWord} {o : Nat} {n : NField}
    (h : w.toNat = 256 * o + n.toNat) : opcField w = o ∧ rsvField w = 0 ∧ nField w = n := by
  have hn : n.toNat < 64 := n.isLt
  refine ⟨?_, ?_, BitVec.eq_of_toNat_eq ?_⟩
  · rw [opcField_eq_div]; omega
  · rw [rsvField_eq_mod]; omega
  · rw [nField_toNat]; omega

/-- The fields of GETREG's word (40_context_control.md R104). -/
theorem fields_of_getregWord (n : NField) :
    opcField (0x0100 + n.zeroExtend 16) = 0x01 ∧ rsvField (0x0100 + n.zeroExtend 16) = 0 ∧
      nField (0x0100 + n.zeroExtend 16) = n :=
  fields_of_toNat_add (by bv_omega)

/-- A word of GETREG's opcode with RSV zero and a number above 6 names no register
(30_encoding.md R75). -/
theorem decode_of_reservedRegister {w : CmdWord} (hopc : opcField w = 0x01) (hrsv : rsvField w = 0)
    (hn : 6 < (nField w).toNat) : decode w = .error .reservedRegister := by
  simp [decode, hrsv, hopc, opcodeMap, hn]

/-- The registers in the order of their numbers (10_state.md R26). -/
def State.registers (s : State) : List Nat :=
  [s.rd.base, s.rd.size, s.rd.cur, s.wr.base, s.wr.size, s.wr.cur, s.err.toNat]

theorem register_eq_getElem? (s : State) (n : Nat) : s.register n = s.registers[n]? := by
  match n with
  | 0 | 1 | 2 | 3 | 4 | 5 | 6 => rfl
  | n + 7 => rfl

/-- The registers of a legal context are values of 64 bits (00_scope.md R6, 10_state.md R24). -/
theorem legal_registers_lt {size : Nat} {c : Context} (hsize : 8 * size < 2 ^ 63)
    (h : c.legal size) : c.base < 2 ^ 63 ∧ c.size < 2 ^ 63 ∧ c.cur < 2 ^ 63 := by
  obtain ⟨hregion, hcur⟩ := h
  omega

/-- Every register of a state of the invariant is a value of 64 bits. -/
theorem registers_lt {s : State} (h : s.Inv) : ∀ v ∈ s.registers, v < 2 ^ 63 := by
  obtain ⟨-, -, hsize, hrd, hwr, -⟩ := h
  have herr : s.err.toNat < 8 := s.err.isLt
  simp only [State.registers, List.forall_mem_cons]
  obtain ⟨hrb, hrs, hrc⟩ := legal_registers_lt hsize hrd
  obtain ⟨hwb, hws, hwc⟩ := legal_registers_lt hsize hwr
  exact ⟨hrb, hrs, hrc, hwb, hws, hwc, by omega, nofun⟩

/-- GETREG of a register that exists answers its value (40_context_control.md R104). -/
theorem exec_getreg_of_register {n : NField} {s : State} {v : Nat}
    (h : s.register n.toNat = some v) :
    exec (.getreg n) s = .next (s.answered (resultWord v) []) := by
  simp only [exec, execGetreg, h]
  rfl

/-- GETREG answers one of the registers, whose value V holds. -/
theorem exec_getreg_of_le {n : NField} (hn : n.toNat ≤ 6) {s : State} (hs : s.Inv) :
    ∃ v : Word, v.toInt = ((s.registers.getD n.toNat 0 : Nat) : Int) ∧
      exec (.getreg n) s = .next (s.answered v []) := by
  have hlen : n.toNat < s.registers.length := Nat.lt_succ_of_le hn
  have hlt := registers_lt hs _ (List.getElem_mem hlen)
  refine ⟨resultWord (s.registers[n.toNat] : Nat), ?_, exec_getreg_of_register ?_⟩
  · rw [List.getD_eq_getElem _ _ hlen]
    exact resultWord_toInt (by omega) (by omega)
  · rw [register_eq_getElem?, List.getElem?_eq_getElem hlen]

/-- Settles O29: a number up to 6 is decoded and read; one above 6 is refused by the decoder. -/
theorem getregFollowsRule : Obligations.GetregFollowsRule := by
  intro n s hs
  obtain ⟨hopc, hrsv, hnum⟩ := fields_of_getregWord n
  split_ifs with hn
  · exact ⟨decode_eq_ok_iff.mpr ⟨hopc, hrsv, hnum, by simpa [Instr.wellFormed] using hn⟩,
      exec_getreg_of_le hn hs⟩
  · have hd : decode (0x0100 + n.zeroExtend 16) = .error .reservedRegister :=
      decode_of_reservedRegister hopc hrsv (by rw [hnum]; omega)
    exact ⟨hd, fun p hp => issue_illegal (hp ▸ hd) s⟩

end Sys2Proof.Machine
end

section
/-! The bit-write family: the two field writes and the alignments as their rules say
(41_bit_write.md, 42_bit_read.md R122). -/

namespace Sys2Proof.Machine

/-! ### The words of the field commands -/

/-- A word written as `256 * OPC` plus N spells its command (30_encoding.md R72, R73). -/
theorem decode_of_toNat_add {w : CmdWord} {i : Instr} (hwf : i.wellFormed = true)
    (h : w.toNat = 256 * i.opcode.toNat + i.number.toNat) : decode w = .ok i := by
  obtain ⟨hopc, hrsv, hn⟩ := fields_of_toNat_add h
  exact decode_eq_ok_iff.mpr ⟨hopc, hrsv, hn, hwf⟩

/-! ### The field a write stores -/

/-- PutBits of the low `n` bits of A stores the field that the rules name (20_memory.md R55,
41_bit_write.md R113). -/
theorem fieldStored_of_fieldWritten {m m' : Memory} {x n : Nat} {a : Word}
    (h : FieldWritten m m' x n (a.toNat % 2 ^ n)) : FieldStored m m' x n a := by
  refine ⟨fun y => ?_, fun addr haddr => FieldWritten_byte h haddr⟩
  rw [h y]
  split_ifs with hy
  · exact pattern_testBit a (by omega)
  · rfl

/-- A field write of the low `n` bits of A inside the capacity stores them, advances the cursor, and
changes nothing else (41_bit_write.md R110). -/
theorem writeField_of_le_cap {n u : Nat} {s : State} (hwr : s.wr.legal s.bufBytes)
    (hu : u = s.packet.a.toNat % 2 ^ n) (hcap : s.wr.cur + n ≤ s.wr.cap) :
    ∃ m, FieldStored s.buf m s.wr.bitPos n s.packet.a ∧
      writeField n u s = .next
        ({ s with buf := m, wr := { s.wr with cur := s.wr.cur + n } }.answered 0 []) := by
  subst hu
  obtain ⟨t, ht⟩ := writeField_next (u := s.packet.a.toNat % 2 ^ n) hwr
  obtain ⟨hlt, -⟩ | ⟨-, m, hm, -, -, rfl⟩ := writeField_cases ht
  · exact absurd hcap (Nat.not_le.mpr hlt)
  · exact ⟨m, fieldStored_of_fieldWritten hm, ht⟩

/-! ### The field writes -/

/-- The value test of WR.BITSU, as its rule words the failure (41_bit_write.md R110). -/
theorem fitsUnsigned_opA_iff {n : Nat} {s : State} : fitsUnsigned n s.opA = true ↔
    ¬ (s.packet.a.toInt < 0 ∨ s.packet.a.toInt ≥ 2 ^ n) := by
  rw [fitsUnsigned_iff, State.opA]
  omega

/-- The value test of WR.BITSI, as its rule words the failure (41_bit_write.md R111). -/
theorem fitsSigned_opA_iff {n : Nat} {s : State} : fitsSigned n s.opA = true ↔
    ¬ (s.packet.a.toInt < -(2 ^ (n - 1)) ∨ s.packet.a.toInt > 2 ^ (n - 1) - 1) := by
  rw [fitsSigned_iff, State.opA]
  omega

/-- WR.BITSU of a value that does not fit raises ValueRangeError, whatever the bit count
(41_bit_write.md R110). -/
theorem exec_wrBitsU_of_not_fits {n : NField} {s : State}
    (hv : ¬ fitsUnsigned n.toNat s.opA = true) :
    exec (.wrBitsU n) s = .next (s.failedWith .valueRangeError) := by
  simp only [exec, execWrBitsU, if_neg hv, ite_self]
  rfl

/-- WR.BITSI of a value that does not fit raises ValueRangeError, whatever the bit count
(41_bit_write.md R111). -/
theorem exec_wrBitsI_of_not_fits {n : NField} {s : State}
    (hv : ¬ fitsSigned n.toNat s.opA = true) :
    exec (.wrBitsI n) s = .next (s.failedWith .valueRangeError) := by
  simp only [exec, execWrBitsI, if_neg hv, ite_self]
  rfl

/-- WR.BITSI of no bits raises ValueRangeError (41_bit_write.md R111). -/
theorem exec_wrBitsI_of_lt_one {n : NField} (h : n.toNat < 1) (s : State) :
    exec (.wrBitsI n) s = .next (s.failedWith .valueRangeError) := if_pos (.inl h)

/-- Settles O30: past the count and the value, WR.BITSU is a field write of the low bits of A. -/
theorem wrBitsUFollowsRule : Obligations.WrBitsUFollowsRule := by
  intro n s ⟨_, _, _, _, hwr, _⟩
  refine ⟨decode_of_toNat_add rfl (by simp only [Instr.opcode, Instr.number]; bv_omega), ?_⟩
  split_ifs with hn hv hcap
  · exact exec_fieldCommand_of_fieldMax_lt hn (by simp [fieldCommands]) s
  · exact exec_wrBitsU_of_not_fits fun hfits => fitsUnsigned_opA_iff.mp hfits hv
  all_goals
    have hfits := fitsUnsigned_opA_iff.mpr hv
    rw [exec_wrBitsU_of_fits (Nat.not_lt.mp hn) hfits]
  · exact writeField_of_cap_lt hcap
  · exact writeField_of_le_cap hwr (unsigned_pattern (by omega) hfits) (Nat.not_lt.mp hcap)

/-- Settles O31: past the count and the value, WR.BITSI is a field write of the low bits of A, whose
bias is its two's complement. -/
theorem wrBitsIFollowsRule : Obligations.WrBitsIFollowsRule := by
  intro n s ⟨_, _, _, _, hwr, _⟩
  refine ⟨decode_of_toNat_add rfl (by simp only [Instr.opcode, Instr.number]; bv_omega), ?_⟩
  split_ifs with hn hv hcap
  · obtain hn | hn := hn
    · exact exec_wrBitsI_of_lt_one hn s
    · exact exec_fieldCommand_of_fieldMax_lt hn (by simp [fieldCommands]) s
  · exact exec_wrBitsI_of_not_fits fun hfits => fitsSigned_opA_iff.mp hfits hv
  all_goals
    have hfits := fitsSigned_opA_iff.mpr hv
    rw [exec_wrBitsI_of_fits (by omega) (by omega) hfits]
  · exact writeField_of_cap_lt hcap
  · exact writeField_of_le_cap hwr (signed_pattern (by omega) (by omega) hfits)
      (Nat.not_lt.mp hcap)

/-! ### The alignments -/

/-- The aligned cursor is the next byte boundary, legal when the cursor is (20_memory.md R60). -/
theorem alignUp_boundary (c : Context) :
    alignUp c.cur % 8 = 0 ∧ c.cur ≤ alignUp c.cur ∧ alignUp c.cur < c.cur + 8 ∧
      (c.cur ≤ 8 * c.size → alignUp c.cur ≤ 8 * c.size) := by
  obtain ⟨hle, hlt, hmod⟩ := alignUp_spec c.cur
  exact ⟨hmod, hle, hlt, alignUp_le⟩

/-- WR.ALIGN writes the writer's cursor only (41_bit_write.md R112). -/
theorem exec_wrAlign (s : State) : exec .wrAlign s =
    .next ({ s with wr := { s.wr with cur := alignUp s.wr.cur } }.answered 0 []) := rfl

/-- RD.ALIGN writes the reader's cursor only (42_bit_read.md R122). -/
theorem exec_rdAlign (s : State) : exec .rdAlign s =
    .next ({ s with rd := { s.rd with cur := alignUp s.rd.cur } }.answered 0 []) := rfl

/-- Settles O34: the boundary is the aligned cursor. -/
theorem alignFollowsRule : Obligations.AlignFollowsRule := by
  refine ⟨decodeEncodeRoundTrip .wrAlign rfl, decodeEncodeRoundTrip .rdAlign rfl, fun s => ⟨?_, ?_⟩⟩
  · obtain ⟨hmod, hle, hlt, hlegal⟩ := alignUp_boundary s.wr
    exact ⟨_, hmod, hle, hlt, hlegal, exec_wrAlign s⟩
  · obtain ⟨hmod, hle, hlt, hlegal⟩ := alignUp_boundary s.rd
    exact ⟨_, hmod, hle, hlt, hlegal, exec_rdAlign s⟩

end Sys2Proof.Machine
end

section
/-! The bit-read family: the two field reads as their rules say, and the field that a write leaves for
a read (42_bit_read.md). -/

namespace Sys2Proof.Machine

/-! ### The values of a field -/

/-- Sign extension in the words of its rule (42_bit_read.md R121). -/
theorem signExtend_eq (n u : Nat) : signExtend n u =
    if (u : Int) ≥ 2 ^ (n - 1) then (u : Int) - 2 ^ n else (u : Int) := by
  have hcast : ((2 ^ (n - 1) : Nat) : Int) = 2 ^ (n - 1) := by push_cast; rfl
  simp only [signExtend, ge_iff_le, ← hcast, Int.ofNat_le]

/-- The bias as an integer: a value in range is never below `-2^n` (41_bit_write.md R111). -/
theorem biased_eq {n : Nat} {v : Int} (h : fitsSigned n v = true) :
    (biased n v : Int) = if v < 0 then v + 2 ^ n else v := by
  obtain ⟨hlo, -⟩ := fitsSigned_iff.mp h
  have hle : (2 : Int) ^ (n - 1) ≤ 2 ^ n := pow_le_pow_right₀ (by decide) (Nat.sub_le n 1)
  unfold biased
  split <;> omega

section ResultOfField

variable {n u : Nat}

/-- V holds the unsigned value of a field (42_bit_read.md R120). -/
theorem resultWord_zeroExtend_toInt (hn : n ≤ 32) (hu : u < 2 ^ n) :
    (resultWord (zeroExtend u)).toInt = u := by
  have hle : 2 ^ n ≤ 2 ^ 32 := Nat.pow_le_pow_right (by decide) hn
  unfold zeroExtend
  exact resultWord_toInt (by omega) (by omega)

/-- V holds the sign-extended value of a field (42_bit_read.md R121). -/
theorem resultWord_signExtend_toInt (h1 : 1 ≤ n) (hn : n ≤ 32) (hu : u < 2 ^ n) :
    (resultWord (signExtend n u)).toInt =
      if (u : Int) ≥ 2 ^ (n - 1) then (u : Int) - 2 ^ n else (u : Int) := by
  obtain ⟨hlo, hhi⟩ := signExtend_range h1 hu
  have hle : (2 : Int) ^ (n - 1) ≤ 2 ^ 32 := pow_le_pow_right₀ (by decide) (by omega)
  rw [resultWord_toInt (by omega) (by omega), signExtend_eq]

end ResultOfField

/-- The result that stands for the integer of operand A is A. -/
theorem resultWord_of_toInt (a : Word) : resultWord a.toInt = a := BitVec.ofInt_toInt

/-! ### The field reads -/

/-- A field read inside the capacity answers the field, advances the cursor, and changes nothing else
(42_bit_read.md R120). -/
theorem readField_of_le_cap {n : Nat} (interp : Nat → Int) {s : State}
    (hrd : s.rd.legal s.bufBytes) (hcap : s.rd.cur + n ≤ s.rd.cap) :
    readField n interp s = .next
      ({ s with rd := { s.rd with cur := s.rd.cur + n } }.answered
        (resultWord (interp (Memory.field s.buf s.rd.bitPos n))) []) := by
  obtain ⟨t, ht⟩ := readField_next (n := n) (interp := interp) hrd
  obtain ⟨hlt, -⟩ | ⟨-, rfl⟩ := readField_cases ht
  · exact absurd hcap (Nat.not_le.mpr hlt)
  · exact ht

/-- RD.BITSI of no bits raises ValueRangeError (42_bit_read.md R121). -/
theorem exec_rdBitsI_of_lt_one {n : NField} (h : n.toNat < 1) (s : State) :
    exec (.rdBitsI n) s = .next (s.failedWith .valueRangeError) := if_pos (.inl h)

/-- Settles O32: past the count, RD.BITSU is a field read of the unsigned value. -/
theorem rdBitsUFollowsRule : Obligations.RdBitsUFollowsRule := by
  intro n s ⟨_, _, _, hrd, _⟩
  refine ⟨decode_of_toNat_add rfl (by simp only [Instr.opcode, Instr.number]; bv_omega), ?_⟩
  split_ifs with hn hcap
  · exact exec_fieldCommand_of_fieldMax_lt hn (by simp [fieldCommands]) s
  all_goals rw [exec_rdBitsU_of_le (Nat.not_lt.mp hn)]
  · exact readField_of_cap_lt hcap
  · exact ⟨_, resultWord_zeroExtend_toInt (Nat.not_lt.mp hn) (field_lt ..),
      readField_of_le_cap zeroExtend hrd (Nat.not_lt.mp hcap)⟩

/-- Settles O33: past the count, RD.BITSI is a field read of the sign-extended value. -/
theorem rdBitsIFollowsRule : Obligations.RdBitsIFollowsRule := by
  intro n s ⟨_, _, _, hrd, _⟩
  refine ⟨decode_of_toNat_add rfl (by simp only [Instr.opcode, Instr.number]; bv_omega), ?_⟩
  split
  case isTrue hn =>
    obtain hn | hn := hn
    · exact exec_rdBitsI_of_lt_one hn s
    · exact exec_fieldCommand_of_fieldMax_lt hn (by simp [fieldCommands]) s
  case isFalse hn =>
    obtain ⟨h1, h32⟩ : 1 ≤ n.toNat ∧ n.toNat ≤ 32 := by omega
    rw [exec_rdBitsI_of_le h1 h32]
    split
    case isTrue hcap => exact readField_of_cap_lt hcap
    case isFalse hcap =>
      exact ⟨_, resultWord_signExtend_toInt h1 h32 (field_lt ..),
        readField_of_le_cap (signExtend n.toNat) hrd (Nat.not_lt.mp hcap)⟩

/-! ### A write that succeeded -/

section Success

variable {s t : State} {v : Word} {out : List Byte}

/-- The response of an error is not OK (60_exceptions.md R211). -/
theorem failedWith_responses_ne (e : ErrorKind) :
    (s.failedWith e).responses ≠ s.responses ++ [⟨0, v, out⟩] := by
  intro h
  obtain ⟨hr, -⟩ := List.cons.inj (List.append_cancel_left h)
  exact code_ne_zero e (congrArg Response.st hr)

/-- A command that answered OK did not fail. -/
theorem ne_failedWith_of_ok {r : Result} (h : r = .next t)
    (hok : t.responses = s.responses ++ [⟨0, v, out⟩]) (e : ErrorKind) :
    r ≠ .next (s.failedWith e) := by
  rintro rfl
  cases h
  exact failedWith_responses_ne e hok

/-- A WR.BITSU that answered OK passed its tests and was a field write (41_bit_write.md R110). -/
theorem exec_wrBitsU_of_ok {n : NField} (h : exec (.wrBitsU n) s = .next t)
    (hok : t.responses = s.responses ++ [⟨0, v, out⟩]) :
    n.toNat ≤ 32 ∧ fitsUnsigned n.toNat s.opA = true ∧
      writeField n.toNat s.opA.toNat s = .next t := by
  have hne := ne_failedWith_of_ok h hok .valueRangeError
  have hn : n.toNat ≤ 32 := Nat.not_lt.mp fun hn =>
    hne (exec_fieldCommand_of_fieldMax_lt hn (by simp [fieldCommands]) s)
  have hfits : fitsUnsigned n.toNat s.opA = true :=
    of_not_not fun hv => hne (exec_wrBitsU_of_not_fits hv)
  exact ⟨hn, hfits, (exec_wrBitsU_of_fits hn hfits).symm.trans h⟩

/-- A WR.BITSI that answered OK passed its tests and was a field write (41_bit_write.md R111). -/
theorem exec_wrBitsI_of_ok {n : NField} (h : exec (.wrBitsI n) s = .next t)
    (hok : t.responses = s.responses ++ [⟨0, v, out⟩]) :
    1 ≤ n.toNat ∧ n.toNat ≤ 32 ∧ fitsSigned n.toNat s.opA = true ∧
      writeField n.toNat (biased n.toNat s.opA) s = .next t := by
  have hne := ne_failedWith_of_ok h hok .valueRangeError
  have h1 : 1 ≤ n.toNat := Nat.not_lt.mp fun h0 => hne (exec_wrBitsI_of_lt_one h0 s)
  have hn : n.toNat ≤ 32 := Nat.not_lt.mp fun hn =>
    hne (exec_fieldCommand_of_fieldMax_lt hn (by simp [fieldCommands]) s)
  have hfits : fitsSigned n.toNat s.opA = true :=
    of_not_not fun hv => hne (exec_wrBitsI_of_not_fits hv)
  exact ⟨h1, hn, hfits, (exec_wrBitsI_of_fits h1 hn hfits).symm.trans h⟩

end Success

/-! ### Reading back what was written -/

/-- From equal contexts, a field read after a field write that answered OK reads the pattern written
and ends at the writer's cursor, whatever the reading of the pattern (42_bit_read.md R123). -/
theorem readField_after_writeField {n u : Nat} {s t : State} (hs : s.Inv) (hctx : s.rd = s.wr)
    (hu : u < 2 ^ n) (h : writeField n u s = .next t)
    (hok : t.responses = s.responses ++ [⟨0, 0, []⟩]) (interp : Nat → Int) :
    ∃ t', readField n interp t = .next t' ∧ t'.rd = t.wr ∧ t.wr.cur = s.wr.cur + n ∧
      t'.responses = t.responses ++ [⟨0, resultWord (interp u), []⟩] := by
  obtain ⟨_, _, _, hrd, _⟩ := hs
  obtain ⟨-, rfl⟩ | ⟨hcap, m, hm, -, -, rfl⟩ := writeField_cases h
  · exact absurd hok (failedWith_responses_ne .boundsError)
  · rw [← hctx] at hcap hm
    refine ⟨_, readField_of_le_cap interp hrd hcap, ?_, rfl, ?_⟩
    · simp [hctx]
    · simp [FieldWritten_field hm hu]

section ReadBack

variable {n : NField} {s t : State} (hs : s.Inv) (hctx : s.rd = s.wr)
  (hok : t.responses = s.responses ++ [⟨0, 0, []⟩])

include hs hctx hok

/-- After WR.BITSU, RD.BITSU returns the value and RD.BITSI its sign extension
(42_bit_read.md R123). -/
theorem read_after_wrBitsU (h : exec (.wrBitsU n) s = .next t) :
    (∃ t', exec (.rdBitsU n) t = .next t' ∧ t'.rd = t.wr ∧ t.wr.cur = s.wr.cur + n.toNat ∧
      t'.responses = t.responses ++ [⟨0, s.packet.a, []⟩]) ∧
    (1 ≤ n.toNat → ∃ t' v, exec (.rdBitsI n) t = .next t' ∧ t'.rd = t.wr ∧
      t'.responses = t.responses ++ [⟨0, v, []⟩] ∧
      v.toInt = if s.packet.a.toInt ≥ 2 ^ (n.toNat - 1) then s.packet.a.toInt - 2 ^ n.toNat
        else s.packet.a.toInt) := by
  obtain ⟨hn, hfits, hwrite⟩ := exec_wrBitsU_of_ok h hok
  obtain ⟨h0, hlt⟩ := fitsUnsigned_iff.mp hfits
  obtain ⟨u, hu⟩ : ∃ u : Nat, s.opA = u := Int.eq_ofNat_of_zero_le h0
  have ha : s.packet.a.toInt = u := hu
  rw [hu, Int.toNat_natCast] at hwrite
  have hu' : u < 2 ^ n.toNat := by rw [hu] at hlt; exact_mod_cast hlt
  have hread := readField_after_writeField hs hctx hu' hwrite hok
  refine ⟨?_, fun h1 => ?_⟩
  · obtain ⟨t', ht', hcur, hadv, hresp⟩ := hread zeroExtend
    rw [zeroExtend, ← ha, resultWord_of_toInt] at hresp
    exact ⟨t', (exec_rdBitsU_of_le hn).trans ht', hcur, hadv, hresp⟩
  · obtain ⟨t', ht', hcur, -, hresp⟩ := hread (signExtend n.toNat)
    rw [ha]
    exact ⟨t', _, (exec_rdBitsI_of_le h1 hn).trans ht', hcur, hresp,
      resultWord_signExtend_toInt h1 hn hu'⟩

/-- After WR.BITSI, RD.BITSI returns the value and RD.BITSU the value biased by `2^n` when it is
negative (42_bit_read.md R123). -/
theorem read_after_wrBitsI (h : exec (.wrBitsI n) s = .next t) :
    (∃ t', exec (.rdBitsI n) t = .next t' ∧ t'.rd = t.wr ∧ t.wr.cur = s.wr.cur + n.toNat ∧
      t'.responses = t.responses ++ [⟨0, s.packet.a, []⟩]) ∧
    ∃ t' v, exec (.rdBitsU n) t = .next t' ∧ t'.rd = t.wr ∧
      t'.responses = t.responses ++ [⟨0, v, []⟩] ∧
      v.toInt = if s.packet.a.toInt < 0 then s.packet.a.toInt + 2 ^ n.toNat
        else s.packet.a.toInt := by
  obtain ⟨h1, hn, hfits, hwrite⟩ := exec_wrBitsI_of_ok h hok
  have hu := biased_lt h1 hfits
  have hread := readField_after_writeField hs hctx hu hwrite hok
  refine ⟨?_, ?_⟩
  · obtain ⟨t', ht', hcur, hadv, hresp⟩ := hread (signExtend n.toNat)
    rw [signExtend_biased h1 hfits, State.opA, resultWord_of_toInt] at hresp
    exact ⟨t', (exec_rdBitsI_of_le h1 hn).trans ht', hcur, hadv, hresp⟩
  · obtain ⟨t', ht', hcur, -, hresp⟩ := hread zeroExtend
    refine ⟨t', _, (exec_rdBitsU_of_le hn).trans ht', hcur, hresp, ?_⟩
    rw [resultWord_zeroExtend_toInt hn hu, biased_eq hfits, State.opA]

end ReadBack

/-- Settles O36: both reads of each write see the pattern that the write stored. -/
theorem writeThenReadReturnsValue : Obligations.WriteThenReadReturnsValue :=
  fun _ _ _ hs hctx =>
    ⟨fun h hok => read_after_wrBitsU hs hctx hok h, fun h hok => read_after_wrBitsI hs hctx hok h⟩

end Sys2Proof.Machine
end

section
/-! The aligned-write family: the six aligned writes as their rules say, and those that are WR.ALIGN and
then a field write (43_aligned_write.md). -/

namespace Sys2Proof.Machine

/-! ### The bytes a store leaves -/

/-- PutBytes of numbers stores the bytes that they stand for (43_aligned_write.md R133). -/
theorem bytesStored_of_bytesWritten {m m' : Memory} {a0 : Nat} {us : List Nat}
    (h : BytesWritten m m' a0 us) : BytesStored m m' a0 (us.map (BitVec.ofNat 8)) := by
  intro addr
  rw [h addr, List.length_map]
  exact if_congr Iff.rfl (List.getD_map us 0 (BitVec.ofNat 8)).symm rfl

/-- Two memories left by one store of bytes agree on every byte. -/
theorem byteAt_eq_of_bytesStored {m m1 m2 : Memory} {a0 : Nat} {bs : List Byte}
    (h1 : BytesStored m m1 a0 bs) (h2 : BytesStored m m2 a0 bs) (addr : Nat) :
    Memory.byteAt m1 addr = Memory.byteAt m2 addr := (h1 addr).trans (h2 addr).symm

/-- The low `k` bytes of A, `A[7:0]` first (43_aligned_write.md R133). -/
def lowBytesFirst (k : Nat) (a : Word) : List Byte :=
  (List.range k).map fun j => a.extractLsb' (8 * j) 8

@[simp] theorem length_lowBytesFirst (k : Nat) (a : Word) : (lowBytesFirst k a).length = k := by
  simp [lowBytesFirst]

theorem getD_lowBytesFirst {k j : Nat} (a : Word) (hj : j < k) :
    (lowBytesFirst k a).getD j 0 = a.extractLsb' (8 * j) 8 := by
  simp [lowBytesFirst, hj]

/-- A field of whole bytes at a byte boundary is those bytes in address order, the lowest first
(20_memory.md R52, 43_aligned_write.md R133). -/
theorem bytesStored_of_fieldStored {m m' : Memory} {a0 k : Nat} {a : Word}
    (h : FieldStored m m' (8 * a0) (8 * k) a) : BytesStored m m' a0 (lowBytesFirst k a) := by
  obtain ⟨hbits, hbytes⟩ := h
  intro addr
  rw [length_lowBytesFirst]
  split
  case isTrue hin =>
    rw [getD_lowBytesFirst a (by omega)]
    refine BitVec.eq_of_getLsbD_eq fun j hj => ?_
    rw [← bit_of_byteAt _ _ _ hj, hbits, if_pos (by omega), BitVec.getLsbD_extractLsb',
      show 8 * addr + j - 8 * a0 = 8 * (addr - a0) + j by omega]
    simp [hj]
  case isFalse hout => exact hbytes addr (by omega)

/-! ### The bytes of a pattern -/

section Pattern

variable (a : Word)

/-- The eight bits from bit `k` of A, as a number. -/
theorem ofNat_div_eq_extractLsb' (k : Nat) :
    BitVec.ofNat 8 (a.toNat / 2 ^ k) = a.extractLsb' k 8 := by
  refine BitVec.eq_of_toNat_eq ?_
  rw [BitVec.toNat_ofNat, BitVec.extractLsb'_toNat, Nat.shiftRight_eq_div_pow]

/-- The low byte of a 16-bit pattern of A. -/
theorem ofNat_pattern_low : BitVec.ofNat 8 (a.toNat % 2 ^ 16 % 256) = a.extractLsb' 0 8 := by
  rw [← ofNat_div_eq_extractLsb']
  exact BitVec.eq_of_toNat_eq (by simp only [BitVec.toNat_ofNat]; omega)

/-- The high byte of a 16-bit pattern of A. -/
theorem ofNat_pattern_high :
    BitVec.ofNat 8 (a.toNat % 2 ^ 16 / 256 % 256) = a.extractLsb' 8 8 := by
  rw [← ofNat_div_eq_extractLsb']
  exact BitVec.eq_of_toNat_eq (by simp only [BitVec.toNat_ofNat]; omega)

/-- The byte of an 8-bit pattern (43_aligned_write.md R131). -/
theorem oneByte_pattern :
    (oneByte (a.toNat % 2 ^ 8)).map (BitVec.ofNat 8) = [a.extractLsb' 0 8] := by
  rw [← ofNat_div_eq_extractLsb', oneByte, List.map_singleton]
  exact congrArg (fun b => [b]) (BitVec.eq_of_toNat_eq (by simp only [BitVec.toNat_ofNat]; omega))

/-- The bytes of a 16-bit pattern, the low one first (43_aligned_write.md R133). -/
theorem lowFirst_pattern : (lowFirst (a.toNat % 2 ^ 16)).map (BitVec.ofNat 8) =
    [a.extractLsb' 0 8, a.extractLsb' 8 8] := by
  simp only [lowFirst, List.map_cons, List.map_nil, ofNat_pattern_low, ofNat_pattern_high]

/-- The bytes of a 16-bit pattern, the high one first (43_aligned_write.md R135). -/
theorem highFirst_pattern : (highFirst (a.toNat % 2 ^ 16)).map (BitVec.ofNat 8) =
    [a.extractLsb' 8 8, a.extractLsb' 0 8] := by
  simp only [highFirst, List.map_cons, List.map_nil, ofNat_pattern_low, ofNat_pattern_high]

end Pattern

/-! ### The aligned writes -/

section AlignedWrite

variable {fits : Int → Bool} {parts : Int → List Nat} {s : State}

/-- An aligned write of a value that fits stores its bytes at the aligned cursor
(43_aligned_write.md R130). -/
theorem alignedWrite_of_fits (h : fits s.opA = true) :
    alignedWrite fits parts s = writeBytes (parts s.opA) (s.alignCur .wr) := if_pos h

/-- An aligned write of a value that does not fit keeps the alignment (43_aligned_write.md R130). -/
theorem alignedWrite_of_not_fits (h : ¬ fits s.opA = true) :
    alignedWrite fits parts s = .next ((s.alignCur .wr).failedWith .valueRangeError) := if_neg h

/-- Stage 3 of an aligned write inside the capacity stores the bytes, advances the cursor, and changes
nothing else (43_aligned_write.md R130). -/
theorem writeBytes_of_le_cap {us : List Nat} {q : Nat} (hwr : s.wr.legal s.bufBytes)
    (hq : s.wr.cur = 8 * q) (hcap : s.wr.cur + 8 * us.length ≤ s.wr.cap) :
    ∃ m, BytesStored s.buf m (s.wr.base + q) (us.map (BitVec.ofNat 8)) ∧
      writeBytes us s = .next
        ({ s with buf := m, wr := { s.wr with cur := s.wr.cur + 8 * us.length } }.answered 0 []) := by
  obtain ⟨t, ht⟩ := writeBytes_next (bs := us) hq hwr.1
  obtain ⟨hlt, -⟩ | ⟨-, m, hm, -, -, rfl⟩ := writeBytes_cases hq ht
  · exact absurd hcap (Nat.not_le.mpr hlt)
  · exact ⟨m, bytesStored_of_bytesWritten hm, ht⟩

end AlignedWrite

section AlignedWriteRule

variable {i : Instr} {cw : CmdWord} {bytes : Word → List Byte}

/-- A command that is an aligned write follows the rule of the aligned writes, for the values that
its range test takes and the bytes that it splits them into (43_aligned_write.md R130). -/
theorem alignedWriteRule_of_exec {lo hi : Int} {fits : Int → Bool} {parts : Int → List Nat}
    (hdec : decode cw = .ok i) (hexec : ∀ s, exec i s = alignedWrite fits parts s)
    (hfits : ∀ v, fits v = true ↔ lo ≤ v ∧ v ≤ hi)
    (hsplit : ∀ a : Word, fits a.toInt = true → (parts a.toInt).map (BitVec.ofNat 8) = bytes a) :
    AlignedWriteRule i cw lo hi bytes := by
  refine ⟨hdec, fun s ⟨_, _, _, _, hwr, _⟩ => ?_⟩
  rw [hexec]
  split_ifs with hv hcap
  · exact alignedWrite_of_not_fits fun h => by
      obtain ⟨hlo, hhi⟩ := (hfits s.packet.a.toInt).mp h
      omega
  all_goals
    have hfit : fits s.opA = true := (hfits _).mpr (by unfold State.opA; omega)
    rw [← hsplit _ hfit, List.length_map] at hcap
    rw [alignedWrite_of_fits hfit]
  · exact writeBytes_of_cap_lt hcap
  · rw [← hsplit _ hfit, List.length_map]
    exact writeBytes_of_le_cap (aligned_legal hwr) (alignCur_wr_cur s) (Nat.not_lt.mp hcap)

variable {n : Nat} {parts : Nat → List Nat}

/-- The aligned writes of unsigned values of `n` bits (43_aligned_write.md R131, R133, R135). -/
theorem alignedWriteRule_unsigned (hn : n ≤ 64) (hdec : decode cw = .ok i)
    (hexec : ∀ s, exec i s = alignedWrite (fitsUnsigned n) (fun v => parts v.toNat) s)
    (hsplit : ∀ a : Word, (parts (a.toNat % 2 ^ n)).map (BitVec.ofNat 8) = bytes a) :
    AlignedWriteRule i cw 0 (2 ^ n - 1) bytes :=
  alignedWriteRule_of_exec hdec hexec (fun _ => fitsUnsigned_iff.trans (by omega))
    fun a h => by rw [unsigned_pattern hn h, hsplit]

/-- The aligned writes of signed values of `n` bits (43_aligned_write.md R132, R134, R136). -/
theorem alignedWriteRule_signed (h1 : 1 ≤ n) (hn : n ≤ 64) (hdec : decode cw = .ok i)
    (hexec : ∀ s, exec i s = alignedWrite (fitsSigned n) (fun v => parts (biased n v)) s)
    (hsplit : ∀ a : Word, (parts (a.toNat % 2 ^ n)).map (BitVec.ofNat 8) = bytes a) :
    AlignedWriteRule i cw (-(2 ^ (n - 1))) (2 ^ (n - 1) - 1) bytes :=
  alignedWriteRule_of_exec hdec hexec (fun _ => fitsSigned_iff)
    fun a h => by rw [signed_pattern h1 hn h, hsplit]

end AlignedWriteRule

/-! ### An alignment and then a field write -/

/-- What 41_bit_write.md R110 and R111 say of a write of an `n`-bit field with the values `lo` to `hi`,
past the test of the bit count. -/
def FieldWriteRule (f : Instr) (lo hi : Int) (n : Nat) : Prop :=
  ∀ s : State, s.Inv →
    if s.packet.a.toInt < lo ∨ s.packet.a.toInt > hi then
      exec f s = .next (s.failedWith .valueRangeError)
    else if s.wr.cur + n > 8 * s.wr.size then exec f s = .next (s.failedWith .boundsError)
    else
      ∃ m, FieldStored s.buf m s.wr.bitPos n s.packet.a ∧
        exec f s = .next
          ({ s with buf := m, wr := { s.wr with cur := s.wr.cur + n } }.answered 0 [])

/-- WR.BITSU with an admitted bit count is a field write of unsigned values (41_bit_write.md R110). -/
theorem fieldWriteRule_wrBitsU {n : NField} (hn : n.toNat ≤ 32) :
    FieldWriteRule (.wrBitsU n) 0 (2 ^ n.toNat - 1) n.toNat := by
  intro s hs
  obtain ⟨-, hrule⟩ := wrBitsUFollowsRule n s hs
  rw [if_neg (Nat.not_lt.mpr hn)] at hrule
  rwa [if_congr (or_congr_right Int.sub_one_lt_iff) rfl rfl]

/-- WR.BITSI with an admitted bit count is a field write of signed values (41_bit_write.md R111). -/
theorem fieldWriteRule_wrBitsI {n : NField} (h1 : 1 ≤ n.toNat) (hn : n.toNat ≤ 32) :
    FieldWriteRule (.wrBitsI n) (-(2 ^ (n.toNat - 1))) (2 ^ (n.toNat - 1) - 1) n.toNat := by
  intro s hs
  obtain ⟨-, hrule⟩ := wrBitsIFollowsRule n s hs
  rwa [if_neg (by omega)] at hrule

/-- WR.ALIGN keeps the invariant. -/
theorem answered_aligned_inv {s : State} (hs : s.Inv) :
    ({ s with wr := s.wr.aligned }.answered 0 []).Inv := by
  obtain ⟨hwf, hin, hsize, hrd, hwr, herr⟩ := hs
  exact ⟨hwf, hin, hsize, hrd, aligned_legal hwr, herr⟩

theorem aligned_size (c : Context) : c.aligned.size = c.size := rfl

/-- The bit of BUF under an aligned cursor is the first of its byte (20_memory.md R52, R60). -/
theorem aligned_bitPos (c : Context) : c.aligned.bitPos = 8 * c.alignedByte := by
  simp only [Context.aligned, Context.bitPos, Context.alignedByte]
  omega

/-- The aligned write of the low bytes of A, the lowest first, and WR.ALIGN followed by the write of the
field of as many bits make the same tests and store the same bytes (43_aligned_write.md R131 to
R133). -/
theorem writesAsAlignThenField_of_rules {i f : Instr} {cw : CmdWord} {lo hi : Int} {k : Nat}
    (hw : AlignedWriteRule i cw lo hi (lowBytesFirst k)) (hf : FieldWriteRule f lo hi (8 * k)) :
    WritesAsAlignThenField i f := by
  intro s hs
  obtain ⟨-, hrule⟩ := hw
  have hbytes := hrule s hs
  have hfield := hf _ (answered_aligned_inv hs)
  rw [length_lowBytesFirst] at hbytes
  simp only [answered_packet, answered_wr, answered_buf, aligned_bitPos, aligned_size]
    at hfield
  split_ifs at hbytes hfield with hv hcap
  case pos | pos =>
    exact ⟨_, _, _, _, hbytes, exec_wrAlign s, hfield, rfl, rfl, rfl, rfl, rfl, fun _ => rfl⟩
  case neg =>
    obtain ⟨m, hm, hexec⟩ := hbytes
    obtain ⟨m', hm', hexec'⟩ := hfield
    exact ⟨_, _, _, _, hexec, exec_wrAlign s, hexec', rfl, rfl, rfl, rfl, rfl,
      byteAt_eq_of_bytesStored hm (bytesStored_of_fieldStored hm')⟩

/-! ### The commands -/

/-- WR.U8 writes its byte (43_aligned_write.md R131). -/
theorem wrU8_rule : AlignedWriteRule .wrU8 0x2400 0 255 (fun a => [a.extractLsb' 0 8]) :=
  alignedWriteRule_unsigned (n := 8) (by decide) (decodeEncodeRoundTrip .wrU8 rfl) (fun _ => rfl)
    oneByte_pattern

/-- WR.I8 writes its byte (43_aligned_write.md R132). -/
theorem wrI8_rule : AlignedWriteRule .wrI8 0x2500 (-128) 127 (fun a => [a.extractLsb' 0 8]) :=
  alignedWriteRule_signed (n := 8) (by decide) (by decide) (decodeEncodeRoundTrip .wrI8 rfl)
    (fun _ => rfl) oneByte_pattern

/-- WR.U16LE writes its low byte first (43_aligned_write.md R133). -/
theorem wrU16LE_rule : AlignedWriteRule .wrU16LE 0x2600 0 65535
    (fun a => [a.extractLsb' 0 8, a.extractLsb' 8 8]) :=
  alignedWriteRule_unsigned (n := 16) (by decide) (decodeEncodeRoundTrip .wrU16LE rfl)
    (fun _ => rfl) lowFirst_pattern

/-- Settles O37: each byte write is an aligned write, and the field of eight bits at the aligned cursor
is its byte. -/
theorem alignedByteWritesFollowRule : Obligations.AlignedByteWritesFollowRule :=
  ⟨wrU8_rule, wrI8_rule,
    writesAsAlignThenField_of_rules (k := 1) wrU8_rule (fieldWriteRule_wrBitsU (n := 8) (by decide)),
    writesAsAlignThenField_of_rules (k := 1) wrI8_rule
      (fieldWriteRule_wrBitsI (n := 8) (by decide) (by decide))⟩

/-- Settles O38: each is an aligned write of the low byte first, and the field of sixteen bits at the
aligned cursor is the two bytes in that order. -/
theorem alignedLittleEndianWritesFollowRule : Obligations.AlignedLittleEndianWritesFollowRule :=
  ⟨wrU16LE_rule,
    alignedWriteRule_signed (n := 16) (by decide) (by decide) (decodeEncodeRoundTrip .wrI16LE rfl)
      (fun _ => rfl) lowFirst_pattern,
    writesAsAlignThenField_of_rules (k := 2) wrU16LE_rule
      (fieldWriteRule_wrBitsU (n := 16) (by decide))⟩

/-- Settles O39: each is an aligned write of the high byte first. -/
theorem alignedBigEndianWritesFollowRule : Obligations.AlignedBigEndianWritesFollowRule :=
  ⟨alignedWriteRule_unsigned (n := 16) (by decide) (decodeEncodeRoundTrip .wrU16BE rfl)
      (fun _ => rfl) highFirst_pattern,
    alignedWriteRule_signed (n := 16) (by decide) (by decide) (decodeEncodeRoundTrip .wrI16BE rfl)
      (fun _ => rfl) highFirst_pattern⟩

end Sys2Proof.Machine
end

section
/-! The aligned-read family: the six aligned reads as their rules say, and those that are RD.ALIGN and
then a field read (44_aligned_read.md). -/

namespace Sys2Proof.Machine

/-! ### The bytes of a read -/

/-- The numbers of `len` bytes, in address order. -/
def byteValues (len : Nat) (b : Nat → Byte) : List Nat := (List.range len).map fun j => (b j).toNat

theorem byteValues_succ (len : Nat) (b : Nat → Byte) :
    byteValues (len + 1) b = (b 0).toNat :: byteValues len (fun j => b (j + 1)) := by
  simp [byteValues, List.range_succ_eq_map, Function.comp_def]

/-- A field is its low bits and, above them, the field of the bits that follow (20_memory.md R54). -/
theorem field_add (m : Memory) (x n k : Nat) :
    Memory.field m x (n + k) = Memory.field m x n + 2 ^ n * Memory.field m (x + n) k := by
  simp only [Memory.field, Finset.sum_range_add, Finset.mul_sum, mul_ite, mul_zero, pow_add,
    Nat.add_assoc]

/-- Whole bytes of BUF with the lowest address least significant are the field of their bits
(20_memory.md R52, 44_aligned_read.md R143). -/
theorem valueLowFirst_byteValues (m : Memory) (a len : Nat) :
    valueLowFirst (byteValues len fun j => Memory.byteAt m (a + j)) =
      Memory.field m (8 * a) (8 * len) := by
  induction len generalizing a with
  | zero => exact (field_zero m _).symm
  | succ len ih =>
    have htail := ih (a + 1)
    simp only [Nat.add_right_comm a 1] at htail
    rw [byteValues_succ, valueLowFirst, Nat.mul_succ, Nat.add_comm (8 * len), field_add, field_byte,
      Nat.add_zero]
    exact congrArg (fun u => _ + 256 * u) htail

/-! ### The values of the bytes -/

section Values

variable (b : Nat → Byte)

/-- One byte is its own value (44_aligned_read.md R141). -/
theorem valueLowFirst_one : valueLowFirst (byteValues 1 b) = (b 0).toNat := rfl

/-- Two bytes, the low one at the lower address (44_aligned_read.md R143). -/
theorem valueLowFirst_two :
    valueLowFirst (byteValues 2 b) = (b 1).toNat * 256 + (b 0).toNat := by
  change (b 0).toNat + 256 * ((b 1).toNat + 256 * 0) = _
  omega

/-- Two bytes, the high one at the lower address (44_aligned_read.md R145). -/
theorem valueHighFirst_two :
    valueHighFirst (byteValues 2 b) = (b 0).toNat * 256 + (b 1).toNat := by
  change (b 1).toNat + 256 * ((b 0).toNat + 256 * 0) = _
  omega

end Values

/-- Two bytes together are below `2^16`. -/
theorem twoBytes_lt (hi lo : Byte) : hi.toNat * 256 + lo.toNat < 2 ^ 16 := by
  have := hi.isLt
  have := lo.isLt
  omega

/-- The pattern of two bytes, the high one first. -/
theorem toNat_append_bytes (hi lo : Byte) : (hi ++ lo).toNat = hi.toNat * 256 + lo.toNat := by
  rw [BitVec.toNat_append, ← Nat.shiftLeft_add_eq_or_of_lt lo.isLt, Nat.shiftLeft_eq]

/-- Sign extension of a pattern is its two's-complement value (00_scope.md R9, 42_bit_read.md R121). -/
theorem signExtend_toNat {n : Nat} (h1 : 1 ≤ n) (x : BitVec n) : signExtend n x.toNat = x.toInt := by
  have hp : (2 : Nat) ^ n = 2 * 2 ^ (n - 1) := by rw [← pow_succ', Nat.sub_add_cancel h1]
  rw [BitVec.toInt_eq_toNat_cond, signExtend]
  push_cast
  split <;> split <;> omega

/-! ### The aligned reads -/

/-- An aligned read beyond the capacity keeps the alignment (44_aligned_read.md R140). -/
theorem alignedRead_of_cap_lt {len : Nat} {interp : List Nat → Int} {s : State}
    (hcap : s.rd.cap < s.rd.aligned.cur + 8 * len) : alignedRead len interp s =
      .next ({ s with rd := s.rd.aligned }.failedWith .boundsError) :=
  readBytes_of_cap_lt (s := s.alignCur .rd) hcap

/-- An aligned read inside the capacity answers the bytes at the aligned cursor, advances the cursor,
and changes nothing else (44_aligned_read.md R140). -/
theorem alignedRead_of_le_cap {len : Nat} (interp : List Nat → Int) {s : State}
    (hrd : s.rd.legal s.bufBytes) (hcap : s.rd.aligned.cur + 8 * len ≤ s.rd.cap) :
    alignedRead len interp s = .next
      ({ s with rd := { s.rd with cur := s.rd.aligned.cur + 8 * len } }.answered
        (resultWord (interp (byteValues len fun j => s.bufByte (s.rd.alignedByte + j)))) []) := by
  obtain ⟨t, ht⟩ :=
    readBytes_next (len := len) (interp := interp) (alignCur_rd_cur s) (aligned_legal hrd).1
  obtain ⟨hlt, -⟩ | ⟨-, rfl⟩ := readBytes_cases (alignCur_rd_cur s) ht
  · exact absurd hcap (Nat.not_le.mpr hlt)
  · exact ht

section AlignedReadRule

variable {i : Instr} {cw : CmdWord} {len : Nat}

/-- A command that is an aligned read follows the rule of the aligned reads, for the value that V
holds of the bytes (44_aligned_read.md R140). -/
theorem alignedReadRule_of_exec {interp : List Nat → Int} {value : (Nat → Byte) → Int}
    (hdec : decode cw = .ok i) (hexec : ∀ s, exec i s = alignedRead len interp s)
    (hvalue : ∀ b, (resultWord (interp (byteValues len b))).toInt = value b) :
    AlignedReadRule i cw len value := by
  refine ⟨hdec, fun s ⟨_, _, _, hrd, _⟩ => ?_⟩
  rw [hexec]
  split
  case isTrue hcap => exact alignedRead_of_cap_lt hcap
  case isFalse hcap =>
    exact ⟨_, hvalue _, alignedRead_of_le_cap interp hrd (Nat.not_lt.mp hcap)⟩

variable {n : Nat} {val : List Nat → Nat}

/-- The aligned reads of unsigned values of `n` bits (44_aligned_read.md R141, R143, R145). -/
theorem alignedReadRule_unsigned {u : (Nat → Byte) → Nat} (hn : n ≤ 32) (hlt : ∀ b, u b < 2 ^ n)
    (hdec : decode cw = .ok i)
    (hexec : ∀ s, exec i s = alignedRead len (fun bs => zeroExtend (val bs)) s)
    (hval : ∀ b, val (byteValues len b) = u b) : AlignedReadRule i cw len (fun b => (u b : Int)) :=
  alignedReadRule_of_exec hdec hexec fun b => by
    rw [hval, resultWord_zeroExtend_toInt hn (hlt b)]

/-- The aligned reads of signed values of `n` bits (44_aligned_read.md R142, R144, R146). -/
theorem alignedReadRule_signed {pattern : (Nat → Byte) → BitVec n} (h1 : 1 ≤ n) (hn : n ≤ 32)
    (hdec : decode cw = .ok i)
    (hexec : ∀ s, exec i s = alignedRead len (fun bs => signExtend n (val bs)) s)
    (hval : ∀ b, val (byteValues len b) = (pattern b).toNat) :
    AlignedReadRule i cw len (fun b => (pattern b).toInt) :=
  alignedReadRule_of_exec hdec hexec fun b => by
    rw [hval, resultWord_signExtend_toInt h1 hn (pattern b).isLt, ← signExtend_eq,
      signExtend_toNat h1]

end AlignedReadRule

/-! ### An alignment and then a field read -/

/-- The aligned read of bytes, the lowest address least significant, is RD.ALIGN and the read of the
field of as many bits, whatever the reading of the pattern (44_aligned_read.md R141 to R143). -/
theorem readsAsAlignThenField_of_exec {i f : Instr} {len : Nat} {interp : Nat → Int}
    (hi : ∀ s, exec i s = alignedRead len (fun bs => interp (valueLowFirst bs)) s)
    (hf : ∀ s, exec f s = readField (8 * len) interp s) : ReadsAsAlignThenField i f := by
  intro s ⟨_, _, _, hrd, _⟩
  have hfield : valueLowFirst (byteValues len fun j => s.bufByte (s.rd.alignedByte + j)) =
      Memory.field s.buf s.rd.aligned.bitPos (8 * len) := by
    rw [aligned_bitPos]
    exact valueLowFirst_byteValues ..
  obtain hcap | hcap := Nat.lt_or_ge s.rd.cap (s.rd.aligned.cur + 8 * len)
  · exact ⟨_, _, _, _, (hi s).trans (alignedRead_of_cap_lt hcap), exec_rdAlign s,
      (hf _).trans (readField_of_cap_lt hcap), rfl, rfl, rfl⟩
  · have hread := alignedRead_of_le_cap (fun bs => interp (valueLowFirst bs)) hrd hcap
    rw [hfield] at hread
    exact ⟨_, _, _, _, (hi s).trans hread, exec_rdAlign s,
      (hf _).trans (readField_of_le_cap interp (aligned_legal hrd) hcap), rfl, rfl, rfl⟩

/-! ### The commands -/

/-- Settles O40: each byte read is an aligned read, and the field of eight bits at the aligned cursor
is its byte. -/
theorem alignedByteReadsFollowRule : Obligations.AlignedByteReadsFollowRule :=
  ⟨alignedReadRule_unsigned (n := 8) (by decide) (fun b => (b 0).isLt)
      (decodeEncodeRoundTrip .rdU8 rfl) (fun _ => rfl) valueLowFirst_one,
    alignedReadRule_signed (n := 8) (by decide) (by decide) (decodeEncodeRoundTrip .rdI8 rfl)
      (fun _ => rfl) valueLowFirst_one,
    readsAsAlignThenField_of_exec (len := 1) (fun _ => rfl)
      fun _ => exec_rdBitsU_of_le (n := 8) (by decide),
    readsAsAlignThenField_of_exec (len := 1) (fun _ => rfl)
      fun _ => exec_rdBitsI_of_le (n := 8) (by decide) (by decide)⟩

/-- Settles O41: each is an aligned read of the low byte first, and the field of sixteen bits at the
aligned cursor is the two bytes in that order. -/
theorem alignedLittleEndianReadsFollowRule : Obligations.AlignedLittleEndianReadsFollowRule :=
  ⟨alignedReadRule_unsigned (n := 16) (by decide) (fun b => twoBytes_lt (b 1) (b 0))
      (decodeEncodeRoundTrip .rdU16LE rfl) (fun _ => rfl) valueLowFirst_two,
    alignedReadRule_signed (n := 16) (by decide) (by decide) (decodeEncodeRoundTrip .rdI16LE rfl)
      (fun _ => rfl) fun b => (valueLowFirst_two b).trans (toNat_append_bytes ..).symm,
    readsAsAlignThenField_of_exec (len := 2) (fun _ => rfl)
      fun _ => exec_rdBitsU_of_le (n := 16) (by decide)⟩

/-- Settles O42: each is an aligned read of the high byte first. -/
theorem alignedBigEndianReadsFollowRule : Obligations.AlignedBigEndianReadsFollowRule :=
  ⟨alignedReadRule_unsigned (n := 16) (by decide) (fun b => twoBytes_lt (b 0) (b 1))
      (decodeEncodeRoundTrip .rdU16BE rfl) (fun _ => rfl) valueHighFirst_two,
    alignedReadRule_signed (n := 16) (by decide) (by decide) (decodeEncodeRoundTrip .rdI16BE rfl)
      (fun _ => rfl) fun b => (valueHighFirst_two b).trans (toNat_append_bytes ..).symm⟩

end Sys2Proof.Machine
end

section
/-! The codec family, the expansions themselves: where they stop (45_codec_macros.md R150, R163 to
R166), and the sizes and layouts of the descriptors (R162). -/

namespace Sys2Proof.Machine

/-! ### The host's own stops -/

/-- An error that stops an expansion before any command leaves the unit as it was. -/
theorem runScript_stopScript (e : ErrorKind) (s : State) :
    runScript (stopScript (.error e)) s = .failed e s := rfl

theorem admitted_varArray {name : String} {elem len : Codec} {maxCount : Nat} {align : Bool}
    (helem : elem.admitted = true) (hlen : len.admitted = true) :
    (Codec.varArray name elem len maxCount align).admitted = true :=
  (Bool.and_eq_true ..).mpr ⟨helem, hlen⟩

/-- Settles O56: the length is tested before anything is expanded. -/
theorem wrongLengthIssuesNoCommand : Obligations.WrongLengthIssuesNoCommand := by
  intro aligns name elem len count align xs s helem hlen
  have harray : (Codec.array name elem count).admitted = true := helem
  refine ⟨fun h => (if_pos harray).trans ?_,
    fun h => (if_pos (admitted_varArray helem hlen)).trans ?_⟩
  · rw [Codec.enc, if_pos h, runScript_stopScript]
  · rw [Codec.enc, if_pos h, runScript_stopScript]

/-- Settles O57: the length is tested as soon as the length codec has given it. -/
theorem decodedLengthIsChecked : Obligations.DecodedLengthIsChecked := by
  intro aligns name elem len maxCount align l s t helem hlen hdec hl
  refine (if_pos (admitted_varArray helem hlen)).trans ?_
  rw [Codec.dec, hdec, andThen_done]
  exact if_pos hl

/-! ### Where an activity ends -/

section Ends

variable {α β : Type}

/-- A command gives one response, whatever word it has (30_encoding.md R70). -/
theorem issue_one_response {p : Packet} {s t : State} (h : issue p s = .next t) :
    ∃ r, t.responses = s.responses ++ [r] := by
  cases hd : decode p.cw with
  | error x =>
    rw [issue_illegal hd] at h
    cases h
    exact ⟨_, rfl⟩
  | ok i =>
    rw [issue_ok hd] at h
    exact (commandGivesOneResponse i _ t h).1

/-- A command that was issued answers, so it is never the host's own refusal. -/
theorem send_ne_notAdmitted (p : Packet) (s t : State) : send p s ≠ .notAdmitted t := by
  intro h
  unfold send at h
  split at h
  case h_1 u hu =>
    obtain ⟨r, hr⟩ := issue_one_response hu
    rw [readResponse_of_append hr] at h
    split at h <;> cases h
  all_goals cases h

/-- An activity that is done ends where the commands it issued left the unit. -/
theorem ends_done (v : α) (s : State) : EndsAtFirstError (.done v s) s := ⟨[], rfl⟩

theorem ends_notAdmitted (s : State) : EndsAtFirstError (.notAdmitted s : HostResult α) s :=
  ⟨[], rfl⟩

/-- An error of the host itself, before any command (45_codec_macros.md R159, R166). -/
theorem ends_hostError {e : ErrorKind} (he : e = .structureError ∨ e = .valueRangeError) (s : State) :
    EndsAtFirstError (.failed e s : HostResult α) s := .inr ⟨he, [], rfl⟩

/-- One command. -/
theorem ends_send (p : Packet) (s : State) : EndsAtFirstError (send p s) s := by
  cases h : send p s with
  | done v t => exact ⟨[p], by simp [sendAll, h]⟩
  | failed e t => exact .inl ⟨[], p, s, rfl, h⟩
  | notAdmitted t => exact absurd h (send_ne_notAdmitted p s t)
  | stopped r => exact ⟨[], p, s, rfl, h⟩

/-- An activity that comes after commands that all succeeded. -/
theorem ends_after_sendAll {x : HostResult α} {ps : List Packet} {s t : State}
    (hps : sendAll ps s = .done () t) (h : EndsAtFirstError x t) : EndsAtFirstError x s := by
  have prepend : ∀ {qs : List Packet} {u : State}, sendAll qs t = .done () u →
      sendAll (ps ++ qs) s = .done () u := fun hqs => by rw [sendAll_append, hps, andThen_done, hqs]
  cases x with
  | done v u | notAdmitted u =>
    obtain ⟨qs, hqs⟩ := h
    exact ⟨ps ++ qs, prepend hqs⟩
  | failed e u =>
    obtain ⟨qs, p, w, hqs, hp⟩ | ⟨he, qs, hqs⟩ := h
    · exact .inl ⟨ps ++ qs, p, w, prepend hqs, hp⟩
    · exact .inr ⟨he, ps ++ qs, prepend hqs⟩
  | stopped r =>
    obtain ⟨qs, p, w, hqs, hp⟩ := h
    exact ⟨ps ++ qs, p, w, prepend hqs, hp⟩

/-- One activity after another ends where the first does, or where the second does after it. -/
theorem ends_andThen {x : HostResult α} {f : α → State → HostResult β} {s : State}
    (hx : EndsAtFirstError x s) (hf : ∀ v t, EndsAtFirstError (f v t) t) :
    EndsAtFirstError (andThen x f) s := by
  cases x with
  | done v t =>
    obtain ⟨ps, hps⟩ := hx
    exact ends_after_sendAll hps (hf v t)
  | failed | notAdmitted | stopped => exact hx

/-- A list of commands. -/
theorem ends_sendAll (ps : List Packet) (s : State) : EndsAtFirstError (sendAll ps s) s := by
  induction ps generalizing s with
  | nil => exact ends_done () s
  | cons p ps ih => exact ends_andThen (ends_send p s) fun _ t => ih t

end Ends

/-! ### The stops of an encode expansion -/

/-- Of the errors, only the two that the host raises itself stop an expansion (45_codec_macros.md R159,
R163, R164). -/
def Script.hostErrorsOnly (x : Script) : Prop :=
  ∀ e, x.stop = some (.error e) → e = .structureError ∨ e = .valueRangeError

theorem ends_runScript {x : Script} (hx : x.hostErrorsOnly) (s : State) :
    EndsAtFirstError (runScript x s) s := by
  refine ends_andThen (ends_sendAll x.packets s) fun _ t => ?_
  split
  case h_1 => exact ends_done () t
  case h_2 e he => exact ends_hostError (hx e he) t
  case h_3 => exact ends_notAdmitted t

theorem hostErrorsOnly_empty : emptyScript.hostErrorsOnly := nofun

theorem hostErrorsOnly_notAdmitted : (stopScript .notAdmitted).hostErrorsOnly := nofun

theorem hostErrorsOnly_structureError : (stopScript (.error .structureError)).hostErrorsOnly :=
  fun _ h => by cases h; exact .inl rfl

theorem hostErrorsOnly_valueRangeError : (stopScript (.error .valueRangeError)).hostErrorsOnly :=
  fun _ h => by cases h; exact .inr rfl

theorem hostErrorsOnly_oneCommand (i : Instr) (v : Int) : (oneCommand i v).hostErrorsOnly := by
  unfold oneCommand
  split
  · exact nofun
  · exact hostErrorsOnly_notAdmitted

theorem hostErrorsOnly_scriptBitsU (n : Nat) (v : Int) : (scriptBitsU n v).hostErrorsOnly := by
  unfold scriptBitsU
  split
  · exact hostErrorsOnly_oneCommand _ v
  · exact hostErrorsOnly_valueRangeError

theorem hostErrorsOnly_scriptBitsI (n : Nat) (v : Int) : (scriptBitsI n v).hostErrorsOnly := by
  unfold scriptBitsI
  split
  · exact hostErrorsOnly_oneCommand _ v
  · exact hostErrorsOnly_valueRangeError

theorem hostErrorsOnly_followedBy {x y : Script} (hx : x.hostErrorsOnly) (hy : y.hostErrorsOnly) :
    (followedBy x y).hostErrorsOnly := by
  unfold followedBy
  split
  case h_1 h hstop => exact fun e he => hx e (hstop.trans he)
  case h_2 => exact hy

/-- The expansions of a list, one after another. -/
theorem hostErrorsOnly_foldr {α : Type} {f : α → Script} (hf : ∀ x, (f x).hostErrorsOnly)
    (xs : List α) :
    (xs.foldr (fun x acc => followedBy (f x) acc) emptyScript).hostErrorsOnly := by
  induction xs with
  | nil => exact hostErrorsOnly_empty
  | cons x xs ih => exact hostErrorsOnly_followedBy (hf x) ih

/-- Either setting of CODEC_ALIGNS (45_codec_macros.md R154). -/
theorem hostErrorsOnly_ite {x y : Script} (hx : x.hostErrorsOnly) (hy : y.hostErrorsOnly) (b : Bool) :
    (if b then x else y).hostErrorsOnly := by
  cases b
  · exact hy
  · exact hx

mutual

/-- Every encode expansion stops with an error of the host's own only; a value of a shape that the codec
does not take is not admitted. -/
theorem hostErrorsOnly_enc (aligns : Bool) : ∀ (c : Codec) (v : Value),
    (c.enc aligns v).hostErrorsOnly
  | .u n, v => by
    cases v with
    | int v => exact hostErrorsOnly_scriptBitsU n v
    | _ => exact hostErrorsOnly_notAdmitted
  | .i n, v => by
    cases v with
    | int v => exact hostErrorsOnly_scriptBitsI n v
    | _ => exact hostErrorsOnly_notAdmitted
  | .bool, v => by
    cases v with
    | bool b => exact hostErrorsOnly_scriptBitsU 1 _
    | _ => exact hostErrorsOnly_notAdmitted
  | .u8, v | .u16le, v => by
    cases v with
    | int v =>
      exact hostErrorsOnly_ite (hostErrorsOnly_oneCommand _ v) (hostErrorsOnly_scriptBitsU _ v) aligns
    | _ => exact hostErrorsOnly_notAdmitted
  | .i8, v | .i16le, v => by
    cases v with
    | int v =>
      exact hostErrorsOnly_ite (hostErrorsOnly_oneCommand _ v) (hostErrorsOnly_scriptBitsI _ v) aligns
    | _ => exact hostErrorsOnly_notAdmitted
  | .u16be, v => by
    cases v with
    | int v =>
      exact hostErrorsOnly_ite (hostErrorsOnly_oneCommand _ v) (hostErrorsOnly_followedBy
        (hostErrorsOnly_scriptBitsU 8 _) (hostErrorsOnly_scriptBitsU 8 _)) aligns
    | _ => exact hostErrorsOnly_notAdmitted
  | .i16be, v => by
    cases v with
    | int v =>
      exact hostErrorsOnly_ite (hostErrorsOnly_oneCommand _ v) (hostErrorsOnly_followedBy
        (hostErrorsOnly_scriptBitsI 8 _) (hostErrorsOnly_scriptBitsU 8 _)) aligns
    | _ => exact hostErrorsOnly_notAdmitted
  | .alignToByte, v => by
    cases v with
    | none => exact hostErrorsOnly_oneCommand .wrAlign 0
    | _ => exact hostErrorsOnly_notAdmitted
  | .padBits n, v => by
    cases v with
    | none => exact hostErrorsOnly_foldr (fun k => hostErrorsOnly_scriptBitsU k 0) _
    | _ => exact hostErrorsOnly_notAdmitted
  | .enum _ nBits mapping, v => by
    simp only [Codec.enc]
    split
    · exact hostErrorsOnly_scriptBitsU nBits _
    · exact hostErrorsOnly_valueRangeError
  | .field name c, v => by
    cases v with
    | record fields =>
      simp only [Codec.enc]
      split
      · exact hostErrorsOnly_enc aligns c _
      · exact hostErrorsOnly_notAdmitted
    | _ => exact hostErrorsOnly_notAdmitted
  | .struct _ items, v => by
    simp only [Codec.enc]
    split
    · split
      · exact hostErrorsOnly_encItems aligns items _
      · exact hostErrorsOnly_notAdmitted
    · exact hostErrorsOnly_notAdmitted
  | .array _ elem _, v => by
    cases v with
    | list xs =>
      simp only [Codec.enc]
      split
      · exact hostErrorsOnly_structureError
      · exact hostErrorsOnly_foldr (hostErrorsOnly_enc aligns elem) xs
    | _ => exact hostErrorsOnly_notAdmitted
  | .varArray _ elem lengthCodec _ alignAfterLength, v => by
    cases v with
    | list xs =>
      simp only [Codec.enc]
      split
      · exact hostErrorsOnly_structureError
      · exact hostErrorsOnly_followedBy (hostErrorsOnly_enc aligns lengthCodec _)
          (hostErrorsOnly_followedBy
            (hostErrorsOnly_ite (hostErrorsOnly_oneCommand .wrAlign 0) hostErrorsOnly_empty
              alignAfterLength)
            (hostErrorsOnly_foldr (hostErrorsOnly_enc aligns elem) xs))
    | _ => exact hostErrorsOnly_notAdmitted

theorem hostErrorsOnly_encItems (aligns : Bool) :
    ∀ (items : List Codec) (fields : List (String × Value)),
      (encItems aligns items fields).hostErrorsOnly
  | [], _ => hostErrorsOnly_empty
  | c :: cs, fields =>
    hostErrorsOnly_followedBy (hostErrorsOnly_enc aligns c _)
      (hostErrorsOnly_encItems aligns cs fields)

end

/-! ### The ends of a decode -/

theorem ends_fetchBitsU (n : Nat) (s : State) : EndsAtFirstError (fetchBitsU n s) s := by
  unfold fetchBitsU
  split
  · exact ends_send _ s
  · exact ends_hostError (.inr rfl) s

theorem ends_fetchBitsI (n : Nat) (s : State) : EndsAtFirstError (fetchBitsI n s) s := by
  unfold fetchBitsI
  split
  · exact ends_send _ s
  · exact ends_hostError (.inr rfl) s

theorem ends_asInt {x : HostResult Int} {s : State} (hx : EndsAtFirstError x s) :
    EndsAtFirstError (asInt x) s := ends_andThen hx fun _ t => ends_done _ t

theorem ends_discard {x : HostResult Int} {s : State} (hx : EndsAtFirstError x s) :
    EndsAtFirstError (discard x) s := ends_andThen hx fun _ t => ends_done _ t

theorem ends_fetchPad (ks : List Nat) (s : State) : EndsAtFirstError (fetchPad ks s) s := by
  induction ks generalizing s with
  | nil => exact ends_done _ s
  | cons k ks ih => exact ends_andThen (ends_fetchBitsU k s) fun _ t => ih t

theorem ends_fetchPair {hi : State → HostResult Int} {s : State} (h : EndsAtFirstError (hi s) s) :
    EndsAtFirstError (fetchPair hi s) s :=
  ends_andThen h fun _ t => ends_andThen (ends_fetchBitsU 8 t) fun _ t' => ends_done _ t'

theorem ends_decTimes {d : State → HostResult Value} (hd : ∀ s, EndsAtFirstError (d s) s) (n : Nat)
    (s : State) : EndsAtFirstError (decTimes d n s) s := by
  induction n generalizing s with
  | zero => exact ends_done _ s
  | succ n ih =>
    exact ends_andThen (hd s) fun _ t => ends_andThen (ih t) fun _ t' => ends_done _ t'

/-- Either setting of CODEC_ALIGNS (45_codec_macros.md R154). -/
theorem ends_ite {α : Type} {x y : HostResult α} {s : State} (hx : EndsAtFirstError x s)
    (hy : EndsAtFirstError y s) (b : Bool) : EndsAtFirstError (if b then x else y) s := by
  cases b
  · exact hy
  · exact hx

mutual

/-- Every decode ends at its first failing command, or where the host stops it. -/
theorem ends_dec (aligns : Bool) : ∀ (c : Codec) (s : State), EndsAtFirstError (c.dec aligns s) s
  | .u n, s => ends_asInt (ends_fetchBitsU n s)
  | .i n, s => ends_asInt (ends_fetchBitsI n s)
  | .bool, s => ends_andThen (ends_fetchBitsU 1 s) fun _ t => ends_done _ t
  | .u8, s | .u16le, s => ends_asInt (ends_ite (ends_send _ s) (ends_fetchBitsU _ s) aligns)
  | .i8, s | .i16le, s => ends_asInt (ends_ite (ends_send _ s) (ends_fetchBitsI _ s) aligns)
  | .u16be, s =>
    ends_ite (ends_asInt (ends_send _ s)) (ends_fetchPair (ends_fetchBitsU 8 s)) aligns
  | .i16be, s =>
    ends_ite (ends_asInt (ends_send _ s)) (ends_fetchPair (ends_fetchBitsI 8 s)) aligns
  | .alignToByte, s => ends_discard (ends_send _ s)
  | .padBits n, s => ends_fetchPad (padPieces n) s
  | .enum _ nBits _, s => ends_andThen (ends_fetchBitsU nBits s) fun _ t => ends_done _ t
  | .field _ c, s => ends_dec aligns c s
  | .struct _ items, s => ends_andThen (ends_decItems aligns items s) fun _ t => ends_done _ t
  | .array _ elem count, s =>
    ends_andThen (ends_decTimes (ends_dec aligns elem) count s) fun _ t => ends_done _ t
  | .varArray _ elem lengthCodec _ alignAfterLength, s => by
    refine ends_andThen (ends_dec aligns lengthCodec s) fun lv t => ?_
    split
    · exact ends_notAdmitted t
    · split
      · exact ends_hostError (.inl rfl) t
      · exact ends_andThen (ends_ite (ends_discard (ends_send _ t)) (ends_done _ t) alignAfterLength)
          fun _ t' => ends_andThen (ends_decTimes (ends_dec aligns elem) _ t') fun _ t'' =>
            ends_done _ t''

theorem ends_decItems (aligns : Bool) : ∀ (items : List Codec) (s : State),
    EndsAtFirstError (decItems aligns items s) s
  | [], s => ends_done [] s
  | c :: cs, s => by
    refine ends_andThen (ends_dec aligns c s) fun v t =>
      ends_andThen (ends_decItems aligns cs t) fun fields t' => ?_
    split <;> exact ends_done _ t'

end

/-- Settles O54: a list of commands ends at its first error, and encodes and decodes are made of
commands, one activity after another. -/
theorem expansionStopsAtFirstError : Obligations.ExpansionStopsAtFirstError := by
  refine ⟨fun before after p s t u e hbefore hp => ?_, fun aligns c v s => ?_, fun aligns c s => ?_⟩
  · rw [sendAll_append, hbefore, andThen_done, sendAll, hp, andThen_failed]
  · exact ends_ite (ends_runScript (hostErrorsOnly_enc aligns c v) s) (ends_notAdmitted s) _
  · exact ends_ite (ends_dec aligns c s) (ends_notAdmitted s) _

/-! ### Sizes and layouts -/

/-- Items are of fixed size exactly when every one is, and then their size is the sum
(45_codec_macros.md R162). -/
theorem itemsBitSize_eq_some_iff {items : List Codec} {b : Nat} :
    itemsBitSize items = some b ↔
      ∃ sizes : List Nat, items.map Codec.bitSize = sizes.map some ∧ sizes.sum = b := by
  induction items generalizing b with
  | nil => simp [itemsBitSize]
  | cons c cs ih =>
    constructor
    · intro h
      simp only [itemsBitSize] at h
      split at h
      case h_1 a b' ha hb' =>
        cases h
        obtain ⟨sizes, hsizes, rfl⟩ := ih.mp hb'
        exact ⟨a :: sizes, by simp [ha, hsizes], rfl⟩
      case h_2 => cases h
    · rintro ⟨sizes, hsizes, rfl⟩
      obtain ⟨a, as, rfl, ha, has⟩ := List.map_eq_cons_iff.mp hsizes.symm
      simp only [itemsBitSize, ← ha, ih.mpr ⟨as, has.symm, rfl⟩, List.sum_cons]

/-- Nothing after a Variable item has an entry (45_codec_macros.md R162). -/
theorem layoutFrom_none (items : List Codec) : layoutFrom none items = [] := by
  cases items <;> rfl

/-- The layout of items from an offset: an entry for the first one when it is a field, and, past an item
of fixed size, the layout of the rest (45_codec_macros.md R160, R162). -/
theorem mem_layoutFrom_cons {off : Nat} {c : Codec} {cs : List Codec} {entry : LayoutEntry} :
    entry ∈ layoutFrom (some off) (c :: cs) ↔
      (∃ c', c = .field entry.name c' ∧ entry.bitOffset = off ∧ entry.bitSize = c'.bitSize) ∨
        ∃ size, c.bitSize = some size ∧ entry ∈ layoutFrom (some (off + size)) cs := by
  rw [layoutFrom, List.mem_append]
  refine or_congr ?_ ?_
  · obtain ⟨name, bitOffset, bitSize⟩ := entry
    cases c with
    | field name' c' =>
      simp only [Codec.fieldName, Codec.bitSize, List.mem_singleton, LayoutEntry.mk.injEq,
        Codec.field.injEq]
      exact ⟨fun ⟨hname, hoff, hsize⟩ => ⟨c', ⟨hname.symm, rfl⟩, hoff, hsize⟩,
        fun ⟨_, ⟨hname, hc⟩, hoff, hsize⟩ => ⟨hname.symm, hoff, hc ▸ hsize⟩⟩
    | _ => simp [Codec.fieldName]
  · cases c.bitSize with
    | none => simp [layoutFrom_none]
    | some size => simp

/-- The layout of items from an offset holds the fields before which every item is fixed, each at the
offset plus the sum of the sizes before it (45_codec_macros.md R162). -/
theorem mem_layoutFrom_iff {off : Nat} {items : List Codec} {entry : LayoutEntry} :
    entry ∈ layoutFrom (some off) items ↔
      ∃ (before after : List Codec) (c : Codec) (sizes : List Nat),
        items = before ++ .field entry.name c :: after ∧
          before.map Codec.bitSize = sizes.map some ∧ entry.bitOffset = off + sizes.sum ∧
          entry.bitSize = c.bitSize := by
  induction items generalizing off with
  | nil => simp [layoutFrom]
  | cons item items ih =>
    rw [mem_layoutFrom_cons]
    constructor
    · rintro (⟨c, rfl, hoff, hsize⟩ | ⟨size, hitem, hentry⟩)
      · exact ⟨[], items, c, [], rfl, rfl, hoff, hsize⟩
      · obtain ⟨before, after, c, sizes, rfl, hsizes, hoff, hsize⟩ := ih.mp hentry
        exact ⟨item :: before, after, c, size :: sizes, rfl, by simp [hitem, hsizes],
          by rw [hoff, List.sum_cons, Nat.add_assoc], hsize⟩
    · rintro ⟨_ | ⟨item', before⟩, after, c, sizes, hitems, hsizes, hoff, hsize⟩
      · obtain rfl : sizes = [] := by simpa using hsizes
        exact .inl ⟨c, (List.cons.inj hitems).1, hoff, hsize⟩
      · rw [List.cons_append, List.cons.injEq] at hitems
        obtain ⟨rfl, hitems⟩ := hitems
        obtain ⟨size, sizes, rfl, hitem, hsizes⟩ := List.map_eq_cons_iff.mp hsizes.symm
        exact .inr ⟨size, hitem.symm, ih.mpr ⟨before, after, c, sizes, hitems, hsizes.symm,
          by rw [hoff, List.sum_cons, Nat.add_assoc], hsize⟩⟩

/-- byteSizeCeil is defined for structs of fixed size, and is their size in bytes, rounded up
(45_codec_macros.md R162). -/
theorem byteSizeCeil_eq_some_iff {c : Codec} {n : Nat} :
    c.byteSizeCeil = some n ↔ ∃ (name : String) (items : List Codec) (b : Nat),
      c = .struct name items ∧ c.bitSize = some b ∧ n = (b + 7) / 8 := by
  cases c with
  | struct name items => simp [Codec.byteSizeCeil, Codec.bitSize, ceilDiv, eq_comm]
  | _ => simp [Codec.byteSizeCeil]

/-- Settles O58: the layout begins at offset 0, and the size of a struct is that of its items. -/
theorem layoutOffsetIsSumOfSizes : Obligations.LayoutOffsetIsSumOfSizes := by
  refine ⟨fun name items entry => ?_, fun name items b => itemsBitSize_eq_some_iff,
    fun c n => byteSizeCeil_eq_some_iff⟩
  exact mem_layoutFrom_iff.trans (by simp only [Nat.zero_add])

end Sys2Proof.Machine
end

section
/-! The codec family, images of bits: the image that a field, bytes and a skipped place have, stored
and present in BUF (20_memory.md R52, R54, R55; 45_codec_macros.md R151 to R158). -/

namespace Sys2Proof.Machine

/-! ### The bits of a number -/

theorem length_bitsOf (n : Nat) (v : Int) : (bitsOf n v).length = n := by simp [bitsOf]

theorem getElem?_bitsOf {n : Nat} {v : Int} {j : Nat} :
    (bitsOf n v)[j]? = if j < n then some (some (decide (v / 2 ^ j % 2 = 1))) else none := by
  unfold bitsOf
  split
  case isTrue h => simp [h]
  case isFalse h => simp [Nat.not_lt.mp h]

/-- The bits of a natural number (20_memory.md R54). -/
theorem getElem?_bitsOf_natCast {n u j : Nat} (h : j < n) :
    (bitsOf n (u : Int))[j]? = some (some (u.testBit j)) := by
  rw [getElem?_bitsOf, if_pos h, Nat.testBit_eq_decide_div_mod_eq]
  norm_cast

/-- The bits of a number are those of its first part and, above them, those of the rest
(20_memory.md R54). -/
theorem bitsOf_add (n k : Nat) (v : Int) : bitsOf (n + k) v = bitsOf n v ++ bitsOf k (v / 2 ^ n) := by
  simp only [bitsOf, List.range_add, List.map_append, List.map_map]
  refine congrArg (_ ++ ·) (List.map_congr_left fun j _ => ?_)
  rw [Function.comp, pow_add, Int.ediv_ediv_of_nonneg (by positivity)]

/-- Multiples of `2^n` have no part in the low `n` bits (41_bit_write.md R113). -/
theorem bitsOf_add_mul (n : Nat) (v q : Int) : bitsOf n (v + 2 ^ n * q) = bitsOf n v := by
  refine List.map_congr_left fun j hj => ?_
  have hpow : (2 : Int) ^ n = 2 ^ j * (2 * 2 ^ (n - (j + 1))) := by
    rw [← pow_succ', ← pow_add, show j + (n - (j + 1) + 1) = n by
      have := List.mem_range.mp hj
      omega]
  rw [hpow, mul_assoc, Int.add_mul_ediv_left _ _ (by positivity), mul_assoc,
    Int.add_mul_emod_self_left]

theorem bitsOf_emod (n : Nat) (v : Int) : bitsOf n (v % 2 ^ n) = bitsOf n v := by
  rw [← bitsOf_add_mul n (v % 2 ^ n) (v / 2 ^ n), Int.emod_add_mul_ediv]

/-- The bits of a biased value are those of the value (41_bit_write.md R111, R113). -/
theorem bitsOf_biased {n : Nat} {v : Int} (h : fitsSigned n v = true) :
    bitsOf n (biased n v) = bitsOf n v := by
  rw [biased_eq h]
  split
  · simpa using bitsOf_add_mul n v 1
  · rfl

theorem bitsOf_toNat {n : Nat} {v : Int} (h : fitsUnsigned n v = true) :
    bitsOf n (v.toNat : Int) = bitsOf n v := by
  rw [Int.toNat_of_nonneg (fitsUnsigned_iff.mp h).1]

/-- The image of an unsigned field is that of the pattern that WR.BITSU stores
(41_bit_write.md R110). -/
theorem unsignedImage_eq {n : Nat} (hn : n ≤ 32) (v : Int) :
    unsignedImage n v = if fitsUnsigned n v then some (bitsOf n (v.toNat : Int)) else none := by
  unfold unsignedImage
  split
  case isTrue h =>
    have hfits := fitsUnsigned_iff.mpr h.2
    rw [if_pos hfits, bitsOf_toNat hfits]
  case isFalse h => rw [if_neg fun hfits => h ⟨hn, fitsUnsigned_iff.mp hfits⟩]

theorem unsignedImage_of_lt {n : Nat} (hn : 32 < n) (v : Int) : unsignedImage n v = none :=
  if_neg fun h => Nat.not_lt.mpr h.1 hn

/-- The image of a signed field is that of the pattern that WR.BITSI stores (41_bit_write.md R111). -/
theorem signedImage_eq {n : Nat} (h1 : 1 ≤ n) (hn : n ≤ 32) (v : Int) :
    signedImage n v = if fitsSigned n v then some (bitsOf n (biased n v : Int)) else none := by
  unfold signedImage
  split
  case isTrue h =>
    obtain ⟨-, -, hlo, hhi⟩ := h
    have hfits : fitsSigned n v = true := fitsSigned_iff.mpr ⟨hlo, Int.le_sub_one_of_lt hhi⟩
    rw [if_pos hfits, bitsOf_biased hfits]
  case isFalse h =>
    rw [if_neg fun hfits => ?_]
    obtain ⟨hlo, hhi⟩ := fitsSigned_iff.mp hfits
    exact h ⟨h1, hn, hlo, Int.lt_of_le_sub_one hhi⟩

theorem signedImage_of_lt {n : Nat} (hn : n < 1 ∨ 32 < n) (v : Int) : signedImage n v = none :=
  if_neg fun h => by omega

/-! ### The bits of bytes -/

/-- The bits of bytes in address order (20_memory.md R52). -/
def bytesImage (us : List Nat) : Image := us.flatMap fun u => bitsOf 8 (u : Int)

theorem length_bytesImage (us : List Nat) : (bytesImage us).length = 8 * us.length := by
  simp [bytesImage, length_bitsOf, Nat.mul_comm]

theorem bytesImage_cons (u : Nat) (us : List Nat) :
    bytesImage (u :: us) = bitsOf 8 (u : Int) ++ bytesImage us := rfl

theorem getElem?_bytesImage {us : List Nat} {j : Nat} (h : j < 8 * us.length) :
    (bytesImage us)[j]? = some (some ((us.getD (j / 8) 0).testBit (j % 8))) := by
  induction us generalizing j with
  | nil => simp at h
  | cons u us ih =>
    rw [bytesImage_cons]
    by_cases hj : j < 8
    · rw [List.getElem?_append_left (by rwa [length_bitsOf]), getElem?_bitsOf_natCast hj,
        Nat.div_eq_of_lt hj, Nat.mod_eq_of_lt hj]
      rfl
    · rw [List.length_cons] at h
      rw [List.getElem?_append_right (by rw [length_bitsOf]; omega), length_bitsOf,
        ih (by omega), show j / 8 = (j - 8) / 8 + 1 by omega, show j % 8 = (j - 8) % 8 by omega]
      rfl

/-- The low byte of a number (43_aligned_write.md R133). -/
theorem bitsOf_low_byte (u : Nat) : bitsOf 8 ((u % 256 : Nat) : Int) = bitsOf 8 (u : Int) := by
  simpa using bitsOf_emod 8 (u : Int)

/-- The next byte of a number. -/
theorem bitsOf_high_byte (u : Nat) :
    bitsOf 8 ((u / 256 % 256 : Nat) : Int) = bitsOf 8 ((u : Int) / 256) := by
  simpa using bitsOf_emod 8 ((u : Int) / 256)

theorem bitsOf_two_bytes (v : Int) : bitsOf 16 v = bitsOf 8 v ++ bitsOf 8 (v / 256) :=
  bitsOf_add 8 8 v

/-- The high byte of a 16-bit image, and then the low one (45_codec_macros.md R156). -/
theorem highByteFirst_bitsOf (v : Int) :
    highByteFirst (bitsOf 16 v) = bitsOf 8 (v / 256) ++ bitsOf 8 v := by
  rw [highByteFirst, bitsOf_two_bytes, List.drop_left' (length_bitsOf ..),
    List.take_left' (length_bitsOf ..)]

theorem bytesImage_oneByte (u : Nat) : bytesImage (oneByte u) = bitsOf 8 (u : Int) :=
  List.append_nil _

theorem bytesImage_lowFirst (u : Nat) : bytesImage (lowFirst u) = bitsOf 16 (u : Int) := by
  rw [lowFirst, bytesImage_cons, bytesImage_cons, bitsOf_low_byte, bitsOf_high_byte, bitsOf_two_bytes]
  exact congrArg (_ ++ ·) (List.append_nil _)

theorem bytesImage_highFirst (u : Nat) :
    bytesImage (highFirst u) = highByteFirst (bitsOf 16 (u : Int)) := by
  rw [highFirst, bytesImage_cons, bytesImage_cons, bitsOf_high_byte, bitsOf_low_byte,
    highByteFirst_bitsOf]
  exact congrArg (_ ++ ·) (List.append_nil _)

/-! ### Images stored -/

theorem imageStored_skipped (m : Memory) (x n : Nat) :
    ImageStored m m x (List.replicate n none) :=
  ⟨fun j b h => by simp [List.getElem?_replicate] at h, fun _ _ => rfl⟩

/-- One image stored after another (45_codec_macros.md R161). -/
theorem ImageStored.append {m m1 m2 : Memory} {x : Nat} {bs cs : Image} (h : ImageStored m m1 x bs)
    (h' : ImageStored m1 m2 (x + bs.length) cs) : ImageStored m m2 x (bs ++ cs) := by
  obtain ⟨hbits, hrest⟩ := h
  obtain ⟨hbits', hrest'⟩ := h'
  refine ⟨fun j b hj => ?_, fun y hy => ?_⟩
  · by_cases hlt : j < bs.length
    · rw [List.getElem?_append_left hlt] at hj
      rw [hrest' _ fun j' b' _ => by omega]
      exact hbits j b hj
    · rw [List.getElem?_append_right (Nat.not_lt.mp hlt)] at hj
      rw [← hbits' _ b hj, Nat.add_assoc, Nat.add_sub_cancel' (Nat.not_lt.mp hlt)]
  · rw [hrest' y fun j b hj => ?_, hrest y fun j b hj => ?_]
    · refine hy j b ?_
      rw [List.getElem?_append_left (List.getElem?_eq_some_iff.mp hj).1, hj]
    · rw [Nat.add_assoc]
      refine hy (bs.length + j) b ?_
      rw [List.getElem?_append_right (Nat.le_add_right ..), Nat.add_sub_cancel_left, hj]

/-- What leaves an image without skipped places: its bits, and every bit outside it
(20_memory.md R55). -/
theorem imageStored_of_bits {m m' : Memory} {x : Nat} {bs : Image} {f : Nat → Bool}
    (hbs : ∀ j < bs.length, bs[j]? = some (some (f j)))
    (h : ∀ y, Memory.bit m' y = if x ≤ y ∧ y < x + bs.length then f (y - x) else Memory.bit m y) :
    ImageStored m m' x bs := by
  refine ⟨fun j b hj => ?_, fun y hy => ?_⟩
  · have hlt := (List.getElem?_eq_some_iff.mp hj).1
    rw [hbs j hlt] at hj
    rw [h, if_pos (by omega), Nat.add_sub_cancel_left]
    simpa using hj
  · rw [h, if_neg fun hin => ?_]
    exact hy (y - x) _ (hbs _ (by omega)) (by omega)

/-- A field written is its image stored (20_memory.md R55). -/
theorem imageStored_of_fieldWritten {m m' : Memory} {x n u : Nat} (h : FieldWritten m m' x n u) :
    ImageStored m m' x (bitsOf n (u : Int)) := by
  refine imageStored_of_bits (f := u.testBit) (fun j hj => ?_) ?_
  · rw [length_bitsOf] at hj
    exact getElem?_bitsOf_natCast hj
  · rw [length_bitsOf]
    exact h

/-- Bytes written are their image stored (20_memory.md R52). -/
theorem imageStored_of_bytesWritten {m m' : Memory} {a0 : Nat} {us : List Nat}
    (h : BytesWritten m m' a0 us) : ImageStored m m' (8 * a0) (bytesImage us) := by
  refine imageStored_of_bits (f := fun j => (us.getD (j / 8) 0).testBit (j % 8)) (fun j hj => ?_)
    fun y => ?_
  · rw [length_bytesImage] at hj
    exact getElem?_bytesImage hj
  · rw [length_bytesImage, Memory.bit, h]
    split
    case isTrue hin =>
      rw [if_pos (by omega), BitVec.getLsbD_ofNat, show (y - 8 * a0) / 8 = y / 8 - a0 by omega,
        show (y - 8 * a0) % 8 = y % 8 by omega]
      simp [Nat.mod_lt]
    case isFalse hout => rw [if_neg (by omega)]; rfl

/-! ### Images present -/

theorem imagePresent_append {m : Memory} {x : Nat} {bs cs : Image} :
    ImagePresent m x (bs ++ cs) ↔ ImagePresent m x bs ∧ ImagePresent m (x + bs.length) cs := by
  constructor
  · refine fun h => ⟨fun j b hj => h j b ?_, fun j b hj => ?_⟩
    · rw [List.getElem?_append_left (List.getElem?_eq_some_iff.mp hj).1, hj]
    · rw [Nat.add_assoc]
      refine h (bs.length + j) b ?_
      rw [List.getElem?_append_right (Nat.le_add_right ..), Nat.add_sub_cancel_left, hj]
  · rintro ⟨hbs, hcs⟩ j b hj
    by_cases hlt : j < bs.length
    · rw [List.getElem?_append_left hlt] at hj
      exact hbs j b hj
    · rw [List.getElem?_append_right (Nat.not_lt.mp hlt)] at hj
      rw [← hcs _ b hj, Nat.add_assoc, Nat.add_sub_cancel' (Nat.not_lt.mp hlt)]

/-- A field whose image BUF holds is the number whose bits they are (20_memory.md R54). -/
theorem field_of_imagePresent {m : Memory} {x n u : Nat} (hu : u < 2 ^ n)
    (h : ImagePresent m x (bitsOf n (u : Int))) : Memory.field m x n = u := by
  refine Nat.eq_of_testBit_eq fun j => ?_
  rw [field_testBit]
  by_cases hj : j < n
  · simpa [hj] using h j _ (getElem?_bitsOf_natCast hj)
  · rw [Nat.testBit_lt_two_pow (lt_of_lt_of_le hu (Nat.pow_le_pow_right (by omega) (by omega)))]
    simp [hj]

/-! ### Skipped places -/

theorem add_length_skipped (k : Nat) : k + (skipped k).length = alignUp k := by
  rw [skipped, List.length_replicate, ← alignUp]
  exact Nat.add_sub_cancel' (alignUp_spec k).1

/-- Past the skipped places is the first bit of a byte (20_memory.md R60). -/
theorem bitPos_add_length_skipped (c : Context) :
    c.bitPos + (skipped c.cur).length = 8 * c.alignedByte := by
  rw [Context.bitPos, Nat.add_assoc, add_length_skipped]
  simp only [alignUp, Context.alignedByte]
  omega

end Sys2Proof.Machine
end

section
/-! The codec family, encoding: every encode expansion stores the image of its value
(45_codec_macros.md R150 to R164). -/

namespace Sys2Proof.Machine

/-! ### Commands that were issued keep the invariant -/

/-- The host reads a response of the state that the command left. -/
theorem issue_of_send_done {p : Packet} {s t : State} {v : Int} (h : send p s = .done v t) :
    issue p s = .next t := by
  unfold send at h
  split at h
  case h_1 u hu =>
    obtain ⟨r, hr⟩ := issue_one_response hu
    rw [readResponse_of_append hr] at h
    split at h
    · cases h; exact hu
    · cases h
  all_goals cases h

/-- A packet keeps the invariant, whatever its word (10_state.md R24). -/
theorem issue_keeps_inv {p : Packet} {s t : State} (hs : s.Inv) (h : issue p s = .next t) :
    t.Inv := by
  cases hd : decode p.cw with
  | error x =>
    rw [issue_illegal hd] at h
    cases h
    exact raised_inv (s := s.receive p) hs (by decide)
  | ok i =>
    rw [issue_ok hd] at h
    exact (exec_effect h).keeps_inv hs

theorem sendAll_keeps_inv {ps : List Packet} {s t : State} (hs : s.Inv)
    (h : sendAll ps s = .done () t) : t.Inv := by
  induction ps generalizing s with
  | nil => cases h; exact hs
  | cons p ps ih =>
    obtain ⟨v, u, hp, hps⟩ := andThen_eq_done.mp h
    exact ih (issue_keeps_inv hs (issue_of_send_done hp)) hps

/-- An expansion that is done is one without a stop, whose commands all succeeded. -/
theorem runScript_eq_done {x : Script} {s t : State} :
    runScript x s = .done () t ↔ x.stop = none ∧ sendAll x.packets s = .done () t := by
  rw [runScript, andThen_eq_done]
  constructor
  · rintro ⟨⟨⟩, u, hps, h⟩
    split at h
    case h_1 hstop => cases h; exact ⟨hstop, hps⟩
    all_goals cases h
  · rintro ⟨hstop, hps⟩
    exact ⟨(), t, hps, by rw [hstop]⟩

theorem runScript_keeps_inv {x : Script} {s t : State} (hs : s.Inv)
    (h : runScript x s = .done () t) : t.Inv :=
  sendAll_keeps_inv hs (runScript_eq_done.mp h).2

/-! ### What an encode leaves -/

/-- The state after commands that wrote `n` bits at the writer's cursor: BUF, the cursor and the two
fields of the transaction interface. -/
def State.wroteOn (s : State) (n : Nat) (m : Memory) (p : Packet) (rs : List Response) : State :=
  { s with buf := m, wr := { s.wr with cur := s.wr.cur + n }, packet := p, responses := rs }

section WroteOn

variable (s : State) (n : Nat) (m : Memory) (p : Packet) (rs : List Response)

@[simp] theorem wroteOn_buf : (s.wroteOn n m p rs).buf = m := rfl
@[simp] theorem wroteOn_wr : (s.wroteOn n m p rs).wr = { s.wr with cur := s.wr.cur + n } := rfl
@[simp] theorem wroteOn_rd : (s.wroteOn n m p rs).rd = s.rd := rfl
@[simp] theorem wroteOn_err : (s.wroteOn n m p rs).err = s.err := rfl
@[simp] theorem wroteOn_packet : (s.wroteOn n m p rs).packet = p := rfl
@[simp] theorem wroteOn_responses : (s.wroteOn n m p rs).responses = rs := rfl

@[simp] theorem wroteOn_wroteOn (n' : Nat) (m' : Memory) (p' : Packet) (rs' : List Response) :
    (s.wroteOn n m p rs).wroteOn n' m' p' rs' = s.wroteOn (n + n') m' p' rs' := by
  simp [State.wroteOn, Nat.add_assoc]

/-- The bit under the cursor after a write. -/
theorem wroteOn_bitPos : (s.wroteOn n m p rs).wr.bitPos = s.wr.bitPos + n := (Nat.add_assoc ..).symm

end WroteOn

/-- What the commands of an encode leave, when each has answered OK: an image stored at the writer's
cursor, inside the region when the cursor was, and the cursor past it. -/
def Encoded (s : State) (bs : Image) (t : State) : Prop :=
  s.wr.advance (s.wr.cur + bs.length) ∧ ∃ m p k, ImageStored s.buf m s.wr.bitPos bs ∧
    t = s.wroteOn bs.length m p (s.responses ++ List.replicate k ⟨0, 0, []⟩)

theorem encoded_nil (s : State) : Encoded s [] s :=
  ⟨⟨Nat.le_add_right .., id⟩, s.buf, s.packet, 0, imageStored_skipped s.buf _ 0,
    by simp [State.wroteOn]⟩

theorem Encoded.append {s t u : State} {bs cs : Image} (h : Encoded s bs t) (h' : Encoded t cs u) :
    Encoded s (bs ++ cs) u := by
  obtain ⟨⟨-, hroom⟩, m, p, k, hm, rfl⟩ := h
  obtain ⟨⟨-, hroom'⟩, m', p', k', hm', rfl⟩ := h'
  rw [wroteOn_buf, wroteOn_bitPos] at hm'
  refine ⟨⟨by omega, fun hc => ?_⟩, m', p', k + k', hm.append hm', ?_⟩
  · rw [List.length_append, ← Nat.add_assoc]
    exact hroom' (hroom hc)
  · rw [wroteOn_wroteOn, wroteOn_responses, List.append_assoc, List.replicate_append_replicate,
      List.length_append]

/-! ### One writer command -/

/-- Everything a writer command with operand `v` can do: fail where the image has no room or there is
none, or store it and answer OK. -/
def WritesImage (i : Instr) (v : Int) (f : Nat → Option Image) : Prop :=
  ∀ s t : State, s.opA = v → exec i s = .next t →
    (∃ u e, t = State.raised u e ∧
      ∀ bs, f s.wr.cur = some bs → 8 * s.wr.size < s.wr.cur + bs.length) ∨
    ∃ bs m, f s.wr.cur = some bs ∧ s.wr.advance (s.wr.cur + bs.length) ∧
      ImageStored s.buf m s.wr.bitPos bs ∧
      t = (s.wroteOn bs.length m s.packet s.responses).answered 0 []

/-- A field write of a pattern has the image of the pattern (41_bit_write.md R110). -/
theorem writesImage_of_writeField {i : Instr} {v : Int} {n u : Nat}
    (h : ∀ s : State, s.opA = v → exec i s = writeField n u s) :
    WritesImage i v fun _ => some (bitsOf n (u : Int)) := by
  intro s t hv ht
  rw [h s hv] at ht
  obtain ⟨hcap, rfl⟩ | ⟨hcap, m, hm, -, -, rfl⟩ := writeField_cases ht
  · exact .inl ⟨s, _, rfl, fun bs hbs => by cases hbs; rwa [length_bitsOf]⟩
  · refine .inr ⟨_, m, rfl, ?_, imageStored_of_fieldWritten hm, ?_⟩
    · rw [length_bitsOf]
      exact advance_of_le_cap hcap
    · rw [length_bitsOf]
      rfl

/-- A command that refuses a value writes no image. -/
theorem writesImage_of_refused {i : Instr} {v : Int}
    (h : ∀ s : State, s.opA = v → exec i s = .next (s.failedWith .valueRangeError)) :
    WritesImage i v fun _ => none := by
  intro s t hv ht
  rw [h s hv] at ht
  cases ht
  exact .inl ⟨s, _, rfl, nofun⟩

/-- A field command that writes a pattern of the values that fit, and refuses the others. -/
theorem writesImage_of_test {i : Instr} {v : Int} {n u : Nat} {fits : Bool}
    (hfits : fits = true → ∀ s : State, s.opA = v → exec i s = writeField n u s)
    (hnot : ¬ fits = true → ∀ s : State, s.opA = v →
      exec i s = .next (s.failedWith .valueRangeError)) :
    WritesImage i v fun _ => if fits then some (bitsOf n (u : Int)) else none := by
  split
  case isTrue h => exact writesImage_of_writeField (hfits h)
  case isFalse h => exact writesImage_of_refused (hnot h)

/-- WR.BITSU writes the image of an unsigned field (45_codec_macros.md R151). -/
theorem writesImage_wrBitsU (k : NField) (v : Int) :
    WritesImage (.wrBitsU k) v fun _ => unsignedImage k.toNat v := by
  by_cases hn : k.toNat ≤ 32
  · rw [unsignedImage_eq hn]
    refine writesImage_of_test (fun hv s hs => ?_) fun hv s hs => ?_
    · subst hs
      exact exec_wrBitsU_of_fits hn hv
    · subst hs
      exact exec_wrBitsU_of_not_fits hv
  · rw [unsignedImage_of_lt (Nat.not_le.mp hn)]
    exact writesImage_of_refused fun s _ =>
      exec_fieldCommand_of_fieldMax_lt (Nat.not_le.mp hn) (by simp [fieldCommands]) s

/-- WR.BITSI writes the image of a signed field (45_codec_macros.md R152). -/
theorem writesImage_wrBitsI (k : NField) (v : Int) :
    WritesImage (.wrBitsI k) v fun _ => signedImage k.toNat v := by
  obtain hn | ⟨h1, hn⟩ :
      (k.toNat < 1 ∨ 32 < k.toNat) ∨ 1 ≤ k.toNat ∧ k.toNat ≤ 32 := by omega
  · rw [signedImage_of_lt hn]
    refine writesImage_of_refused fun s _ => ?_
    obtain h0 | hn := hn
    · exact exec_wrBitsI_of_lt_one h0 s
    · exact exec_fieldCommand_of_fieldMax_lt hn (by simp [fieldCommands]) s
  · rw [signedImage_eq h1 hn]
    refine writesImage_of_test (fun hv s hs => ?_) fun hv s hs => ?_
    · subst hs
      exact exec_wrBitsI_of_fits h1 hn hv
    · subst hs
      exact exec_wrBitsI_of_not_fits hv

/-- WR.ALIGN skips to the next byte boundary (45_codec_macros.md R157). -/
theorem writesImage_wrAlign (v : Int) : WritesImage .wrAlign v fun k => some (skipped k) := by
  intro s t _ ht
  rw [exec_wrAlign] at ht
  cases ht
  refine .inr ⟨_, s.buf, rfl, ?_, imageStored_skipped .., ?_⟩
  · rw [add_length_skipped]
    exact advance_alignUp s.wr
  · rw [State.wroteOn, add_length_skipped]

/-- An aligned write skips to the next byte boundary and writes the image of its bytes
(43_aligned_write.md R130, 45_codec_macros.md R154). -/
theorem writesImage_of_alignedWrite {i : Instr} {v : Int} {fits : Int → Bool}
    {bytes : Int → List Nat} {x : Option Image} (h : ∀ s, exec i s = alignedWrite fits bytes s)
    (hx : x = if fits v then some (bytesImage (bytes v)) else none) :
    WritesImage i v fun k => alignedImage true k x := by
  intro s t hv ht
  subst hv hx
  rw [h] at ht
  obtain ⟨hfits, rfl⟩ | ⟨hfits, ht⟩ := alignedWrite_cases ht
  · exact .inl ⟨_, _, rfl, fun bs hbs => by simp [alignedImage, hfits] at hbs⟩
  · rw [if_pos hfits]
    have hlen : s.wr.cur + (skipped s.wr.cur ++ bytesImage (bytes s.opA)).length =
        alignUp s.wr.cur + 8 * (bytes s.opA).length := by
      rw [List.length_append, ← Nat.add_assoc, add_length_skipped, length_bytesImage]
    obtain ⟨hcap, rfl⟩ | ⟨hcap, m, hm, -, -, rfl⟩ := writeBytes_cases (alignCur_wr_cur s) ht
    · refine .inl ⟨_, _, rfl, fun bs hbs => ?_⟩
      cases hbs
      rw [hlen]
      exact hcap
    · refine .inr ⟨_, m, rfl, ?_, (imageStored_skipped ..).append ?_, ?_⟩
      · rw [hlen]
        exact advance_aligned hcap
      · rw [← skipped, bitPos_add_length_skipped]
        exact imageStored_of_bytesWritten hm
      · rw [State.wroteOn, hlen]
        rfl

/-! ### Expansions -/

/-- An encode expansion writes an image: it is done only when there is one with room, which it then has
stored, and it is done whenever there is. -/
structure Script.Writes (x : Script) (f : Nat → Option Image) : Prop where
  sound : ∀ {s t}, runScript x s = .done () t → ∃ bs, f s.wr.cur = some bs ∧ Encoded s bs t
  complete : ∀ {s bs}, s.Inv → f s.wr.cur = some bs → s.wr.cur + bs.length ≤ 8 * s.wr.size →
    ∃ t, runScript x s = .done () t

theorem writes_congr {x : Script} {f g : Nat → Option Image} (h : x.Writes f)
    (hfg : ∀ k, f k = g k) : x.Writes g := by
  rwa [← funext hfg]

/-- A stop of the host writes nothing. -/
theorem writes_stop (h : HostStop) : (stopScript h).Writes fun _ => none where
  sound h := by simp [runScript_eq_done, stopScript] at h
  complete _ h := nomatch h

/-- The expansion that issues nothing writes the empty image. -/
theorem writes_empty : emptyScript.Writes fun _ => some [] where
  sound h := by cases h; exact ⟨[], rfl, encoded_nil _⟩
  complete _ _ _ := ⟨_, rfl⟩

/-- A test that both the expansion and the image make. -/
theorem writes_ite {x : Script} {f : Nat → Option Image} (hx : x.Writes f) (h : HostStop)
    (p : Prop) [Decidable p] :
    (if p then x else stopScript h).Writes fun k => if p then f k else none := by
  by_cases hp : p
  · simpa only [if_pos hp] using hx
  · simpa only [if_neg hp] using writes_stop h

/-- A test whose failure the expansion makes first. -/
theorem writes_unless {x : Script} {f : Nat → Option Image} (hx : x.Writes f) (h : HostStop)
    {p q : Prop} [Decidable p] [Decidable q] (hpq : q ↔ ¬ p) :
    (if p then stopScript h else x).Writes fun k => if q then f k else none := by
  have hite := writes_ite hx h q
  rw [if_congr hpq rfl rfl, ite_not] at hite
  exact hite

/-- One expansion after another writes one image after another (45_codec_macros.md R161). -/
theorem writes_followedBy {x y : Script} {f g : Nat → Option Image} (hx : x.Writes f)
    (hy : y.Writes g) : (followedBy x y).Writes fun k => imageThen (f k) g k where
  sound {s t} h := by
    rw [runScript_followedBy] at h
    obtain ⟨⟨⟩, u, hxu, hyt⟩ := andThen_eq_done.mp h
    obtain ⟨bs, hbs, hsu⟩ := hx.sound hxu
    obtain ⟨cs, hcs, hut⟩ := hy.sound hyt
    obtain ⟨-, m, p, k, -, rfl⟩ := id hsu
    rw [wroteOn_wr] at hcs
    exact ⟨bs ++ cs, by simp [imageThen, hbs, hcs], hsu.append hut⟩
  complete {s ds} hs hds hroom := by
    rw [runScript_followedBy]
    cases hbs : f s.wr.cur with
    | none => simp [imageThen, hbs] at hds
    | some bs =>
      simp only [imageThen, hbs, Option.map_eq_some_iff] at hds
      obtain ⟨cs, hcs, rfl⟩ := hds
      rw [List.length_append, ← Nat.add_assoc] at hroom
      obtain ⟨u, hu⟩ := hx.complete hs hbs (by omega)
      obtain ⟨bs', hbs', -, m, p, k, -, rfl⟩ := hx.sound hu
      obtain rfl : bs = bs' := Option.some.inj (hbs.symm.trans hbs')
      rw [hu, andThen_done]
      exact hy.complete (runScript_keeps_inv hs hu) hcs hroom

/-- The expansions of a list write the images of its elements (45_codec_macros.md R163). -/
theorem writes_foldr {enc : Value → Script} {image : Value → Nat → Option Image}
    (h : ∀ x, (enc x).Writes (image x)) (xs : List Value) :
    (xs.foldr (fun x acc => followedBy (enc x) acc) emptyScript).Writes (listImage image xs) := by
  induction xs with
  | nil => exact writes_empty
  | cons x xs ih => exact writes_followedBy (h x) ih

section OneCommand

variable {i : Instr} {v : Int}

/-- The packet of a command runs the command. -/
theorem issue_commandPacket (hwf : i.wellFormed = true) (s : State) :
    issue (commandPacket i v) s = exec i (s.receive (commandPacket i v)) :=
  issue_ok (p := commandPacket i v) (decodeEncodeRoundTrip i hwf) s

/-- Operand A of a packet is the integer it was made of, if 64 bits hold it (30_encoding.md R71). -/
theorem opA_receive_commandPacket (hv : isOperand v = true) (s : State) :
    (s.receive (commandPacket i v)).opA = v := by
  obtain ⟨hlo, hhi⟩ : -(2 ^ 63) ≤ v ∧ v < 2 ^ 63 := by simpa [isOperand] using hv
  exact resultWord_toInt hlo hhi

/-- The expansion of one command is done when the command gives a result. -/
theorem runScript_oneCommand (hv : isOperand v = true) {s t : State} :
    runScript (oneCommand i v) s = .done () t ↔ ∃ r, send (commandPacket i v) s = .done r t := by
  rw [oneCommand, if_pos hv, runScript_eq_done, sendAll, andThen_eq_done]
  simp [sendAll]

/-- One command writes the image that the command writes; an integer that is no operand has none. -/
theorem writes_oneCommand {f : Nat → Option Image} (hwf : i.wellFormed = true)
    (hi : WritesImage i v f) (hv : ∀ k bs, f k = some bs → isOperand v = true) :
    (oneCommand i v).Writes f := by
  by_cases hop : isOperand v = true
  case neg =>
    rw [oneCommand, if_neg hop]
    refine writes_congr (writes_stop _) fun k => ?_
    exact (Option.eq_none_iff_forall_ne_some.mpr fun bs hbs => hop (hv k bs hbs)).symm
  refine ⟨fun {s t} h => ?_, fun {s bs} hs hbs hroom => ?_⟩
  · obtain ⟨r, hr⟩ := (runScript_oneCommand hop).mp h
    have hissue := issue_of_send_done hr
    have hop' := opA_receive_commandPacket (i := i) hop s
    have hexec := hissue
    rw [issue_commandPacket hwf] at hexec
    obtain ⟨u, e, rfl, -⟩ | ⟨bs, m, hbs, hadv, hm, rfl⟩ := hi _ _ hop' hexec
    · rw [send_of_raised hissue] at hr
      cases hr
    · exact ⟨bs, hbs, hadv, m, _, 1, hm, rfl⟩
  · obtain ⟨-, -, -, hrd, hwr, -⟩ := hs
    obtain ⟨t, ht⟩ := exec_next i (s := s.receive (commandPacket i v)) hrd hwr
    have hissue := (issue_commandPacket hwf s).trans ht
    have hop' := opA_receive_commandPacket (i := i) hop s
    obtain ⟨u, e, rfl, hno⟩ | ⟨bs', m, -, -, -, rfl⟩ := hi _ _ hop' ht
    · exact absurd hroom (Nat.not_le.mpr (hno bs hbs))
    · exact ⟨_, (runScript_oneCommand hop).mpr ⟨_, send_of_answered hissue⟩⟩

end OneCommand

/-! ### Fields -/

section Fields

variable {n : Nat} {v : Int}

/-- A value of a field of at most 32 bits is an operand. -/
theorem isOperand_of_unsignedImage {bs : Image} (h : unsignedImage n v = some bs) :
    isOperand v = true := by
  unfold unsignedImage at h
  split at h
  case isFalse => cases h
  case isTrue hv =>
    obtain ⟨hn, hlo, hhi⟩ := hv
    have hpow : (2 : Int) ^ n ≤ 2 ^ 32 := pow_le_pow_right₀ (by decide) hn
    simp only [isOperand, decide_eq_true_eq]
    omega

theorem isOperand_of_signedImage {bs : Image} (h : signedImage n v = some bs) :
    isOperand v = true := by
  unfold signedImage at h
  split at h
  case isFalse => cases h
  case isTrue hv =>
    obtain ⟨-, hn, hlo, hhi⟩ := hv
    have hpow : (2 : Int) ^ (n - 1) ≤ 2 ^ 32 := pow_le_pow_right₀ (by decide) (by omega)
    simp only [isOperand, decide_eq_true_eq]
    omega

/-- The field N that carries a bit count, when there is one (30_encoding.md R72). -/
theorem countField_cases (n : Nat) :
    (∃ k : NField, countField n = some k ∧ k.toNat = n) ∨ (countField n = none ∧ 32 < n) := by
  unfold countField
  split
  case isTrue h => exact .inl ⟨_, rfl, BitVec.toNat_ofNat n 6 ▸ Nat.mod_eq_of_lt h⟩
  case isFalse h => exact .inr ⟨rfl, by omega⟩

/-- `WR.BITSU n, v` writes the image of an unsigned field (45_codec_macros.md R151). -/
theorem writes_scriptBitsU (n : Nat) (v : Int) :
    (scriptBitsU n v).Writes fun _ => unsignedImage n v := by
  unfold scriptBitsU
  obtain ⟨k, hk, rfl⟩ | ⟨hk, hn⟩ := countField_cases n
  · rw [hk]
    exact writes_oneCommand rfl (writesImage_wrBitsU k v) fun _ _ => isOperand_of_unsignedImage
  · rw [hk, unsignedImage_of_lt hn]
    exact writes_stop _

/-- `WR.BITSI n, v` writes the image of a signed field (45_codec_macros.md R152). -/
theorem writes_scriptBitsI (n : Nat) (v : Int) :
    (scriptBitsI n v).Writes fun _ => signedImage n v := by
  unfold scriptBitsI
  obtain ⟨k, hk, rfl⟩ | ⟨hk, hn⟩ := countField_cases n
  · rw [hk]
    exact writes_oneCommand rfl (writesImage_wrBitsI k v) fun _ _ => isOperand_of_signedImage
  · rw [hk, signedImage_of_lt (.inr hn)]
    exact writes_stop _

end Fields

/-- An alignment skips to the next byte boundary (45_codec_macros.md R157). -/
theorem writes_align : (oneCommand .wrAlign 0).Writes fun k => some (skipped k) :=
  writes_oneCommand rfl (writesImage_wrAlign 0) fun _ _ _ => rfl

/-! ### Fixed convenience codecs -/

/-- The image of an aligned value is one only when the value alone has one. -/
theorem exists_of_alignedImage {aligns : Bool} {k : Nat} {x : Option Image} {bs : Image}
    (h : alignedImage aligns k x = some bs) : ∃ cs, x = some cs := by
  cases aligns with
  | false => exact ⟨bs, h⟩
  | true =>
    obtain ⟨cs, hcs, -⟩ := Option.map_eq_some_iff.mp h
    exact ⟨cs, hcs⟩

/-- A fixed convenience codec writes its value at the cursor, or at the next byte boundary
(45_codec_macros.md R154 to R156). -/
theorem writes_aligned {i : Instr} {v : Int} {y : Script} {x : Option Image}
    (hwf : i.wellFormed = true) (hi : WritesImage i v fun k => alignedImage true k x)
    (hy : y.Writes fun _ => x) (hv : ∀ bs, x = some bs → isOperand v = true) (aligns : Bool) :
    (if aligns then oneCommand i v else y).Writes fun k => alignedImage aligns k x := by
  cases aligns with
  | false => exact hy
  | true =>
    refine writes_oneCommand hwf hi fun k bs hbs => ?_
    obtain ⟨cs, hcs⟩ := exists_of_alignedImage hbs
    exact hv cs hcs

/-- The unsigned codecs with the low byte first (45_codec_macros.md R154, R155). -/
theorem writes_unsigned {i : Instr} {n : Nat} {parts : Nat → List Nat} (hwf : i.wellFormed = true)
    (hn : n ≤ 32) (hexec : ∀ s, exec i s = alignedWrite (fitsUnsigned n) (fun v => parts v.toNat) s)
    (hparts : ∀ u, bytesImage (parts u) = bitsOf n (u : Int)) (aligns : Bool) (v : Int) :
    (if aligns then oneCommand i v else scriptBitsU n v).Writes
      fun k => alignedImage aligns k (unsignedImage n v) :=
  writes_aligned hwf
    (writesImage_of_alignedWrite hexec (by rw [unsignedImage_eq hn, hparts]))
    (writes_scriptBitsU n v) (fun _ => isOperand_of_unsignedImage) aligns

/-- The signed codecs with the low byte first (45_codec_macros.md R154, R155). -/
theorem writes_signed {i : Instr} {n : Nat} {parts : Nat → List Nat} (hwf : i.wellFormed = true)
    (h1 : 1 ≤ n) (hn : n ≤ 32)
    (hexec : ∀ s, exec i s = alignedWrite (fitsSigned n) (fun v => parts (biased n v)) s)
    (hparts : ∀ u, bytesImage (parts u) = bitsOf n (u : Int)) (aligns : Bool) (v : Int) :
    (if aligns then oneCommand i v else scriptBitsI n v).Writes
      fun k => alignedImage aligns k (signedImage n v) :=
  writes_aligned hwf
    (writesImage_of_alignedWrite hexec (by rw [signedImage_eq h1 hn, hparts]))
    (writes_scriptBitsI n v) (fun _ => isOperand_of_signedImage) aligns

/-- The image of a high byte and then that of a low one is the image of both, when the range of the high
byte is that of both (45_codec_macros.md R156). -/
theorem imageThen_low_byte {p q : Prop} [Decidable p] [Decidable q] (h : p ↔ q) (v : Int) (k : Nat) :
    imageThen (if p then some (bitsOf 8 (v / 256)) else none) (fun _ => unsignedImage 8 (v % 256)) k =
      (if q then some (bitsOf 16 v) else none).map highByteFirst := by
  have hlow : unsignedImage 8 (v % 256) = some (bitsOf 8 v) := by
    rw [unsignedImage, if_pos (by omega)]
    exact congrArg some (bitsOf_emod 8 v)
  by_cases hp : p
  · rw [if_pos hp, if_pos (h.mp hp), Option.map_some, highByteFirst_bitsOf]
    simp only [imageThen, hlow, Option.map_some]
  · rw [if_neg hp, if_neg (mt h.mpr hp)]
    rfl

theorem imageThen_unsigned_byte (v : Int) (k : Nat) :
    imageThen (unsignedImage 8 (v / 256)) (fun _ => unsignedImage 8 (v % 256)) k =
      (unsignedImage 16 v).map highByteFirst :=
  imageThen_low_byte (by omega) v k

theorem imageThen_signed_byte (v : Int) (k : Nat) :
    imageThen (signedImage 8 (v / 256)) (fun _ => unsignedImage 8 (v % 256)) k =
      (signedImage 16 v).map highByteFirst :=
  imageThen_low_byte (by omega) v k

/-- `u16be` (45_codec_macros.md R156). -/
theorem writes_u16be (aligns : Bool) (v : Int) :
    (Codec.enc aligns .u16be (.int v)).Writes (Codec.image aligns .u16be (.int v)) := by
  refine writes_aligned rfl (writesImage_of_alignedWrite (fits := fitsUnsigned 16)
    (bytes := fun v => highFirst v.toNat) (fun _ => rfl) ?_)
    (writes_congr (writes_followedBy (writes_scriptBitsU 8 _) (writes_scriptBitsU 8 _))
      (imageThen_unsigned_byte v)) (fun bs hbs => ?_) aligns
  · rw [unsignedImage_eq (by decide), bytesImage_highFirst]
    split <;> rfl
  · obtain ⟨cs, hcs, -⟩ := Option.map_eq_some_iff.mp hbs
    exact isOperand_of_unsignedImage hcs

/-- `i16be` (45_codec_macros.md R156). -/
theorem writes_i16be (aligns : Bool) (v : Int) :
    (Codec.enc aligns .i16be (.int v)).Writes (Codec.image aligns .i16be (.int v)) := by
  refine writes_aligned rfl (writesImage_of_alignedWrite (fits := fitsSigned 16)
    (bytes := fun v => highFirst (biased 16 v)) (fun _ => rfl) ?_)
    (writes_congr (writes_followedBy (writes_scriptBitsI 8 _) (writes_scriptBitsU 8 _))
      (imageThen_signed_byte v)) (fun bs hbs => ?_) aligns
  · rw [signedImage_eq (by decide) (by decide), bytesImage_highFirst]
    split <;> rfl
  · obtain ⟨cs, hcs, -⟩ := Option.map_eq_some_iff.mp hbs
    exact isOperand_of_signedImage hcs

/-! ### Pads -/

/-- Zero has zeros as its bits (45_codec_macros.md R158). -/
theorem bitsOf_zero (n : Nat) : bitsOf n 0 = List.replicate n (some false) := by
  simp [bitsOf, List.map_const']

/-- The pieces of a pad are fields of at most 32 bits, of as many bits together
(45_codec_macros.md R158). -/
theorem padPieces_spec (n : Nat) : (∀ k ∈ padPieces n, k ≤ 32) ∧ (padPieces n).sum = n := by
  unfold padPieces
  split
  case isTrue h =>
    refine ⟨fun k hk => ?_, ?_⟩
    · simp only [List.mem_append, List.mem_replicate, List.mem_singleton] at hk
      omega
    · simp only [List.sum_append, List.sum_replicate, List.sum_singleton, smul_eq_mul]
      omega
  case isFalse h =>
    refine ⟨fun k hk => ?_, ?_⟩
    · simp only [List.append_nil, List.mem_replicate] at hk
      omega
    · simp only [List.append_nil, List.sum_replicate, smul_eq_mul]
      omega

theorem unsignedImage_zero {n : Nat} (hn : n ≤ 32) :
    unsignedImage n 0 = some (List.replicate n (some false)) := by
  rw [unsignedImage, if_pos ⟨hn, le_rfl, by positivity⟩, bitsOf_zero]

/-- The pieces of a pad write zeros (45_codec_macros.md R158). -/
theorem writes_zeros {ks : List Nat} (h : ∀ k ∈ ks, k ≤ 32) :
    (ks.foldr (fun k acc => followedBy (scriptBitsU k 0) acc) emptyScript).Writes
      fun _ => some (List.replicate ks.sum (some false)) := by
  induction ks with
  | nil => exact writes_empty
  | cons k ks ih =>
    obtain ⟨hk, hks⟩ := List.forall_mem_cons.mp h
    refine writes_congr (writes_followedBy (writes_scriptBitsU k 0) (ih hks)) fun _ => ?_
    simp [imageThen, unsignedImage_zero hk]

theorem writes_scriptPad (n : Nat) :
    (scriptPad n).Writes fun _ => some (List.replicate n (some false)) := by
  obtain ⟨hle, hsum⟩ := padPieces_spec n
  have h := writes_zeros hle
  rwa [hsum] at h

/-! ### Every codec -/

theorem writes_optionalAlign (b : Bool) : (if b then oneCommand .wrAlign 0 else emptyScript).Writes
    fun k => some (if b then skipped k else []) := by
  cases b
  · exact writes_empty
  · exact writes_align

mutual

/-- Every encode expansion writes the image of its value; a value of a shape that the codec does not
take has none. -/
theorem writes_enc (aligns : Bool) : ∀ (c : Codec) (v : Value),
    (c.enc aligns v).Writes (c.image aligns v)
  | .u n, v => by
    cases v with
    | int v => exact writes_scriptBitsU n v
    | _ => exact writes_stop _
  | .i n, v => by
    cases v with
    | int v => exact writes_scriptBitsI n v
    | _ => exact writes_stop _
  | .bool, v => by
    cases v with
    | bool b =>
      refine writes_congr (writes_scriptBitsU 1 _) fun k => ?_
      cases b <;> rfl
    | _ => exact writes_stop _
  | .u8, v => by
    cases v with
    | int v => exact writes_unsigned rfl (by decide) (fun _ => rfl) bytesImage_oneByte aligns v
    | _ => exact writes_stop _
  | .i8, v => by
    cases v with
    | int v =>
      exact writes_signed rfl (by decide) (by decide) (fun _ => rfl) bytesImage_oneByte aligns v
    | _ => exact writes_stop _
  | .u16le, v => by
    cases v with
    | int v => exact writes_unsigned rfl (by decide) (fun _ => rfl) bytesImage_lowFirst aligns v
    | _ => exact writes_stop _
  | .i16le, v => by
    cases v with
    | int v =>
      exact writes_signed rfl (by decide) (by decide) (fun _ => rfl) bytesImage_lowFirst aligns v
    | _ => exact writes_stop _
  | .u16be, v => by
    cases v with
    | int v => exact writes_u16be aligns v
    | _ => exact writes_stop _
  | .i16be, v => by
    cases v with
    | int v => exact writes_i16be aligns v
    | _ => exact writes_stop _
  | .alignToByte, v => by
    cases v with
    | none => exact writes_align
    | _ => exact writes_stop _
  | .padBits n, v => by
    cases v with
    | none => exact writes_scriptPad n
    | _ => exact writes_stop _
  | .enum _ nBits mapping, v => by
    cases v with
    | int v => exact writes_scriptBitsU nBits v
    | key name =>
      simp only [Codec.enc, enumCode, Codec.image]
      cases mapping.lookup name with
      | some code => exact writes_scriptBitsU nBits code
      | none => exact writes_stop _
    | _ => exact writes_stop _
  | .field name c, v => by
    cases v with
    | record fields =>
      simp only [Codec.enc, Codec.image]
      cases fields.lookup name with
      | some v => exact writes_enc aligns c v
      | none => exact writes_stop _
    | _ => exact writes_stop _
  | .struct _ items, v => by
    cases v with
    | record fields => exact writes_ite (writes_encItems aligns items fields) _ _
    | none => exact writes_ite (writes_encItems aligns items []) _ _
    | _ => exact writes_stop _
  | .array _ elem count, v => by
    cases v with
    | list xs =>
      simp only [Codec.enc, Codec.image]
      exact writes_unless (writes_foldr (writes_enc aligns elem) xs) _ not_not.symm
    | _ => exact writes_stop _
  | .varArray _ elem lengthCodec maxCount alignAfterLength, v => by
    cases v with
    | list xs =>
      simp only [Codec.enc, Codec.image]
      refine writes_unless (writes_followedBy (writes_enc aligns lengthCodec _) ?_) _ Nat.not_lt.symm
      exact writes_followedBy (writes_optionalAlign alignAfterLength)
        (writes_foldr (writes_enc aligns elem) xs)
    | _ => exact writes_stop _

/-- The items of a struct write their images in declaration order. -/
theorem writes_encItems (aligns : Bool) : ∀ (items : List Codec) (fields : List (String × Value)),
    (encItems aligns items fields).Writes (itemsImage aligns items fields)
  | [], _ => writes_empty
  | c :: cs, fields =>
    writes_followedBy (writes_enc aligns c _) (writes_encItems aligns cs fields)

end

end Sys2Proof.Machine
end

section
/-! The codec family, what an encode stores (45_codec_macros.md R150 to R164; 40_context_control.md
R105). -/

namespace Sys2Proof.Machine

/-- WR.LEN answers the bytes that the writer's cursor has passed (40_context_control.md R105). -/
theorem runLine_wrLen {s : State} (hs : s.Inv) :
    ∃ t, runLine "WR.LEN".toList s = some (.done (((s.wr.cur + 7) / 8 : Nat) : Int) t) := by
  have hasm : assemble "WR.LEN".toList = some ⟨Packet.ofWord 0x0105, .asByteCount⟩ := by decide
  have hdec : decode (Packet.ofWord 0x0105).cw = .ok (.getreg 5) :=
    decodeEncodeRoundTrip (.getreg 5) rfl
  obtain ⟨-, -, hsize, -, hwr, -⟩ := hs
  obtain ⟨-, -, hcur⟩ := legal_registers_lt hsize hwr
  have hissue := (issue_ok hdec s).trans (exec_getreg_of_register (v := s.wr.cur) rfl)
  refine ⟨(s.receive (Packet.ofWord 0x0105)).answered (resultWord (s.wr.cur : Int)) [], ?_⟩
  rw [runLine, hasm, Option.map_some, send_of_answered hissue, andThen_done,
    resultWord_toInt (by omega) (by omega)]
  rfl

/-- An encode of an admitted codec is the run of its expansion. -/
theorem encodeValue_eq_done {aligns : Bool} {c : Codec} {v : Value} {s t : State} :
    encodeValue aligns c v s = .done () t ↔
      c.admitted = true ∧ runScript (c.enc aligns v) s = .done () t := by
  unfold encodeValue
  by_cases h : c.admitted = true
  · simp [h]
  · simp [h]

/-- A value that has an image with room is encoded (45_codec_macros.md R150). -/
theorem encodeValue_of_image {aligns : Bool} {c : Codec} {v : Value} {s : State} {bs : Image}
    (hs : s.Inv) (hc : c.admitted = true) (hbs : c.image aligns v s.wr.cur = some bs)
    (hroom : s.wr.cur + bs.length ≤ 8 * s.wr.size) :
    ∃ t, encodeValue aligns c v s = .done () t ∧ t.Inv ∧ Encoded s bs t := by
  obtain ⟨t, ht⟩ := (writes_enc aligns c v).complete hs hbs hroom
  obtain ⟨bs', hbs', henc⟩ := (writes_enc aligns c v).sound ht
  obtain rfl : bs = bs' := Option.some.inj (hbs.symm.trans hbs')
  exact ⟨t, encodeValue_eq_done.mpr ⟨hc, ht⟩, runScript_keeps_inv hs ht, henc⟩

/-- Settles O59: an expansion writes the image of its value, and the cursor is past the image. -/
theorem encodeStoresImage : Obligations.EncodeStoresImage := by
  intro aligns c v s hs hc
  refine ⟨fun bs hbs hroom => ?_, fun t ht => ?_⟩
  · obtain ⟨t, ht, hinv, -, m, p, k, hm, rfl⟩ := encodeValue_of_image hs hc hbs hroom
    exact ⟨_, ht, hm, rfl, ⟨k, rfl⟩, runLine_wrLen hinv⟩
  · obtain ⟨bs, hbs, ⟨-, hroom⟩, -⟩ := (writes_enc aligns c v).sound (encodeValue_eq_done.mp ht).2
    obtain ⟨-, -, -, -, hwr, -⟩ := hs
    exact ⟨bs, hbs, hroom hwr.2⟩

/-- The bits of BUF after the image of a pad is stored (45_codec_macros.md R158). -/
theorem bit_of_imageStored_zeros {m m' : Memory} {x n : Nat}
    (h : ImageStored m m' x (List.replicate n (some false))) (y : Nat) :
    Memory.bit m' y = if x ≤ y ∧ y < x + n then false else Memory.bit m y := by
  obtain ⟨hbits, hrest⟩ := h
  split
  case isTrue hy =>
    have hj : y - x < n := by omega
    rw [← hbits (y - x) false (by simp [hj]), Nat.add_sub_cancel' hy.1]
  case isFalse hy =>
    refine hrest y fun j b hj => ?_
    have := (List.getElem?_eq_some_iff.mp hj).1
    rw [List.length_replicate] at this
    omega

/-- Settles O55: the image of a pad is its zeros. -/
theorem padBitsWritesZeros : Obligations.PadBitsWritesZeros := by
  intro aligns n s hs hroom
  have himage : Codec.image aligns (.padBits n) .none s.wr.cur =
      some (List.replicate n (some false)) := rfl
  obtain ⟨t, ht, -, -, m, p, k, hm, rfl⟩ :=
    encodeValue_of_image hs rfl himage (by rwa [List.length_replicate])
  exact ⟨_, ht, by rw [wroteOn_wr, List.length_replicate], rfl, rfl, bit_of_imageStored_zeros hm⟩

end Sys2Proof.Machine
end

section
/-! The codec family, decoding: every decode over the image of a value gives the value back
(45_codec_macros.md R150 to R165). -/

namespace Sys2Proof.Machine

/-! ### What a decode leaves -/

/-- The state after commands that read `n` bits at the reader's cursor: the cursor and the two fields of
the transaction interface. -/
def State.readOn (s : State) (n : Nat) (p : Packet) (rs : List Response) : State :=
  { s with rd := { s.rd with cur := s.rd.cur + n }, packet := p, responses := rs }

section ReadOn

variable (s : State) (n : Nat) (p : Packet) (rs : List Response)

@[simp] theorem readOn_buf : (s.readOn n p rs).buf = s.buf := rfl
@[simp] theorem readOn_rd : (s.readOn n p rs).rd = { s.rd with cur := s.rd.cur + n } := rfl
@[simp] theorem readOn_wr : (s.readOn n p rs).wr = s.wr := rfl

@[simp] theorem readOn_readOn (n' : Nat) (p' : Packet) (rs' : List Response) :
    (s.readOn n p rs).readOn n' p' rs' = s.readOn (n + n') p' rs' := by
  simp [State.readOn, Nat.add_assoc]

/-- The bit under the cursor after a read. -/
theorem readOn_bitPos : (s.readOn n p rs).rd.bitPos = s.rd.bitPos + n := (Nat.add_assoc ..).symm

/-- A read inside the region keeps the invariant (10_state.md R24). -/
theorem readOn_inv {s : State} (hs : s.Inv) {n : Nat} (h : s.rd.cur + n ≤ 8 * s.rd.size) :
    (s.readOn n p rs).Inv := by
  obtain ⟨hwf, hin, hsize, hrd, hwr, herr⟩ := hs
  exact ⟨hwf, hin, hsize, ⟨hrd.1, h⟩, hwr, herr⟩

end ReadOn

/-- Over an image that BUF holds at the reader's cursor inside the region, the activity is done with `v`
and moves the cursor past the image. -/
def DecodesAs {α : Type} (d : State → HostResult α) (f : Nat → Option Image) (v : α) : Prop :=
  ∀ (s : State) (bs : Image), s.Inv → f s.rd.cur = some bs →
    s.rd.cur + bs.length ≤ 8 * s.rd.size → ImagePresent s.buf s.rd.bitPos bs →
      ∃ p rs, d s = .done v (s.readOn bs.length p rs)

section DecodesAs

variable {α β : Type} {d : State → HostResult α} {f g : Nat → Option Image} {v : α} {w : β}

theorem decodes_congr (h : DecodesAs d f v) (hfg : ∀ k, f k = g k) : DecodesAs d g v := by
  rwa [← funext hfg]

/-- No image, nothing to decode. -/
theorem decodes_none (d : State → HostResult α) (v : α) : DecodesAs d (fun _ => none) v :=
  fun _ _ _ h => nomatch h

theorem decodes_done (v : α) : DecodesAs (fun s => .done v s) (fun _ => some []) v := by
  intro s bs _ hbs _ _
  cases hbs
  exact ⟨s.packet, s.responses, rfl⟩

/-- A test that the image makes. -/
theorem decodes_ite {p : Prop} [Decidable p] (h : p → DecodesAs d f v) :
    DecodesAs d (fun k => if p then f k else none) v := by
  by_cases hp : p
  · simpa only [if_pos hp] using h hp
  · simpa only [if_neg hp] using decodes_none d v

/-- One activity after another decodes one image after another (45_codec_macros.md R161). -/
theorem decodes_andThen {e : α → State → HostResult β} (hd : DecodesAs d f v)
    (he : DecodesAs (e v) g w) :
    DecodesAs (fun s => andThen (d s) e) (fun k => imageThen (f k) g k) w := by
  intro s ds hs hds hroom hpresent
  cases hbs : f s.rd.cur with
  | none => simp [imageThen, hbs] at hds
  | some bs =>
    simp only [imageThen, hbs, Option.map_eq_some_iff] at hds
    obtain ⟨cs, hcs, rfl⟩ := hds
    rw [List.length_append, ← Nat.add_assoc] at hroom
    obtain ⟨hpresent, hpresent'⟩ := imagePresent_append.mp hpresent
    have hroom' : s.rd.cur + bs.length ≤ 8 * s.rd.size := by omega
    obtain ⟨p, rs, hdone⟩ := hd s bs hs hbs hroom' hpresent
    obtain ⟨p', rs', hdone'⟩ := he (s.readOn bs.length p rs) cs (readOn_inv p rs hs hroom') hcs hroom
      (by rwa [readOn_bitPos])
    exact ⟨p', rs', by
      simp only [hdone, andThen_done, hdone', readOn_readOn, List.length_append]⟩

/-- An activity and then a computation of the host alone. -/
theorem decodes_map {e : α → State → HostResult β} (hd : DecodesAs d f v)
    (he : ∀ t, e v t = .done w t) : DecodesAs (fun s => andThen (d s) e) f w := by
  intro s bs hs hbs hroom hpresent
  obtain ⟨p, rs, hdone⟩ := hd s bs hs hbs hroom hpresent
  exact ⟨p, rs, by simp only [hdone, andThen_done, he]⟩

end DecodesAs

/-! ### One reader command -/

/-- Over an image that BUF holds at the reader's cursor inside the region, a reader command answers OK
with `v` and moves the cursor past the image. -/
def ReadsImage (i : Instr) (f : Nat → Option Image) (v : Int) : Prop :=
  ∀ (s : State) (bs : Image), s.Inv → f s.rd.cur = some bs →
    s.rd.cur + bs.length ≤ 8 * s.rd.size → ImagePresent s.buf s.rd.bitPos bs →
      ∃ w : Word, w.toInt = v ∧
        exec i s = .next ((s.readOn bs.length s.packet s.responses).answered w [])

/-- The host takes the result of its command (45_codec_macros.md R150). -/
theorem decodes_fetch {i : Instr} {f : Nat → Option Image} {v : Int} (hwf : i.wellFormed = true)
    (hi : ReadsImage i f v) : DecodesAs (fetch i) f v := by
  intro s bs hs hbs hroom hpresent
  obtain ⟨w, rfl, hexec⟩ := hi (s.receive (commandPacket i 0)) bs hs hbs hroom hpresent
  exact ⟨_, _, send_of_answered ((issue_commandPacket hwf s).trans hexec)⟩

/-- A field read of a pattern below `2^n` reads the image of the pattern (42_bit_read.md R120). -/
theorem readsImage_of_readField {i : Instr} {n u : Nat} {interp : Nat → Int} {v : Int}
    (h : ∀ s, exec i s = readField n interp s) (hu : u < 2 ^ n)
    (hv : (resultWord (interp u)).toInt = v) :
    ReadsImage i (fun _ => some (bitsOf n (u : Int))) v := by
  intro s bs ⟨_, _, _, hrd, _⟩ hbs hroom hpresent
  cases hbs
  rw [length_bitsOf] at hroom ⊢
  have hread := readField_of_le_cap interp hrd hroom
  rw [field_of_imagePresent hu hpresent] at hread
  exact ⟨_, hv, (h s).trans hread⟩

/-- RD.ALIGN passes the skipped places, whatever they hold (42_bit_read.md R122). -/
theorem readsImage_rdAlign : ReadsImage .rdAlign (fun k => some (skipped k)) 0 := by
  intro s bs _ hbs _ _
  cases hbs
  rw [State.readOn, add_length_skipped]
  exact ⟨0, rfl, exec_rdAlign s⟩

/-- Bytes whose image BUF holds are the bytes that a read sees (44_aligned_read.md R143). -/
theorem byteValues_of_imagePresent {m : Memory} {a : Nat} {us : List Nat} (hus : ∀ u ∈ us, u < 256)
    (h : ImagePresent m (8 * a) (bytesImage us)) :
    byteValues us.length (fun j => Memory.byteAt m (a + j)) = us := by
  induction us generalizing a with
  | nil => rfl
  | cons u us ih =>
    obtain ⟨hu, hus⟩ := List.forall_mem_cons.mp hus
    rw [bytesImage_cons, imagePresent_append, length_bitsOf] at h
    obtain ⟨hhead, htail⟩ := h
    have ih := ih (a := a + 1) hus htail
    simp only [Nat.add_right_comm a 1] at ih
    rw [List.length_cons, byteValues_succ, Nat.add_zero, ← field_byte,
      field_of_imagePresent (n := 8) hu hhead]
    exact congrArg (u :: ·) ih

/-- An aligned read skips to the next byte boundary and reads the image of its bytes
(44_aligned_read.md R140, 45_codec_macros.md R154). -/
theorem readsImage_of_alignedRead {i : Instr} {us : List Nat} {interp : List Nat → Int} {v : Int}
    (h : ∀ s, exec i s = alignedRead us.length interp s) (hus : ∀ u ∈ us, u < 256)
    (hv : (resultWord (interp us)).toInt = v) :
    ReadsImage i (fun k => alignedImage true k (some (bytesImage us))) v := by
  intro s bs ⟨_, _, _, hrd, _⟩ hbs hroom hpresent
  cases hbs
  have hlen : s.rd.cur + (skipped s.rd.cur ++ bytesImage us).length =
      s.rd.aligned.cur + 8 * us.length := by
    rw [List.length_append, ← Nat.add_assoc, add_length_skipped, length_bytesImage]
    rfl
  obtain ⟨-, hbytes⟩ := imagePresent_append.mp hpresent
  rw [bitPos_add_length_skipped] at hbytes
  rw [hlen] at hroom
  have hread := alignedRead_of_le_cap interp hrd hroom
  simp only [State.bufByte, byteValues_of_imagePresent hus hbytes] at hread
  rw [State.readOn, hlen]
  exact ⟨_, hv, (h s).trans hread⟩

/-! ### Fields -/

/-- The value of an unsigned field, from the pattern that it has (42_bit_read.md R120). -/
theorem resultWord_of_fitsUnsigned {n : Nat} {v : Int} (hn : n ≤ 32) (h : fitsUnsigned n v = true) :
    v.toNat < 2 ^ n ∧ (resultWord (zeroExtend v.toNat)).toInt = v := by
  obtain ⟨hlo, hhi⟩ := fitsUnsigned_iff.mp h
  have hlt : v.toNat < 2 ^ n := by
    rw [← Int.toNat_of_nonneg hlo] at hhi
    exact_mod_cast hhi
  exact ⟨hlt, (resultWord_zeroExtend_toInt hn hlt).trans (Int.toNat_of_nonneg hlo)⟩

/-- The value of a signed field, from the pattern that it has (42_bit_read.md R121, R123). -/
theorem resultWord_of_fitsSigned {n : Nat} {v : Int} (h1 : 1 ≤ n) (hn : n ≤ 32)
    (h : fitsSigned n v = true) :
    biased n v < 2 ^ n ∧ (resultWord (signExtend n (biased n v))).toInt = v := by
  have hlt := biased_lt h1 h
  refine ⟨hlt, ?_⟩
  rw [resultWord_signExtend_toInt h1 hn hlt, ← signExtend_eq, signExtend_biased h1 h]

/-- `RD.BITSU n` reads the image of an unsigned field (45_codec_macros.md R151). -/
theorem decodes_fetchBitsU (n : Nat) (v : Int) :
    DecodesAs (fetchBitsU n) (fun _ => unsignedImage n v) v := by
  obtain ⟨k, hk, rfl⟩ | ⟨-, hn⟩ := countField_cases n
  case inr => rw [unsignedImage_of_lt hn]; exact decodes_none _ v
  by_cases hn : k.toNat ≤ 32
  case neg => rw [unsignedImage_of_lt (Nat.not_le.mp hn)]; exact decodes_none _ v
  simp only [unsignedImage_eq hn]
  refine decodes_ite fun hfits => ?_
  obtain ⟨hlt, hv⟩ := resultWord_of_fitsUnsigned hn hfits
  have hfetch : fetchBitsU k.toNat = fetch (.rdBitsU k) := funext fun s => by
    simp only [fetchBitsU, hk]
  rw [hfetch]
  exact decodes_fetch rfl (readsImage_of_readField (fun _ => exec_rdBitsU_of_le hn) hlt hv)

/-- `RD.BITSI n` reads the image of a signed field (45_codec_macros.md R152). -/
theorem decodes_fetchBitsI (n : Nat) (v : Int) :
    DecodesAs (fetchBitsI n) (fun _ => signedImage n v) v := by
  obtain ⟨k, hk, rfl⟩ | ⟨-, hn⟩ := countField_cases n
  case inr => rw [signedImage_of_lt (.inr hn)]; exact decodes_none _ v
  by_cases hn : 1 ≤ k.toNat ∧ k.toNat ≤ 32
  case neg => rw [signedImage_of_lt (by omega)]; exact decodes_none _ v
  obtain ⟨h1, hn⟩ := hn
  simp only [signedImage_eq h1 hn]
  refine decodes_ite fun hfits => ?_
  obtain ⟨hlt, hv⟩ := resultWord_of_fitsSigned h1 hn hfits
  have hfetch : fetchBitsI k.toNat = fetch (.rdBitsI k) := funext fun s => by
    simp only [fetchBitsI, hk]
  rw [hfetch]
  exact decodes_fetch rfl (readsImage_of_readField (fun _ => exec_rdBitsI_of_le h1 hn) hlt hv)

/-! ### Fixed convenience codecs -/

/-- A fixed convenience codec reads its value at the cursor, or at the next byte boundary
(45_codec_macros.md R154 to R156). -/
theorem decodes_aligned {α : Type} {d d' : State → HostResult α} {x : Option Image} {v : α}
    (hd : DecodesAs d (fun k => alignedImage true k x) v) (hd' : DecodesAs d' (fun _ => x) v)
    (aligns : Bool) :
    DecodesAs (fun s => if aligns then d s else d' s) (fun k => alignedImage aligns k x) v := by
  cases aligns
  · exact hd'
  · exact hd

/-- An aligned read of a value of `n` bits, from the bytes that its pattern has
(44_aligned_read.md R141 to R146). -/
theorem readsImage_of_pattern {i : Instr} {n : Nat} {parts : Nat → List Nat}
    {val : List Nat → Nat} {fits : Int → Bool} {pattern : Int → Nat} {interp : Nat → Int}
    (hfits : ∀ {v}, fits v = true →
      pattern v < 2 ^ n ∧ (resultWord (interp (pattern v))).toInt = v)
    (hexec : ∀ u s, exec i s = alignedRead (parts u).length (fun bs => interp (val bs)) s)
    (hbytes : ∀ u < 2 ^ n, (∀ b ∈ parts u, b < 256) ∧ val (parts u) = u)
    {x : Option Image} {v : Int}
    (hx : x = if fits v then some (bytesImage (parts (pattern v))) else none) :
    ReadsImage i (fun k => alignedImage true k x) v := by
  subst hx
  split
  case isFalse => exact fun _ _ _ h => nomatch h
  case isTrue hv =>
    obtain ⟨hlt, hvalue⟩ := hfits hv
    obtain ⟨hbyte, hval⟩ := hbytes _ hlt
    exact readsImage_of_alignedRead (hexec _) hbyte (by rw [hval, hvalue])

/-- The bytes of a pattern, and the value that they have together. -/
theorem oneByte_spec {u : Nat} (hu : u < 2 ^ 8) :
    (∀ b ∈ oneByte u, b < 256) ∧ valueLowFirst (oneByte u) = u := by
  simpa [oneByte, valueLowFirst] using hu

theorem lowFirst_spec {u : Nat} (hu : u < 2 ^ 16) :
    (∀ b ∈ lowFirst u, b < 256) ∧ valueLowFirst (lowFirst u) = u := by
  simp only [lowFirst, valueLowFirst, List.forall_mem_cons]
  refine ⟨⟨by omega, by omega, nofun⟩, by omega⟩

theorem highFirst_spec {u : Nat} (hu : u < 2 ^ 16) :
    (∀ b ∈ highFirst u, b < 256) ∧ valueHighFirst (highFirst u) = u := by
  obtain ⟨hbyte, hval⟩ := lowFirst_spec hu
  exact ⟨fun b hb => hbyte b (by simpa [highFirst, lowFirst, or_comm] using hb), hval⟩

theorem decodes_asInt {d : State → HostResult Int} {f : Nat → Option Image} {v : Int}
    (h : DecodesAs d f v) : DecodesAs (fun s => asInt (d s)) f (.int v) := decodes_map h fun _ => rfl

theorem decodes_discard {d : State → HostResult Int} {f : Nat → Option Image} {v : Int}
    (h : DecodesAs d f v) : DecodesAs (fun s => discard (d s)) f .none := decodes_map h fun _ => rfl

/-- The unsigned codecs with the low byte first (45_codec_macros.md R154, R155). -/
theorem decodes_unsigned {i : Instr} {n : Nat} {parts : Nat → List Nat} (hwf : i.wellFormed = true)
    (hn : n ≤ 32) (hexec : ∀ u s,
      exec i s = alignedRead (parts u).length (fun bs => zeroExtend (valueLowFirst bs)) s)
    (hbytes : ∀ u < 2 ^ n, (∀ b ∈ parts u, b < 256) ∧ valueLowFirst (parts u) = u)
    (hparts : ∀ u, bytesImage (parts u) = bitsOf n (u : Int)) (aligns : Bool) (v : Int) :
    DecodesAs (fun s => asInt (if aligns then fetch i s else fetchBitsU n s))
      (fun k => alignedImage aligns k (unsignedImage n v)) (.int v) :=
  decodes_asInt (decodes_aligned (decodes_fetch hwf (readsImage_of_pattern
    (resultWord_of_fitsUnsigned hn) hexec hbytes
    (by rw [unsignedImage_eq hn, hparts]))) (decodes_fetchBitsU n v) aligns)

/-- The signed codecs with the low byte first (45_codec_macros.md R154, R155). -/
theorem decodes_signed {i : Instr} {n : Nat} {parts : Nat → List Nat} (hwf : i.wellFormed = true)
    (h1 : 1 ≤ n) (hn : n ≤ 32) (hexec : ∀ u s,
      exec i s = alignedRead (parts u).length (fun bs => signExtend n (valueLowFirst bs)) s)
    (hbytes : ∀ u < 2 ^ n, (∀ b ∈ parts u, b < 256) ∧ valueLowFirst (parts u) = u)
    (hparts : ∀ u, bytesImage (parts u) = bitsOf n (u : Int)) (aligns : Bool) (v : Int) :
    DecodesAs (fun s => asInt (if aligns then fetch i s else fetchBitsI n s))
      (fun k => alignedImage aligns k (signedImage n v)) (.int v) :=
  decodes_asInt (decodes_aligned (decodes_fetch hwf (readsImage_of_pattern
    (resultWord_of_fitsSigned h1 hn) hexec hbytes
    (by rw [signedImage_eq h1 hn, hparts]))) (decodes_fetchBitsI n v) aligns)

/-- A high byte and then a low one give their number together (45_codec_macros.md R156). -/
theorem decodes_fetchPair {hi : State → HostResult Int} {f : Nat → Option Image} {v : Int}
    (h : DecodesAs hi f (v / 256)) :
    DecodesAs (fetchPair hi) (fun k => imageThen (f k) (fun _ => unsignedImage 8 (v % 256)) k)
      (.int v) :=
  decodes_andThen h (decodes_map (decodes_fetchBitsU 8 _) fun t => by rw [Int.ediv_mul_add_emod])

/-- `u16be` (45_codec_macros.md R156). -/
theorem decodes_u16be (aligns : Bool) (v : Int) :
    DecodesAs (Codec.dec aligns .u16be) (Codec.image aligns .u16be (.int v)) (.int v) :=
  decodes_aligned
    (decodes_asInt (decodes_fetch rfl (readsImage_of_pattern
      (resultWord_of_fitsUnsigned (n := 16) (by decide)) (fun _ _ => rfl) (fun _ => highFirst_spec)
      (by rw [unsignedImage_eq (by decide), bytesImage_highFirst]; split <;> rfl))))
    (decodes_congr (decodes_fetchPair (decodes_fetchBitsU 8 _)) (imageThen_unsigned_byte v)) aligns

/-- `i16be` (45_codec_macros.md R156). -/
theorem decodes_i16be (aligns : Bool) (v : Int) :
    DecodesAs (Codec.dec aligns .i16be) (Codec.image aligns .i16be (.int v)) (.int v) :=
  decodes_aligned
    (decodes_asInt (decodes_fetch rfl (readsImage_of_pattern
      (resultWord_of_fitsSigned (n := 16) (by decide) (by decide)) (fun _ _ => rfl)
      (fun _ => highFirst_spec)
      (by rw [signedImage_eq (by decide) (by decide), bytesImage_highFirst]; split <;> rfl))))
    (decodes_congr (decodes_fetchPair (decodes_fetchBitsI 8 _)) (imageThen_signed_byte v)) aligns

/-! ### Pads, enums and lists -/

/-- The pieces of a pad are read and discarded (45_codec_macros.md R158). -/
theorem decodes_fetchPad {ks : List Nat} (h : ∀ k ∈ ks, k ≤ 32) :
    DecodesAs (fetchPad ks) (fun _ => some (List.replicate ks.sum (some false))) .none := by
  induction ks with
  | nil => exact decodes_done _
  | cons k ks ih =>
    obtain ⟨hk, hks⟩ := List.forall_mem_cons.mp h
    refine decodes_congr (decodes_andThen (decodes_fetchBitsU k 0) (ih hks)) fun _ => ?_
    simp [imageThen, unsignedImage_zero hk]

theorem decodes_padBits (n : Nat) : DecodesAs (fetchPad (padPieces n))
    (fun _ => some (List.replicate n (some false))) .none := by
  obtain ⟨hle, hsum⟩ := padPieces_spec n
  have h := decodes_fetchPad hle
  rwa [hsum] at h

theorem enumValue_cons (e : String × Int) (mapping : List (String × Int)) (code : Int) :
    enumValue (e :: mapping) code = if e.2 = code then .key e.1 else enumValue mapping code := by
  unfold enumValue
  by_cases h : e.2 = code
  · simp [h]
  · simp [h]

/-- A code of a key is among the codes of the mapping. -/
theorem mem_codes_of_lookup {mapping : List (String × Int)} {name : String} {code : Int}
    (h : mapping.lookup name = some code) : code ∈ mapping.map Prod.snd := by
  obtain ⟨before, after, rfl, -⟩ := List.lookup_eq_some_iff.mp h
  simp

/-- A key's code comes back as the key, for no two keys share a code (45_codec_macros.md R159). -/
theorem enumValue_of_lookup {mapping : List (String × Int)} {name : String} {code : Int}
    (hcodes : (mapping.map Prod.snd).Nodup) (h : mapping.lookup name = some code) :
    enumValue mapping code = .key name := by
  induction mapping with
  | nil => cases h
  | cons e mapping ih =>
    obtain ⟨hfirst, hrest⟩ := List.nodup_cons.mp hcodes
    rw [List.lookup_cons] at h
    rw [enumValue_cons]
    split at h
    case h_1 hname =>
      cases h
      rw [if_pos rfl, eq_of_beq hname]
    case h_2 =>
      have hne : e.2 ≠ code := fun heq => hfirst (heq ▸ mem_codes_of_lookup h)
      rw [if_neg hne]
      exact ih hrest h

/-- A code that is no key's comes back as it is (45_codec_macros.md R159). -/
theorem enumValue_of_forall_ne {mapping : List (String × Int)} {code : Int}
    (h : ∀ e ∈ mapping, e.2 ≠ code) : enumValue mapping code = .int code := by
  rw [enumValue, List.find?_eq_none.mpr (by simpa using h)]

/-- The elements of a list are read in order (45_codec_macros.md R163). -/
theorem decodes_decTimes {d : State → HostResult Value} {image : Value → Nat → Option Image}
    {canon : Value → Value} (h : ∀ x, DecodesAs d (image x) (canon x)) (xs : List Value) :
    DecodesAs (decTimes d xs.length) (listImage image xs) (xs.map canon) := by
  induction xs with
  | nil => exact decodes_done _
  | cons x xs ih => exact decodes_andThen (h x) (decodes_map ih fun _ => rfl)

/-- A length codec that takes a count gives it back as a number, or takes no number at all
(45_codec_macros.md R165). -/
theorem lengthCodec_cases {c : Codec} {maxCount n : Nat} (hc : countsAreNumbers c maxCount = true)
    (hn : n ≤ maxCount) (aligns : Bool) :
    (c.numericLengths = true ∧ c.canon (.int n) = .int n) ∨
      ∀ k, c.image aligns (.int n) k = none := by
  cases c with
  | u | i | u8 | i8 | u16le | i16le | u16be | i16be => exact .inl ⟨rfl, rfl⟩
  | enum name nBits mapping =>
    refine .inl ⟨rfl, enumValue_of_forall_ne fun e he heq => ?_⟩
    have hcount := of_decide_eq_true (List.all_eq_true.mp hc e he)
    omega
  | bool | alignToByte | padBits | field | struct | array | varArray => exact .inr fun _ => rfl

/-- The alignment after a length, where the descriptor asks for it (45_codec_macros.md R165). -/
theorem decodes_optionalAlign (b : Bool) :
    DecodesAs (fun s => if b then discard (fetch .rdAlign s) else .done .none s)
      (fun k => some (if b then skipped k else [])) .none := by
  cases b
  · exact decodes_done _
  · exact decodes_discard (decodes_fetch rfl readsImage_rdAlign)

/-! ### Every codec -/

/-- An empty record matches a struct without fields only (45_codec_macros.md R161). -/
theorem canonItems_of_recordMatches_nil {items : List Codec} (h : recordMatches items [] = true) :
    canonItems items [] = [] := by
  have hnames : ∀ c ∈ items, c.fieldName = none := by
    rw [← List.filterMap_eq_nil_iff, List.eq_nil_iff_forall_not_mem]
    intro name hname
    simp only [recordMatches, Bool.and_eq_true, List.all_eq_true] at h
    obtain ⟨⟨-, hdeclared⟩, -⟩ := h
    simpa using hdeclared name hname
  clear h
  induction items with
  | nil => rfl
  | cons c cs ih =>
    obtain ⟨hc, hcs⟩ := List.forall_mem_cons.mp hnames
    simp only [canonItems, hc, ih hcs]
    rfl

mutual

/-- Every decode over the image of a value gives the value, as `Codec.canon` says. -/
theorem decodes_dec (aligns : Bool) : ∀ (c : Codec) (v : Value), c.admitted = true →
    c.numericLengths = true → DecodesAs (c.dec aligns) (c.image aligns v) (c.canon v)
  | .u n, v, _, _ => by
    cases v with
    | int v => exact decodes_asInt (decodes_fetchBitsU n v)
    | _ => exact decodes_none _ _
  | .i n, v, _, _ => by
    cases v with
    | int v => exact decodes_asInt (decodes_fetchBitsI n v)
    | _ => exact decodes_none _ _
  | .bool, v, _, _ => by
    cases v with
    | bool b =>
      refine decodes_congr (decodes_map (decodes_fetchBitsU 1 (if b then 1 else 0)) fun t => ?_)
        fun k => ?_
      · cases b <;> rfl
      · cases b <;> rfl
    | _ => exact decodes_none _ _
  | .u8, v, _, _ => by
    cases v with
    | int v =>
      exact decodes_unsigned rfl (by decide) (fun _ _ => rfl) (fun _ => oneByte_spec)
        bytesImage_oneByte aligns v
    | _ => exact decodes_none _ _
  | .i8, v, _, _ => by
    cases v with
    | int v =>
      exact decodes_signed rfl (by decide) (by decide) (fun _ _ => rfl) (fun _ => oneByte_spec)
        bytesImage_oneByte aligns v
    | _ => exact decodes_none _ _
  | .u16le, v, _, _ => by
    cases v with
    | int v =>
      exact decodes_unsigned rfl (by decide) (fun _ _ => rfl) (fun _ => lowFirst_spec)
        bytesImage_lowFirst aligns v
    | _ => exact decodes_none _ _
  | .i16le, v, _, _ => by
    cases v with
    | int v =>
      exact decodes_signed rfl (by decide) (by decide) (fun _ _ => rfl) (fun _ => lowFirst_spec)
        bytesImage_lowFirst aligns v
    | _ => exact decodes_none _ _
  | .u16be, v, _, _ => by
    cases v with
    | int v => exact decodes_u16be aligns v
    | _ => exact decodes_none _ _
  | .i16be, v, _, _ => by
    cases v with
    | int v => exact decodes_i16be aligns v
    | _ => exact decodes_none _ _
  | .alignToByte, v, _, _ => by
    cases v with
    | none => exact decodes_discard (decodes_fetch rfl readsImage_rdAlign)
    | _ => exact decodes_none _ _
  | .padBits n, v, _, _ => by
    cases v with
    | none => exact decodes_padBits n
    | _ => exact decodes_none _ _
  | .enum _ nBits mapping, v, hc, _ => by
    cases v with
    | int v => exact decodes_map (decodes_fetchBitsU nBits v) fun _ => rfl
    | key name =>
      simp only [Codec.image]
      cases hlookup : mapping.lookup name with
      | some code =>
        obtain ⟨-, hcodes⟩ : (mapping.map Prod.fst).Nodup ∧ (mapping.map Prod.snd).Nodup := by
          simpa [Codec.admitted] using hc
        exact decodes_map (decodes_fetchBitsU nBits code) fun _ => by
          rw [enumValue_of_lookup hcodes hlookup]; rfl
      | none => exact decodes_none _ _
    | _ => exact decodes_none _ _
  | .field name c, v, hc, hn => by
    cases v with
    | record fields =>
      simp only [Codec.image, Codec.canon]
      cases fields.lookup name with
      | some v => exact decodes_dec aligns c v hc hn
      | none => exact decodes_none _ _
    | _ => exact decodes_none _ _
  | .struct _ items, v, hc, hn => by
    have hitems : admittedItems items = true := by
      simp only [Codec.admitted, Bool.and_eq_true] at hc
      exact hc.2
    cases v with
    | record fields =>
      exact decodes_ite fun _ =>
        decodes_map (decodes_decItems aligns items fields hitems hn) fun _ => rfl
    | none =>
      exact decodes_ite fun hmatch =>
        decodes_map (decodes_decItems aligns items [] hitems hn) fun _ => by
          rw [canonItems_of_recordMatches_nil hmatch]; rfl
    | _ => exact decodes_none _ _
  | .array _ elem count, v, hc, hn => by
    cases v with
    | list xs =>
      refine decodes_ite fun hlen => ?_
      subst hlen
      exact decodes_map (decodes_decTimes (fun x => decodes_dec aligns elem x hc hn) xs) fun _ => rfl
    | _ => exact decodes_none _ _
  | .varArray _ elem lengthCodec maxCount alignAfterLength, v, hc, hn => by
    cases v with
    | list xs =>
      simp only [Codec.admitted, Codec.numericLengths, Bool.and_eq_true] at hc hn
      obtain ⟨helem, hlength⟩ := hc
      obtain ⟨hnelem, hcounts⟩ := hn
      refine decodes_ite fun hlen => ?_
      obtain ⟨hnlength, hcanon⟩ | hnone := lengthCodec_cases hcounts hlen aligns
      · have hd := decodes_dec aligns lengthCodec (.int xs.length) hlength hnlength
        rw [hcanon] at hd
        refine decodes_andThen hd ?_
        have hin : ¬ ((xs.length : Int) > maxCount ∨ (xs.length : Int) < 0) := by omega
        simp only [lengthOf, if_neg hin, Int.toNat_natCast]
        exact decodes_andThen (decodes_optionalAlign alignAfterLength)
          (decodes_map (decodes_decTimes (fun x => decodes_dec aligns elem x helem hnelem) xs)
            fun _ => rfl)
      · simp only [hnone]
        exact decodes_none _ _
    | _ => exact decodes_none _ _

/-- The items of a struct are read in declaration order. -/
theorem decodes_decItems (aligns : Bool) : ∀ (items : List Codec) (fields : List (String × Value)),
    admittedItems items = true → numericLengthsOfItems items = true →
      DecodesAs (decItems aligns items) (itemsImage aligns items fields) (canonItems items fields)
  | [], _, _, _ => decodes_done []
  | c :: cs, fields, hc, hn => by
    simp only [admittedItems, numericLengthsOfItems, Bool.and_eq_true] at hc hn
    obtain ⟨hc, hcs⟩ := hc
    obtain ⟨hn, hns⟩ := hn
    refine decodes_andThen
      (decodes_dec aligns c (if c.fieldName.isSome then .record fields else .none) hc hn)
      (decodes_map (decodes_decItems aligns cs fields hcs hns) fun t => ?_)
    simp only [canonItems]
    cases hname : c.fieldName with
    | some name => simp
    | none => simp

end

/-- Settles O60: an admitted codec decodes the image that BUF holds. -/
theorem decodeReadsImage : Obligations.DecodeReadsImage := by
  intro aligns c v s bs hs hc hn hbs hroom hpresent
  obtain ⟨p, rs, hdec⟩ := decodes_dec aligns c v hc hn s bs hs hbs hroom hpresent
  exact ⟨_, (if_pos hc).trans hdec, rfl⟩

/-- Settles O53: the encode leaves the image of the value in BUF, which is what the decode then reads
from the same cursor. -/
theorem codecRoundTrip : Obligations.CodecRoundTrip := by
  intro aligns c v s t hn hs hctx ht
  obtain ⟨hc, hrun⟩ := encodeValue_eq_done.mp ht
  have hinv := runScript_keeps_inv hs hrun
  obtain ⟨bs, hbs, ⟨-, hroom⟩, m, p, k, ⟨hpresent, -⟩, rfl⟩ := (writes_enc aligns c v).sound hrun
  obtain ⟨-, -, -, -, hwr, -⟩ := hs
  rw [← hctx] at hbs hroom hpresent hwr
  obtain ⟨t', hdec, ht'⟩ :=
    decodeReadsImage aligns c v _ bs hinv hc hn hbs (hroom hwr.2) hpresent
  exact ⟨t', hdec, by rw [ht', wroteOn_rd, wroteOn_wr, hctx], by rw [ht'], by rw [ht']⟩

end Sys2Proof.Machine
end

section
/-! The codec family, sizes: with CODEC_ALIGNS false a codec of fixed size moves the cursors by its
size (45_codec_macros.md R154, R162). -/

namespace Sys2Proof.Machine

/-! ### The lengths of images -/

/-- Wherever there is an image, it has `n` bits. -/
def ImageLength (f : Nat → Option Image) (n : Nat) : Prop := ∀ k bs, f k = some bs → bs.length = n

theorem imageLength_none (n : Nat) : ImageLength (fun _ => none) n := fun _ _ h => nomatch h

theorem imageLength_some {bs : Image} {n : Nat} (h : bs.length = n) :
    ImageLength (fun _ => some bs) n := fun _ _ hbs => Option.some.inj hbs ▸ h

theorem imageLength_ite {f : Nat → Option Image} {n : Nat} (hf : ImageLength f n) (p : Prop)
    [Decidable p] : ImageLength (fun k => if p then f k else none) n := by
  intro k bs h
  split at h
  · exact hf k bs h
  · cases h

theorem imageLength_unsignedImage (n : Nat) (v : Int) : ImageLength (fun _ => unsignedImage n v) n :=
  imageLength_ite (imageLength_some (length_bitsOf n v)) _

theorem imageLength_signedImage (n : Nat) (v : Int) : ImageLength (fun _ => signedImage n v) n :=
  imageLength_ite (imageLength_some (length_bitsOf n v)) _

/-- One image after another. -/
theorem imageLength_imageThen {f g : Nat → Option Image} {m n : Nat} (hf : ImageLength f m)
    (hg : ImageLength g n) : ImageLength (fun k => imageThen (f k) g k) (m + n) := by
  intro k ds h
  cases hbs : f k with
  | none => simp [imageThen, hbs] at h
  | some bs =>
    simp only [imageThen, hbs, Option.map_eq_some_iff] at h
    obtain ⟨cs, hcs, rfl⟩ := h
    rw [List.length_append, hf k bs hbs, hg _ cs hcs]

/-- A high byte and a low one. -/
theorem imageLength_highByteFirst {x : Option Image} (h : ImageLength (fun _ => x) 16) :
    ImageLength (fun _ => x.map highByteFirst) 16 := by
  intro k bs hbs
  obtain ⟨cs, hcs, rfl⟩ := Option.map_eq_some_iff.mp hbs
  have hlen := h k cs hcs
  simp [highByteFirst, hlen]

/-- The images of a list of elements of one size (45_codec_macros.md R163). -/
theorem imageLength_listImage {image : Value → Nat → Option Image} {n : Nat}
    (h : ∀ x, ImageLength (image x) n) (xs : List Value) :
    ImageLength (listImage image xs) (n * xs.length) := by
  induction xs with
  | nil => exact imageLength_some rfl
  | cons x xs ih =>
    rw [List.length_cons, Nat.mul_succ, Nat.add_comm]
    exact imageLength_imageThen (h x) ih

/-- Items of fixed size, the first and the rest (45_codec_macros.md R162). -/
theorem itemsBitSize_cons {c : Codec} {cs : List Codec} {b : Nat}
    (h : itemsBitSize (c :: cs) = some b) :
    ∃ m n, c.bitSize = some m ∧ itemsBitSize cs = some n ∧ b = m + n := by
  simp only [itemsBitSize] at h
  split at h
  case h_1 m n hm hn => exact ⟨m, n, hm, hn, (Option.some.inj h).symm⟩
  case h_2 => cases h

/-- An array of elements of fixed size (45_codec_macros.md R163). -/
theorem arrayBitSize_eq_some {name : String} {elem : Codec} {count b : Nat}
    (h : (Codec.array name elem count).bitSize = some b) :
    ∃ n, elem.bitSize = some n ∧ b = n * count := by
  obtain ⟨n, hn, rfl⟩ := Option.map_eq_some_iff.mp h
  exact ⟨n, hn, rfl⟩

mutual

/-- With CODEC_ALIGNS false, every image of a codec of fixed size has its size. -/
theorem imageLength_of_bitSize : ∀ (c : Codec) (v : Value) (b : Nat), c.bitSize = some b →
    ImageLength (c.image false v) b
  | .u n, v, _, rfl => by
    cases v with
    | int v => exact imageLength_unsignedImage n v
    | _ => exact imageLength_none _
  | .i n, v, _, rfl => by
    cases v with
    | int v => exact imageLength_signedImage n v
    | _ => exact imageLength_none _
  | .bool, v, _, rfl => by
    cases v with
    | bool b => exact imageLength_some rfl
    | _ => exact imageLength_none _
  | .u8, v, _, rfl => by
    cases v with
    | int v => exact imageLength_unsignedImage 8 v
    | _ => exact imageLength_none _
  | .i8, v, _, rfl => by
    cases v with
    | int v => exact imageLength_signedImage 8 v
    | _ => exact imageLength_none _
  | .u16le, v, _, rfl => by
    cases v with
    | int v => exact imageLength_unsignedImage 16 v
    | _ => exact imageLength_none _
  | .i16le, v, _, rfl => by
    cases v with
    | int v => exact imageLength_signedImage 16 v
    | _ => exact imageLength_none _
  | .u16be, v, _, rfl => by
    cases v with
    | int v => exact imageLength_highByteFirst (imageLength_unsignedImage 16 v)
    | _ => exact imageLength_none _
  | .i16be, v, _, rfl => by
    cases v with
    | int v => exact imageLength_highByteFirst (imageLength_signedImage 16 v)
    | _ => exact imageLength_none _
  | .padBits n, v, _, rfl => by
    cases v with
    | none => exact imageLength_some List.length_replicate
    | _ => exact imageLength_none _
  | .enum _ nBits mapping, v, _, rfl => by
    cases v with
    | int v => exact imageLength_unsignedImage nBits v
    | key name =>
      simp only [Codec.image]
      cases mapping.lookup name with
      | some code => exact imageLength_unsignedImage nBits code
      | none => exact imageLength_none _
    | _ => exact imageLength_none _
  | .field name c, v, b, h => by
    cases v with
    | record fields =>
      simp only [Codec.image]
      cases fields.lookup name with
      | some v => exact imageLength_of_bitSize c v b h
      | none => exact imageLength_none _
    | _ => exact imageLength_none _
  | .struct _ items, v, b, h => by
    cases v with
    | record fields => exact imageLength_ite (imageLength_items items fields b h) _
    | none => exact imageLength_ite (imageLength_items items [] b h) _
    | _ => exact imageLength_none _
  | .array _ elem count, v, b, h => by
    obtain ⟨n, hn, rfl⟩ := arrayBitSize_eq_some h
    cases v with
    | list xs =>
      by_cases hlen : xs.length = count
      · subst hlen
        exact imageLength_ite
          (imageLength_listImage (fun x => imageLength_of_bitSize elem x n hn) xs) _
      · simp only [Codec.image, if_neg hlen]
        exact imageLength_none _
    | _ => exact imageLength_none _

theorem imageLength_items : ∀ (items : List Codec) (fields : List (String × Value)) (b : Nat),
    itemsBitSize items = some b → ImageLength (itemsImage false items fields) b
  | [], _, _, rfl => imageLength_some rfl
  | c :: cs, fields, b, h => by
    obtain ⟨m, n, hm, hn, rfl⟩ := itemsBitSize_cons h
    exact imageLength_imageThen (imageLength_of_bitSize c _ m hm) (imageLength_items cs fields n hn)

end

/-! ### The moves of a decode -/

/-- An activity that is done has moved the reader's cursor by `n` bits. -/
def MovesReader {α : Type} (d : State → HostResult α) (n : Nat) : Prop :=
  ∀ s v t, d s = .done v t → t.rd.cur = s.rd.cur + n

section MovesReader

variable {α β : Type} {d : State → HostResult α}

theorem movesReader_done (v : α) : MovesReader (fun s => .done v s) 0 := by
  intro s _ t h
  cases h
  rfl

theorem movesReader_andThen {e : α → State → HostResult β} {m n : Nat} (hd : MovesReader d m)
    (he : ∀ v, MovesReader (e v) n) : MovesReader (fun s => andThen (d s) e) (m + n) := by
  intro s w t h
  obtain ⟨v, u, hu, ht⟩ := andThen_eq_done.mp h
  rw [he v u w t ht, hd s v u hu, Nat.add_assoc]

/-- An activity and then a computation of the host alone. -/
theorem movesReader_map {e : α → State → HostResult β} {n : Nat} (hd : MovesReader d n)
    (he : ∀ v, MovesReader (e v) 0) : MovesReader (fun s => andThen (d s) e) n :=
  movesReader_andThen hd he

end MovesReader

/-- A reader command that fails or moves its cursor by `n` bits. -/
theorem movesReader_fetch {i : Instr} {n : Nat} (hwf : i.wellFormed = true)
    (hi : ∀ s t, exec i s = .next t →
      (∃ u e, t = State.raised u e) ∨ t.rd.cur = s.rd.cur + n) : MovesReader (fetch i) n := by
  intro s v t h
  have hissue := issue_of_send_done h
  rw [issue_commandPacket hwf] at hissue
  obtain ⟨u, e, rfl⟩ | hcur := hi _ t hissue
  · rw [fetch, send_of_raised (issue_of_send_done h)] at h
    cases h
  · exact hcur

/-- A field read fails or moves the reader's cursor by its bits (42_bit_read.md R120). -/
theorem readField_moves {n : Nat} {interp : Nat → Int} {s t : State}
    (h : readField n interp s = .next t) :
    (∃ u e, t = State.raised u e) ∨ t.rd.cur = s.rd.cur + n := by
  obtain ⟨-, rfl⟩ | ⟨-, rfl⟩ := readField_cases h
  · exact .inl ⟨s, _, rfl⟩
  · exact .inr rfl

theorem exec_rdBitsU_moves {k : NField} {s t : State} (h : exec (.rdBitsU k) s = .next t) :
    (∃ u e, t = State.raised u e) ∨ t.rd.cur = s.rd.cur + k.toNat := by
  simp only [exec, execRdBitsU] at h
  split at h
  · exact .inl ⟨s, _, (raise_eq_next ..).mp h⟩
  · exact readField_moves h

theorem exec_rdBitsI_moves {k : NField} {s t : State} (h : exec (.rdBitsI k) s = .next t) :
    (∃ u e, t = State.raised u e) ∨ t.rd.cur = s.rd.cur + k.toNat := by
  simp only [exec, execRdBitsI] at h
  split at h
  · exact .inl ⟨s, _, (raise_eq_next ..).mp h⟩
  · exact readField_moves h

/-- `RD.BITSU n` moves the reader's cursor by `n` bits (45_codec_macros.md R151). -/
theorem movesReader_fetchBitsU (n : Nat) : MovesReader (fetchBitsU n) n := by
  intro s v t h
  unfold fetchBitsU at h
  obtain ⟨k, hk, rfl⟩ | ⟨hk, -⟩ := countField_cases n
  · rw [hk] at h
    exact movesReader_fetch rfl (fun _ _ => exec_rdBitsU_moves) s v t h
  · rw [hk] at h
    cases h

/-- `RD.BITSI n` moves the reader's cursor by `n` bits (45_codec_macros.md R152). -/
theorem movesReader_fetchBitsI (n : Nat) : MovesReader (fetchBitsI n) n := by
  intro s v t h
  unfold fetchBitsI at h
  obtain ⟨k, hk, rfl⟩ | ⟨hk, -⟩ := countField_cases n
  · rw [hk] at h
    exact movesReader_fetch rfl (fun _ _ => exec_rdBitsI_moves) s v t h
  · rw [hk] at h
    cases h

theorem movesReader_asInt {d : State → HostResult Int} {n : Nat} (h : MovesReader d n) :
    MovesReader (fun s => asInt (d s)) n := movesReader_map h fun _ => movesReader_done _

theorem movesReader_fetchPair {hi : State → HostResult Int} (h : MovesReader hi 8) :
    MovesReader (fetchPair hi) 16 :=
  movesReader_andThen h fun _ =>
    movesReader_map (movesReader_fetchBitsU 8) fun _ => movesReader_done _

theorem movesReader_fetchPad (ks : List Nat) : MovesReader (fetchPad ks) ks.sum := by
  induction ks with
  | nil => exact movesReader_done _
  | cons k ks ih => exact movesReader_andThen (movesReader_fetchBitsU k) fun _ => ih

theorem movesReader_decTimes {d : State → HostResult Value} {n : Nat} (h : MovesReader d n)
    (count : Nat) : MovesReader (decTimes d count) (n * count) := by
  induction count with
  | zero => exact movesReader_done _
  | succ count ih =>
    rw [Nat.mul_succ, Nat.add_comm (n * count)]
    exact movesReader_andThen h fun _ => movesReader_map ih fun _ => movesReader_done _

mutual

/-- With CODEC_ALIGNS false, the decode of a codec of fixed size moves the reader's cursor by its
size. -/
theorem movesReader_dec : ∀ (c : Codec) (b : Nat), c.bitSize = some b → MovesReader (c.dec false) b
  | .u n, _, rfl => movesReader_asInt (movesReader_fetchBitsU n)
  | .i n, _, rfl => movesReader_asInt (movesReader_fetchBitsI n)
  | .bool, _, rfl => movesReader_map (movesReader_fetchBitsU 1) fun _ => movesReader_done _
  | .u8, _, rfl => movesReader_asInt (movesReader_fetchBitsU 8)
  | .i8, _, rfl => movesReader_asInt (movesReader_fetchBitsI 8)
  | .u16le, _, rfl => movesReader_asInt (movesReader_fetchBitsU 16)
  | .i16le, _, rfl => movesReader_asInt (movesReader_fetchBitsI 16)
  | .u16be, _, rfl => movesReader_fetchPair (movesReader_fetchBitsU 8)
  | .i16be, _, rfl => movesReader_fetchPair (movesReader_fetchBitsI 8)
  | .padBits n, _, rfl => by
    have h := movesReader_fetchPad (padPieces n)
    rwa [(padPieces_spec n).2] at h
  | .enum _ nBits _, _, rfl =>
    movesReader_map (movesReader_fetchBitsU nBits) fun _ => movesReader_done _
  | .field _ c, b, h => movesReader_dec c b h
  | .struct _ items, b, h =>
    movesReader_map (movesReader_decItems items b h) fun _ => movesReader_done _
  | .array _ elem count, b, h => by
    obtain ⟨n, hn, rfl⟩ := arrayBitSize_eq_some h
    exact movesReader_map (movesReader_decTimes (movesReader_dec elem n hn) count)
      fun _ => movesReader_done _

theorem movesReader_decItems : ∀ (items : List Codec) (b : Nat), itemsBitSize items = some b →
    MovesReader (decItems false items) b
  | [], _, rfl => movesReader_done []
  | c :: cs, b, h => by
    obtain ⟨m, n, hm, hn, rfl⟩ := itemsBitSize_cons h
    refine movesReader_andThen (movesReader_dec c m hm) fun v =>
      movesReader_map (movesReader_decItems cs n hn) fun fields => ?_
    cases c.fieldName with
    | some name => exact movesReader_done _
    | none => exact movesReader_done _

end

/-- Settles O52: an encode moves the writer's cursor by the length of the image, a decode the reader's
by the bits it reads. -/
theorem fixedCodecMovesCursorByItsSize : Obligations.FixedCodecMovesCursorByItsSize := by
  refine fun c b hb => ⟨fun v s t h => ?_, fun v s t h => ?_⟩
  · obtain ⟨bs, hbs, -, m, p, k, -, rfl⟩ :=
      (writes_enc false c v).sound (encodeValue_eq_done.mp h).2
    rw [wroteOn_wr, imageLength_of_bitSize c v b hb _ bs hbs]
  · unfold decodeValue at h
    split at h
    · exact movesReader_dec c b hb s v t h
    · cases h

end Sys2Proof.Machine
end

section
/-! The run-length family: the two encoders as the runs of their input, the two decoders as the
expansion of a stream of records, and the laws that bind the pairs (46_rle.md). -/

namespace Sys2Proof.Machine

/-! ### The ends of a stream command -/

theorem endStream_ok (out : List Byte) (s : State) :
    endStream (.ok out) s = .next (s.answered 0 out) := rfl

theorem endStream_error (e : ErrorKind) (s : State) :
    endStream (.error e) s = .next (s.failedWith e) := rfl

@[simp] theorem next_answered_inj {s : State} {v : Word} {out out' : List Byte} :
    (.next (s.answered v out) : Result) = .next (s.answered v out') ↔ out = out' := by
  simp [State.answered]

/-- A stream command that answers OK did not fail, and its output is in its answer. -/
theorem endStream_eq_answered_iff {r : Except ErrorKind (List Byte)} {s : State} {out : List Byte} :
    endStream r s = .next (s.answered 0 out) ↔ r = .ok out := by
  cases r with
  | error e => exact iff_of_false (fun h => ne_failedWith_of_ok h rfl e rfl) nofun
  | ok z => rw [endStream_ok, next_answered_inj, Except.ok.injEq]

/-- RLE.ENC answers OK with its encoding (46_rle.md R181). -/
theorem exec_rleEnc (s : State) :
    exec .rleEnc s = .next (s.answered 0 (rleEncode s.packet.inp)) := rfl

/-- RLE3.ENC answers OK with its encoding (46_rle.md R184). -/
theorem exec_rle3Enc (s : State) :
    exec .rle3Enc s = .next (s.answered 0 (rle3Encode s.packet.inp)) := rfl

theorem exec_rleDec (s : State) : exec .rleDec s = endStream (rleDecode s.packet.inp) s := rfl

theorem exec_rle3Dec (s : State) :
    exec .rle3Dec s = endStream (rle3Decode s.packet.a.toInt s.packet.inp) s := rfl

/-! ### Runs -/

section Runs

variable {α β : Type}

@[simp] theorem expandRuns_cons (r : Nat × α) (rs : List (Nat × α)) :
    expandRuns (r :: rs) = List.replicate r.1 r.2 ++ expandRuns rs := List.flatMap_cons

/-- Every count of greedy runs is the count of a record. -/
theorem count_of_greedyRuns : ∀ {rs : List (Nat × α)}, greedyRuns rs →
    ∀ r ∈ rs, 1 ≤ r.1 ∧ r.1 ≤ 255
  | [], _ => nofun
  | [_], h => List.forall_mem_singleton.mpr h
  | _ :: _ :: _, ⟨h1, h255, _, hrs⟩ =>
    List.forall_mem_cons.mpr ⟨⟨h1, h255⟩, count_of_greedyRuns hrs⟩

/-- Runs stay greedy when their values are renamed one to one. -/
theorem greedyRuns_map {f : α → β} (hf : Function.Injective f) : ∀ {rs : List (Nat × α)},
    greedyRuns rs → greedyRuns (rs.map (Prod.map id f))
  | [], _ => trivial
  | [_], h => h
  | _ :: _ :: _, ⟨h1, h255, hne, hrs⟩ => ⟨h1, h255, fun h => hne (hf h), greedyRuns_map hf hrs⟩

theorem expandRuns_map (f : α → β) (rs : List (Nat × α)) :
    expandRuns (rs.map (Prod.map id f)) = (expandRuns rs).map f := by
  simp [expandRuns, List.map_flatMap, List.flatMap_map]

variable [DecidableEq α]

/-- The first run is one of the value it was begun with. -/
theorem runsFrom_eq_cons (v : α) (count : Nat) (xs : List α) :
    ∃ n rs, runsFrom v count xs = (n, v) :: rs := by
  fun_induction runsFrom v count xs with
  | case1 v count => exact ⟨count, [], rfl⟩
  | case2 v count x xs h ih => exact ih
  | case3 v count x xs h => exact ⟨count, _, rfl⟩

/-- A run ends at another value or when it is full, so the runs are greedy (46_rle.md R181). -/
theorem greedyRuns_runsFrom {v : α} {count : Nat} {xs : List α} (h1 : 1 ≤ count)
    (h255 : count ≤ 255) : greedyRuns (runsFrom v count xs) := by
  fun_induction runsFrom v count xs with
  | case1 => exact ⟨h1, h255⟩
  | case2 v count x xs h ih => exact ih (by omega) h.2
  | case3 v count x xs h ih =>
    have hrest := ih (by decide) (by decide)
    obtain ⟨n, rs, hcons⟩ := runsFrom_eq_cons x 1 xs
    rw [hcons] at hrest ⊢
    have hfull (hv : v = x) : count = 255 := by
      by_contra hc
      exact h ⟨hv.symm, show count < 255 by omega⟩
    exact ⟨h1, h255, hfull, hrest⟩

theorem expandRuns_runsFrom (v : α) (count : Nat) (xs : List α) :
    expandRuns (runsFrom v count xs) = List.replicate count v ++ xs := by
  fun_induction runsFrom v count xs with
  | case1 => simp [expandRuns]
  | case2 v count x xs h ih => rw [ih, h.1, List.replicate_succ', List.append_assoc]; rfl
  | case3 v count x xs h ih => rw [expandRuns_cons, ih]; rfl

theorem greedyRuns_runs : ∀ xs : List α, greedyRuns (runs xs)
  | [] => trivial
  | _ :: _ => greedyRuns_runsFrom le_rfl (by decide)

theorem expandRuns_runs : ∀ xs : List α, expandRuns (runs xs) = xs
  | [] => rfl
  | x :: xs => expandRuns_runsFrom x 1 xs

end Runs

/-- A count of 1 to 255 goes through its byte (46_rle.md R181). -/
theorem countByte_toNat {n : Nat} (h : 1 ≤ n ∧ n ≤ 255) :
    countByte n ≠ 0 ∧ (countByte n).toNat = n := by
  have hn : (countByte n).toNat = n := Nat.mod_eq_of_lt (by omega)
  refine ⟨fun h0 => ?_, hn⟩
  rw [h0] at hn
  exact absurd hn (show 0 ≠ n by omega)

/-! ### Streams of records -/

/-- What makes a stream of records of `w` bytes malformed: a truncated record, or one with count 0
(46_rle.md R182, R185). -/
@[reducible] def malformedRecords (w : Nat) (y : List Byte) : Prop :=
  y.length % w ≠ 0 ∨ ∃ r < y.length / w, y.getD (w * r) 0 = 0

/-- What the records of `w` bytes of a stream give, `f` of the bytes of one after another. -/
def overRecords (w : Nat) (f : (Nat → Byte) → List Byte) (y : List Byte) : List Byte :=
  (List.range (y.length / w)).flatMap fun r => f fun j => y.getD (w * r + j) 0

/-- The copies a record of RLE.DEC stands for (46_rle.md R182). -/
def byteCopies (b : Nat → Byte) : List Byte := List.replicate (b 0).toNat (b 1)

/-- The copies a record of RLE3.DEC stands for (46_rle.md R185). -/
def tripletCopies (b : Nat → Byte) : List Byte :=
  (List.replicate (b 0).toNat [b 1, b 2, b 3]).flatten

section Records

variable {w : Nat} {p : List Byte} (hw : 0 < w) (hp : p.length = w) (y : List Byte)

include hp in
theorem getD_record_succ (r j : Nat) :
    (p ++ y).getD (w * (r + 1) + j) 0 = y.getD (w * r + j) 0 := by
  rw [Nat.mul_succ, Nat.add_right_comm, List.getD_append_right _ _ _ _ (by omega), hp,
    Nat.add_sub_cancel]

include hw hp

theorem length_div_record : (p ++ y).length / w = y.length / w + 1 := by
  rw [List.length_append, hp, Nat.add_div_left _ hw]

theorem malformedRecords_append :
    malformedRecords w (p ++ y) ↔ p.getD 0 0 = 0 ∨ malformedRecords w y := by
  have hmod : (p ++ y).length % w = y.length % w := by
    rw [List.length_append, hp, Nat.add_mod_left]
  have hhead : (p ++ y).getD (w * 0) 0 = p.getD 0 0 := List.getD_append _ _ _ _ (by omega)
  have htail (r : Nat) := getD_record_succ hp y r 0
  simp only [Nat.add_zero] at htail
  simp only [malformedRecords, hmod, length_div_record hw hp, Nat.exists_lt_succ_left, hhead, htail]
  exact or_left_comm

theorem overRecords_append (f : (Nat → Byte) → List Byte) :
    overRecords w f (p ++ y) = f (fun j => (p ++ y).getD j 0) ++ overRecords w f y := by
  simp only [overRecords, length_div_record hw hp, List.range_succ_eq_map, List.flatMap_cons,
    List.flatMap_map, getD_record_succ hp, Nat.mul_zero, Nat.zero_add]

end Records

theorem malformedRecords_two_cons (c v : Byte) (y : List Byte) :
    malformedRecords 2 (c :: v :: y) ↔ c = 0 ∨ malformedRecords 2 y :=
  malformedRecords_append (p := [c, v]) Nat.ofNat_pos rfl y

theorem malformedRecords_four_cons (c t0 t1 t2 : Byte) (y : List Byte) :
    malformedRecords 4 (c :: t0 :: t1 :: t2 :: y) ↔ c = 0 ∨ malformedRecords 4 y :=
  malformedRecords_append (p := [c, t0, t1, t2]) Nat.ofNat_pos rfl y

/-- The records of RLE.DEC, all together (46_rle.md R182). -/
theorem rleExpand_eq : ∀ y : List Byte,
    rleExpand y = if malformedRecords 2 y then .error .formatError
      else .ok (overRecords 2 byteCopies y)
  | [] => rfl
  | [_] => rfl
  | c :: v :: y => by
    have hcopies : overRecords 2 byteCopies (c :: v :: y) =
        List.replicate c.toNat v ++ overRecords 2 byteCopies y :=
      overRecords_append (p := [c, v]) Nat.ofNat_pos rfl y byteCopies
    rw [rleExpand, rleExpand_eq y, hcopies]
    simp only [malformedRecords_two_cons]
    by_cases hc : c = 0
    · rw [if_pos hc, if_pos (.inl hc)]
    · by_cases hy : malformedRecords 2 y
      · simp only [hc, hy, if_false, if_true, or_true]
      · simp only [hc, hy, if_false, or_false]

/-- The records of RLE3.DEC, all together (46_rle.md R185). -/
theorem rle3Expand_eq : ∀ y : List Byte,
    rle3Expand y = if malformedRecords 4 y then .error .formatError
      else .ok (overRecords 4 tripletCopies y)
  | [] => rfl
  | [_] | [_, _] | [_, _, _] => rfl
  | c :: t0 :: t1 :: t2 :: y => by
    have hcopies : overRecords 4 tripletCopies (c :: t0 :: t1 :: t2 :: y) =
        (List.replicate c.toNat [t0, t1, t2]).flatten ++ overRecords 4 tripletCopies y :=
      overRecords_append (p := [c, t0, t1, t2]) Nat.ofNat_pos rfl y tripletCopies
    rw [rle3Expand, rle3Expand_eq y, hcopies]
    simp only [malformedRecords_four_cons]
    by_cases hc : c = 0
    · rw [if_pos hc, if_pos (.inl hc)]
    · by_cases hy : malformedRecords 4 y
      · simp only [hc, hy, if_false, if_true, or_true]
      · simp only [hc, hy, if_false, or_false, tripletBytes]

/-- A stream of whole records has no truncated one, so the length test adds nothing
(46_rle.md R182). -/
theorem rleDecode_eq (y : List Byte) :
    rleDecode y = if malformedRecords 2 y then .error .formatError
      else .ok (overRecords 2 byteCopies y) := by
  rw [rleDecode, rleExpand_eq]
  by_cases hlen : y.length % 2 ≠ 0
  · rw [if_pos hlen, if_pos (.inl hlen)]
  · rw [if_neg hlen]

/-- A negative known length is refused before the stream is looked at (46_rle.md R185). -/
theorem rle3Decode_of_neg {k : Int} (hk : k < 0) (y : List Byte) :
    rle3Decode k y = .error .valueRangeError := if_pos hk

/-- For a known length that is not negative: the records, then the two last tests
(46_rle.md R185). -/
theorem rle3Decode_of_nonneg {k : Int} (hk : 0 ≤ k) (y : List Byte) :
    rle3Decode k y = if malformedRecords 4 y then .error .formatError
      else cutToLength k.toNat (overRecords 4 tripletCopies y) := by
  rw [rle3Decode, if_neg (not_lt.mpr hk), rle3Expand_eq]
  by_cases hlen : y.length % 4 ≠ 0
  · rw [if_pos hlen, if_pos (.inl hlen)]
  · rw [if_neg hlen]
    by_cases hy : malformedRecords 4 y
    · simp only [hy, if_true]
    · simp only [hy, if_false]

/-- The two last tests of RLE3.DEC together (46_rle.md R185). -/
theorem cutToLength_eq (k : Nat) (z : List Byte) :
    cutToLength k z = if z.length = 3 * ((k + 2) / 3) ∧ ∀ b ∈ z.drop k, b = 0 then .ok (z.take k)
      else .error .formatError := by
  simp only [cutToLength, ceilDiv, List.any_eq_true, decide_eq_true_eq, Nat.add_one_sub_one]
  by_cases hlen : z.length = 3 * ((k + 2) / 3)
  · by_cases hzero : ∀ b ∈ z.drop k, b = 0
    · rw [if_neg (not_not.mpr hlen), if_neg (by simpa using hzero), if_pos ⟨hlen, hzero⟩]
    · rw [if_neg (not_not.mpr hlen), if_pos (by simpa using hzero), if_neg (fun h => hzero h.2)]
  · rw [if_pos hlen, if_neg (fun h => hlen h.1)]

/-- The bytes from place `k` on are zero when every place from `k` on holds a zero. -/
theorem forall_mem_drop_eq_zero_iff (k : Nat) (z : List Byte) :
    (∀ b ∈ z.drop k, b = 0) ↔ ¬ ∃ m, k ≤ m ∧ m < z.length ∧ z.getD m 0 ≠ 0 := by
  simp only [List.mem_drop_iff_getElem]
  constructor
  · rintro h ⟨m, hkm, hm, hne⟩
    refine hne ?_
    rw [List.getD_eq_getElem _ _ hm]
    exact h _ ⟨m - k, by omega, by simp [Nat.add_sub_cancel' hkm]⟩
  · rintro h b ⟨j, hj, rfl⟩
    by_contra hb
    rw [Nat.add_comm] at hj
    exact h ⟨k + j, Nat.le_add_right k j, hj, by rwa [List.getD_eq_getElem _ _ hj]⟩

/-! ### Triplets -/

theorem tripletBytes_injective : Function.Injective tripletBytes := by
  rintro ⟨a, b, c⟩ ⟨a', b', c'⟩ h
  simpa [tripletBytes] using h

theorem length_cons_triplet (a b c : Byte) (x : List Byte) :
    ((a :: b :: c :: x).length + 2) / 3 = (x.length + 2) / 3 + 1 := by
  simp only [List.length_cons]; omega

/-- The triplets of a byte list are those at the places of 46_rle.md R184. -/
theorem map_tripletBytes_triplets (x : List Byte) :
    (triplets x).map tripletBytes =
      (List.range ((x.length + 2) / 3)).map (tripletAt x) := by
  fun_induction triplets x with
  | case1 => rfl
  | case2 a => simp [tripletBytes, tripletAt]
  | case3 a b => simp [tripletBytes, tripletAt]
  | case4 a b c x ih =>
    rw [length_cons_triplet, List.range_succ_eq_map, List.map_cons, List.map_cons, List.map_map, ih]
    rfl

/-- How many zeros pad the last triplet of `n` bytes (46_rle.md R184). -/
def tripletPad (n : Nat) : Nat := 3 * ((n + 2) / 3) - n

theorem tripletPad_le_two (n : Nat) : tripletPad n ≤ 2 := by unfold tripletPad; omega

theorem add_tripletPad (n : Nat) : n + tripletPad n = 3 * ((n + 2) / 3) := by
  unfold tripletPad; omega

theorem tripletPad_add_three (n : Nat) : tripletPad (n + 3) = tripletPad n := by
  unfold tripletPad; omega

/-- The bytes of the triplets are the input, padded with zeros (46_rle.md R184). -/
theorem flatMap_tripletBytes_triplets (x : List Byte) :
    (triplets x).flatMap tripletBytes = x ++ List.replicate (tripletPad x.length) 0 := by
  fun_induction triplets x with
  | case1 => rfl
  | case2 a => simp [tripletBytes, tripletPad]
  | case3 a b => simp [tripletBytes, tripletPad]
  | case4 a b c x ih =>
    rw [List.flatMap_cons, ih, List.length_cons, List.length_cons, List.length_cons,
      tripletPad_add_three]
    rfl

/-! ### Decoding an encoding -/

/-- The records of runs with counts of a byte expand to the runs (46_rle.md R183). -/
theorem rleExpand_records : ∀ {rs : List (Nat × Byte)}, (∀ r ∈ rs, 1 ≤ r.1 ∧ r.1 ≤ 255) →
    rleExpand (rs.flatMap fun r => [countByte r.1, r.2]) = .ok (expandRuns rs)
  | [], _ => rfl
  | r :: rs, h => by
    obtain ⟨hr, hrs⟩ := List.forall_mem_cons.mp h
    obtain ⟨hne, hn⟩ := countByte_toNat hr
    simp only [List.flatMap_cons, List.cons_append, List.nil_append, rleExpand, hne, if_false,
      rleExpand_records hrs, hn, expandRuns_cons]

/-- The records of runs of triplets expand to the bytes of the runs (46_rle.md R186). -/
theorem rle3Expand_records : ∀ {rs : List (Nat × Triplet)}, (∀ r ∈ rs, 1 ≤ r.1 ∧ r.1 ≤ 255) →
    rle3Expand (rs.flatMap fun r => countByte r.1 :: tripletBytes r.2) =
      .ok ((expandRuns rs).flatMap tripletBytes)
  | [], _ => rfl
  | (n, t0, t1, t2) :: rs, h => by
    obtain ⟨hr, hrs⟩ := List.forall_mem_cons.mp h
    obtain ⟨hne, hn⟩ := countByte_toNat hr
    have htail := rle3Expand_records hrs
    simp only [tripletBytes] at htail
    simp only [List.flatMap_cons, List.cons_append, List.nil_append, tripletBytes, rle3Expand, hne,
      if_false, htail, hn, expandRuns_cons, List.flatMap_append, List.flatMap_replicate]

/-- Law 1 of 46_rle.md R183, over the streams. -/
theorem rleDecode_rleEncode (x : List Byte) : rleDecode (rleEncode x) = .ok x := by
  have hexp : rleExpand (rleEncode x) = .ok x := by
    rw [rleEncode, rleExpand_records (count_of_greedyRuns (greedyRuns_runs x)), expandRuns_runs]
  rw [rleDecode_eq, ← rleExpand_eq, hexp]

/-- An encoding of triplets expands to the padded input (46_rle.md R184). -/
theorem rle3Expand_rle3Encode (x : List Byte) :
    rle3Expand (rle3Encode x) = .ok (x ++ List.replicate (tripletPad x.length) 0) := by
  rw [rle3Encode, rle3Expand_records (count_of_greedyRuns (greedyRuns_runs _)), expandRuns_runs,
    flatMap_tripletBytes_triplets]

/-- Decoding an encoding of triplets makes the two last tests on the padded input
(46_rle.md R186). -/
theorem rle3Decode_rle3Encode {k : Int} (hk : 0 ≤ k) (x : List Byte) :
    rle3Decode k (rle3Encode x) =
      cutToLength k.toNat (x ++ List.replicate (tripletPad x.length) 0) := by
  have hexp := rle3Expand_rle3Encode x
  rw [rle3Expand_eq] at hexp
  rw [rle3Decode_of_nonneg hk]
  by_cases hy : malformedRecords 4 (rle3Encode x)
  · rw [if_pos hy] at hexp; cases hexp
  · rw [if_neg hy] at hexp ⊢
    rw [Except.ok.inj hexp]

/-- The cut of a padded list at its own length is the list (46_rle.md R186). -/
theorem cutToLength_padded (x : List Byte) :
    cutToLength x.length (x ++ List.replicate (tripletPad x.length) 0) = .ok x := by
  rw [cutToLength_eq, List.drop_left, List.take_left, if_pos]
  rw [List.length_append, List.length_replicate, add_tripletPad]
  exact ⟨rfl, fun _ => List.eq_of_mem_replicate⟩

/-- The cut of a padded list at any length: in the same bracket of three, two zeros are enough to
extend the list by (46_rle.md R186). -/
theorem cutToLength_padded_cases (k : Nat) (x : List Byte) {r : Except ErrorKind (List Byte)}
    (hr : cutToLength k (x ++ List.replicate (tripletPad x.length) 0) = r) :
    r = .error .formatError ∨ ((k + 2) / 3 = (x.length + 2) / 3 ∧ (∀ b ∈ x.drop k, b = 0) ∧
      r = .ok ((x ++ [0, 0]).take k)) := by
  rw [cutToLength_eq] at hr
  split at hr
  next h =>
    obtain ⟨hlen, hzero⟩ := h
    rw [List.length_append, List.length_replicate, add_tripletPad] at hlen
    rw [List.drop_append] at hzero
    have hpad := add_tripletPad x.length
    have htwo := tripletPad_le_two x.length
    have hext : (List.replicate (tripletPad x.length) (0 : Byte)).take (k - x.length) =
        (List.replicate 2 0).take (k - x.length) := by
      rw [List.take_replicate, List.take_replicate, min_eq_left (by omega), min_eq_left (by omega)]
    refine .inr ⟨by omega, fun b hb => hzero b (List.mem_append_left _ hb), ?_⟩
    rw [← hr, List.take_append, hext, ← List.take_append]
    rfl
  next => exact .inl hr.symm

/-! ### The commands -/

/-- Settles O43: the runs of the input are greedy and expand to it. -/
theorem rleEncFollowsRule : Obligations.RleEncFollowsRule :=
  ⟨decodeEncodeRoundTrip .rleEnc rfl, fun s =>
    ⟨runs s.packet.inp, greedyRuns_runs _, expandRuns_runs _, exec_rleEnc s⟩⟩

/-- Settles O44: the decoder is the expansion of its records, if none is malformed. -/
theorem rleDecFollowsRule : Obligations.RleDecFollowsRule := by
  refine ⟨decodeEncodeRoundTrip .rleDec rfl, fun s => ⟨fun hbad => ?_, fun hgood => ?_⟩⟩
  · rw [exec_rleDec, rleDecode_eq, if_pos hbad, endStream_error]
  · rw [exec_rleDec, rleDecode_eq, if_neg hgood, endStream_ok]
    rfl

/-- Settles O45: the runs of the triplets, with each triplet as its bytes. -/
theorem rle3EncFollowsRule : Obligations.Rle3EncFollowsRule := by
  refine ⟨decodeEncodeRoundTrip .rle3Enc rfl, fun s =>
    ⟨(runs (triplets s.packet.inp)).map (Prod.map id tripletBytes),
      greedyRuns_map tripletBytes_injective (greedyRuns_runs _), ?_, ?_⟩⟩
  · rw [expandRuns_map, expandRuns_runs, map_tripletBytes_triplets]
  · rw [List.flatMap_map, exec_rle3Enc]
    rfl

/-- Settles O46: the sign of A, the records, and the two tests of the cut. -/
theorem rle3DecFollowsRule : Obligations.Rle3DecFollowsRule := by
  refine ⟨decodeEncodeRoundTrip .rle3Dec rfl, fun s => ?_⟩
  intro y k z bad
  have hbad : bad ↔ malformedRecords 4 y ∨
      ¬ (z.length = 3 * ((k.toNat + 2) / 3) ∧ ∀ b ∈ z.drop k.toNat, b = 0) := by
    rw [forall_mem_drop_eq_zero_iff, not_and_or, not_not, or_assoc]
  have hdec (hk : 0 ≤ k) : rle3Decode k y = if malformedRecords 4 y then .error .formatError
      else cutToLength k.toNat z := rle3Decode_of_nonneg hk y
  rw [exec_rle3Dec]
  refine ⟨fun hk => ?_, fun ⟨hk, h⟩ => ?_, fun ⟨hk, h⟩ => ?_⟩
  · rw [rle3Decode_of_neg hk, endStream_error]
  · have hfail : rle3Decode k y = .error .formatError := by
      rcases hbad.mp h with hrecords | hcut
      · rw [hdec hk, if_pos hrecords]
      · rw [hdec hk, cutToLength_eq, if_neg hcut, ite_self]
    rw [hfail, endStream_error]
  · obtain ⟨hrecords, hcut⟩ := not_or.mp (mt hbad.mpr h)
    have hok : rle3Decode k y = .ok (z.take k.toNat) := by
      rw [hdec hk, if_neg hrecords, cutToLength_eq, if_pos (not_not.mp hcut)]
    rw [hok, endStream_ok]

/-- The unit right after reset, with an input stream received. -/
def streamUnit (x : List Byte) : State := State.reset.receive { Packet.idle with inp := x }

/-- Two records of one value, where the encoder makes one record (46_rle.md R182). -/
theorem rleDecode_twoRecords : rleDecode [1, 5, 1, 5] = .ok [5, 5] := by decide

/-- Settles O49: an encoding holds whole records with counts of a byte, and one run can be cut in
two ways. -/
theorem rleLaws : Obligations.RleLaws := by
  refine ⟨fun s s' out hout hin => ?_, fun s => ⟨_, exec_rleEnc s⟩, fun s out hout => ?_, ?_⟩
  · rw [exec_rleEnc, next_answered_inj] at hout
    rw [exec_rleDec, hin, ← hout, rleDecode_rleEncode, endStream_ok]
  · rw [exec_rleDec, endStream_eq_answered_iff, rleDecode_eq] at hout
    split at hout
    next => cases hout
    next =>
      cases hout
      simp [overRecords, byteCopies, List.length_flatMap]
  · exact ⟨streamUnit [1, 5, 1, 5], streamUnit [5, 5], [5, 5], [2, 5],
      endStream_eq_answered_iff.mpr rleDecode_twoRecords, rfl, exec_rleEnc _, by decide⟩

/-- Settles O50: the decoder sees the padded input, and cuts it. -/
theorem rle3Laws : Obligations.Rle3Laws := by
  refine ⟨fun s => ⟨_, exec_rle3Enc s⟩, fun s s' out hout hin ha => ?_,
    fun s s' out hout hin ha => ?_⟩
  · rw [exec_rle3Enc, next_answered_inj] at hout
    rw [exec_rle3Dec, hin, ← hout, ha, rle3Decode_rle3Encode (Int.natCast_nonneg _),
      Int.toNat_natCast, cutToLength_padded, endStream_ok]
  · rw [exec_rle3Enc, next_answered_inj] at hout
    have hk : s'.packet.a.toInt.toNat = s'.packet.a.toNat := by
      rw [BitVec.toInt_eq_toNat_cond] at ha ⊢
      split at ha <;> omega
    rw [exec_rle3Dec, hin, ← hout, rle3Decode_rle3Encode ha, hk]
    rcases cutToLength_padded_cases s'.packet.a.toNat s.packet.inp rfl with h | ⟨hlen, hzero, h⟩
    · exact .inl (by rw [h, endStream_error])
    · exact .inr ⟨hlen, hzero, by rw [h, endStream_ok]⟩

end Sys2Proof.Machine
end

section
/-! The base64 family: the alphabet, the encoder as the groups of its input, the decoder as the groups
of a text, and the decoder as the inverse of the encoder on canonical text (47_base64.md). -/

namespace Sys2Proof.Machine

/-! ### The commands of the pair -/

/-- B64.ENC answers OK with its encoding (47_base64.md R201). -/
theorem exec_b64Enc (s : State) :
    exec .b64Enc s = .next (s.answered 0 (b64Encode s.packet.inp)) := rfl

theorem exec_b64Dec (s : State) : exec .b64Dec s = endStream (b64Decode s.packet.inp) s := rfl

/-! ### The alphabet -/

@[simp] theorem alphaIndex_alphaByte : ∀ i < 64, alphaIndex (alphaByte i) = some i := by decide

@[simp] theorem alphaIndex_padByte : alphaIndex padByte = none := by decide

/-- The pad is none of the 64 codes (47_base64.md R203). -/
theorem alphaByte_ne_padByte {i : Nat} (hi : i < 64) : alphaByte i ≠ padByte := fun h => by
  have hindex := alphaIndex_alphaByte i hi
  rw [h, alphaIndex_padByte] at hindex
  cases hindex

/-- Within each range of the alphabet, an index is the distance of its code from the first one
(47_base64.md R203). -/
theorem alphaByte_of_alphaIndex {c : Byte} {i : Nat} (h : alphaIndex c = some i) :
    i < 64 ∧ alphaByte i = c := by
  have hcode : alphaByte i = BitVec.ofNat 8 c.toNat ∧ i < 64 := by
    simp only [alphaIndex] at h
    split at h
    next hupper =>
      cases h
      rw [alphaByte, if_pos (by omega), show 0x41 + (c.toNat - 0x41) = c.toNat by omega]
      exact ⟨rfl, by omega⟩
    next =>
    split at h
    next hlower =>
      cases h
      rw [alphaByte, if_neg (by omega), if_pos (by omega),
        show 0x61 + (c.toNat - 0x61 + 26 - 26) = c.toNat by omega]
      exact ⟨rfl, by omega⟩
    next =>
    split at h
    next hdigit =>
      cases h
      rw [alphaByte, if_neg (by omega), if_neg (by omega), if_pos (by omega),
        show 0x30 + (c.toNat - 0x30 + 52 - 52) = c.toNat by omega]
      exact ⟨rfl, by omega⟩
    next =>
    split at h
    next hplus => cases h; rw [hplus]; decide
    next =>
    split at h
    next hslash => cases h; rw [hslash]; decide
    next => cases h
  rw [BitVec.ofNat_toNat, BitVec.setWidth_eq] at hcode
  exact hcode.symm

theorem alphaIndex_eq_some_iff {c : Byte} {i : Nat} :
    alphaIndex c = some i ↔ i < 64 ∧ alphaByte i = c :=
  ⟨alphaByte_of_alphaIndex, fun ⟨hi, hc⟩ => hc ▸ alphaIndex_alphaByte i hi⟩

/-- Settles O6: the index undoes the code, so the codes are distinct. -/
theorem alphabetAsRuled : Obligations.AlphabetAsRuled := by
  refine ⟨fun i hi => if_pos hi, fun i hlo hhi => ?_, fun i hlo hhi => ?_, rfl, rfl, rfl,
    fun i hi j hj h => ?_, fun c i => alphaIndex_eq_some_iff⟩
  · rw [alphaByte, if_neg (by omega), if_pos hhi]
  · rw [alphaByte, if_neg (by omega), if_neg (by omega), if_pos hhi]
  · have hindex := alphaIndex_alphaByte i hi
    rw [h, alphaIndex_alphaByte j hj] at hindex
    exact (Option.some.inj hindex).symm

/-! ### Encoding -/

/-- The characters of a group are the pad or codes of the alphabet (47_base64.md R204). -/
theorem mem_b64Group {x c : Byte} {y z : Option Byte} (h : c ∈ b64Group x y z) :
    c = padByte ∨ ∃ i < 64, alphaByte i = c := by
  have hcode (n : Nat) : ∃ i < 64, alphaByte i = alphaByte (n % 64) :=
    ⟨n % 64, Nat.mod_lt _ (by decide), rfl⟩
  simp only [b64Group, List.mem_cons, List.not_mem_nil, or_false] at h
  obtain rfl | rfl | rfl | rfl := h
  · exact .inr (hcode _)
  · exact .inr (hcode _)
  · split
    · exact .inr (hcode _)
    · exact .inl rfl
  · split
    · exact .inr (hcode _)
    · exact .inl rfl

@[simp] theorem length_b64Group (x : Byte) (y z : Option Byte) : (b64Group x y z).length = 4 := rfl

/-- Law 4 of 47_base64.md R204, over the streams. -/
theorem mem_b64Encode {x : List Byte} {c : Byte} (h : c ∈ b64Encode x) :
    c = padByte ∨ ∃ i < 64, alphaByte i = c := by
  fun_induction b64Encode x with
  | case1 => cases h
  | case2 => exact mem_b64Group h
  | case3 => exact mem_b64Group h
  | case4 x y z rest ih => exact (List.mem_append.mp h).elim mem_b64Group ih

/-- Four characters for each group of three bytes (47_base64.md R204). -/
theorem length_b64Encode (x : List Byte) : (b64Encode x).length = 4 * ((x.length + 2) / 3) := by
  fun_induction b64Encode x with
  | case1 => rfl
  | case2 => simp
  | case3 => simp
  | case4 x y z rest ih =>
    rw [List.length_append, ih, length_b64Group, length_cons_triplet]
    omega

/-- The groups after the first are those of the bytes after the first three. -/
theorem textGroupAt_succ (a b c : Byte) (x : List Byte) (g : Nat) :
    textGroupAt (a :: b :: c :: x) (g + 1) = textGroupAt x g := by
  have hbyte (j : Nat) : (a :: b :: c :: x).getD (3 * (g + 1) + j) 0 = x.getD (3 * g + j) 0 :=
    getD_record_succ (p := [a, b, c]) rfl x g j
  have hfirst := hbyte 0
  simp only [Nat.add_zero] at hfirst
  have hrest : (a :: b :: c :: x).length - 3 * (g + 1) = x.length - 3 * g := by
    simp only [List.length_cons]; omega
  simp only [textGroupAt, hbyte, hfirst, hrest]

theorem textGroupAt_zero (a b c : Byte) (x : List Byte) :
    textGroupAt (a :: b :: c :: x) 0 = b64Group a (some b) (some c) := by
  simp [textGroupAt, b64Group]

/-- The encoding is the groups of 47_base64.md R201, in order. -/
theorem b64Encode_eq (x : List Byte) :
    b64Encode x = (List.range ((x.length + 2) / 3)).flatMap (textGroupAt x) := by
  fun_induction b64Encode x with
  | case1 => rfl
  | case2 a => simp [textGroupAt, b64Group, padByte]
  | case3 a b => simp [textGroupAt, b64Group, padByte]
  | case4 a b c x ih =>
    rw [length_cons_triplet, List.range_succ_eq_map, List.flatMap_cons, List.flatMap_map,
      textGroupAt_zero, ih]
    simp only [textGroupAt_succ]

/-- Settles O47: the groups of the input, in order. -/
theorem b64EncFollowsRule : Obligations.B64EncFollowsRule :=
  ⟨decodeEncodeRoundTrip .b64Enc rfl, fun s => by rw [exec_b64Enc, b64Encode_eq]⟩

/-! ### Decoding a group -/

theorem alphaIndices_cons_eq_some_iff {c : Byte} {cs : List Byte} {is : List Nat} :
    alphaIndices (c :: cs) = some is ↔
      ∃ i is', alphaIndex c = some i ∧ alphaIndices cs = some is' ∧ i :: is' = is := by
  rw [alphaIndices]
  cases alphaIndex c with
  | none => simp
  | some i => cases alphaIndices cs <;> simp

/-- Characters have indices when they are the codes of those indices. -/
theorem alphaIndices_eq_some_iff {cs : List Byte} {is : List Nat} :
    alphaIndices cs = some is ↔ (∀ i ∈ is, i < 64) ∧ is.map alphaByte = cs := by
  induction cs generalizing is with
  | nil => cases is <;> simp [alphaIndices]
  | cons c cs ih =>
    simp only [alphaIndices_cons_eq_some_iff, alphaIndex_eq_some_iff, ih]
    constructor
    · rintro ⟨i, is', ⟨hi, rfl⟩, ⟨his, rfl⟩, rfl⟩
      exact ⟨List.forall_mem_cons.mpr ⟨hi, his⟩, rfl⟩
    · rintro ⟨hlt, hmap⟩
      obtain ⟨i, is', rfl, rfl, rfl⟩ := List.map_eq_cons_iff.mp hmap
      obtain ⟨hi, his⟩ := List.forall_mem_cons.mp hlt
      exact ⟨i, is', ⟨hi, rfl⟩, ⟨his, rfl⟩, rfl⟩

/-- Characters of the alphabet, and no others, have indices. -/
theorem alphaIndices_eq_some_iff_map {cs : List Byte} {is : List Nat} :
    alphaIndices cs = some is ↔
      (∀ c ∈ cs, alphaIndex c ≠ none) ∧ (cs.map fun c => (alphaIndex c).getD 0) = is := by
  induction cs generalizing is with
  | nil => simp [alphaIndices]
  | cons c cs ih =>
    rw [alphaIndices_cons_eq_some_iff]
    cases hc : alphaIndex c with
    | none => simp [hc]
    | some i => simp [hc, ih]

/-- The bytes that the 24 bits of a group stand for, without those that `pad` pad bytes stand for
(47_base64.md R202). -/
def wordBytes (pad w : Nat) : List Byte :=
  ([BitVec.ofNat 8 (w / 2 ^ 16), BitVec.ofNat 8 (w / 2 ^ 8), BitVec.ofNat 8 w] : List Byte).take
    (3 - pad)

/-- When a group is decoded and to what (47_base64.md R202): pads in the last group only, codes of the
alphabet before them, and no bits in the part that carries no data. -/
theorem b64DecodeGroup_eq_ok_iff {last : Bool} {q0 q1 q2 q3 : Byte} {z : List Byte} :
    b64DecodeGroup last q0 q1 q2 q3 = .ok z ↔
      (padCount q2 q3 > 0 → last = true) ∧
        ∃ is, alphaIndices ([q0, q1, q2, q3].take (4 - padCount q2 q3)) = some is ∧
          (padCount q2 q3 = 2 → groupValue is % 2 ^ 16 = 0) ∧
          (padCount q2 q3 = 1 → groupValue is % 2 ^ 8 = 0) ∧
          wordBytes (padCount q2 q3) (groupValue is) = z := by
  simp only [b64DecodeGroup, wordBytes]
  split
  next hpad => simp [hpad]
  next hpad =>
    have hlast : padCount q2 q3 > 0 → last = true := by simpa using hpad
    cases alphaIndices ([q0, q1, q2, q3].take (4 - padCount q2 q3)) with
    | none => simp
    | some is =>
      simp only [Option.some.injEq, exists_eq_left']
      split
      next hbits => exact iff_of_false nofun fun ⟨_, h, _⟩ => hbits.2 (h hbits.1)
      next hbits2 =>
      split
      next hbits => exact iff_of_false nofun fun ⟨_, _, h, _⟩ => hbits.2 (h hbits.1)
      next hbits1 =>
      rw [not_and_not_right] at hbits2 hbits1
      rw [Except.ok.injEq]
      exact ⟨fun hz => ⟨hlast, hbits2, hbits1, hz⟩, fun ⟨_, _, _, hz⟩ => hz⟩

/-- The three endings a group can have (47_base64.md R202). -/
theorem padCount_cases (q2 q3 : Byte) :
    (padCount q2 q3 = 0 ∧ q3 ≠ padByte) ∨ (padCount q2 q3 = 1 ∧ q2 ≠ padByte ∧ q3 = padByte) ∨
      (padCount q2 q3 = 2 ∧ q2 = padByte ∧ q3 = padByte) := by
  unfold padCount
  by_cases h3 : q3 = padByte
  · by_cases h2 : q2 = padByte
    · simp [h2, h3]
    · simp [h2, h3]
  · simp [h3]

/-- All groups of a text that has one are decoded when the first and the rest are. -/
theorem b64DecodeGroups_cons_eq_ok_iff {q0 q1 q2 q3 : Byte} {t x : List Byte} :
    b64DecodeGroups (q0 :: q1 :: q2 :: q3 :: t) = .ok x ↔
      ∃ z z', b64DecodeGroup t.isEmpty q0 q1 q2 q3 = .ok z ∧ b64DecodeGroups t = .ok z' ∧
        z ++ z' = x := by
  rw [b64DecodeGroups]
  cases b64DecodeGroup t.isEmpty q0 q1 q2 q3 with
  | error e => simp
  | ok z => cases b64DecodeGroups t <;> simp

/-! ### The decoder as the inverse of the encoder -/

/-- The four indices of 24 bits, the most significant first (47_base64.md R201). -/
def wordIndices (w : Nat) : List Nat := [w / 2 ^ 18 % 64, w / 2 ^ 12 % 64, w / 2 ^ 6 % 64, w % 64]

/-- The characters of 24 bits, the last `pad` of them pads (47_base64.md R201). -/
def wordText (pad w : Nat) : List Byte :=
  ((wordIndices w).take (4 - pad)).map alphaByte ++ List.replicate pad padByte

theorem lt_of_mem_wordIndices {w i : Nat} (h : i ∈ wordIndices w) : i < 64 := by
  simp only [wordIndices, List.mem_cons, List.not_mem_nil, or_false] at h
  omega

section Words

variable {pad w : Nat} (hpad : pad ≤ 2)

include hpad

theorem length_wordBytes (w : Nat) : (wordBytes pad w).length = 3 - pad := by
  simp only [wordBytes, List.length_take, List.length_cons, List.length_nil]; omega

/-- The indices give back the bits, if those of the pads are zero. -/
theorem groupValue_wordIndices (hw : w < 2 ^ 24) (hbits : w % 2 ^ (8 * pad) = 0) :
    groupValue ((wordIndices w).take (4 - pad)) = w := by
  interval_cases pad
  · simp [groupValue, wordIndices]; omega
  · simp [groupValue, wordIndices] at hbits ⊢; omega
  · simp [groupValue, wordIndices] at hbits ⊢; omega

/-- Indices are 24 bits, from which they can be read back. -/
theorem wordIndices_groupValue {is : List Nat} (hlen : is.length = 4 - pad)
    (his : ∀ i ∈ is, i < 64) :
    groupValue is < 2 ^ 24 ∧ (wordIndices (groupValue is)).take (4 - pad) = is := by
  interval_cases pad
  · obtain ⟨i, j, k, l, rfl⟩ := List.length_eq_four.mp hlen
    simp [groupValue, wordIndices] at his ⊢; omega
  · obtain ⟨i, j, k, rfl⟩ := List.length_eq_three.mp hlen
    simp [groupValue, wordIndices] at his ⊢; omega
  · obtain ⟨i, j, rfl⟩ := List.length_eq_two.mp hlen
    simp [groupValue, wordIndices] at his ⊢; omega

/-- The encoder turns the bytes of 24 bits into their characters (47_base64.md R201). -/
theorem b64Encode_wordBytes (hw : w < 2 ^ 24) (hbits : w % 2 ^ (8 * pad) = 0) :
    b64Encode (wordBytes pad w) = wordText pad w := by
  interval_cases pad
  · have hword : w / 2 ^ 16 % 256 * 2 ^ 16 + w / 2 ^ 8 % 256 * 2 ^ 8 + w % 256 = w := by omega
    simp [-Nat.reducePow, wordBytes, b64Encode, b64Group, wordText, wordIndices, hword]
  · have hword : w / 2 ^ 16 % 256 * 2 ^ 16 + w / 2 ^ 8 % 256 * 2 ^ 8 = w := by omega
    simp [-Nat.reducePow, wordBytes, b64Encode, b64Group, wordText, wordIndices, hword]
  · have hword : w / 2 ^ 16 % 256 * 2 ^ 16 = w := by omega
    simp [-Nat.reducePow, wordBytes, b64Encode, b64Group, wordText, wordIndices, hword]

end Words

theorem ofNat_eq_byte {n : Nat} {b : Byte} (h : n % 256 = b.toNat) : BitVec.ofNat 8 n = b :=
  BitVec.eq_of_toNat_eq (by rw [BitVec.toNat_ofNat]; exact h)

/-- One to three bytes are 24 bits, zero after the last byte (47_base64.md R201). -/
theorem exists_wordBytes {z : List Byte} (h1 : 1 ≤ z.length) (h3 : z.length ≤ 3) :
    ∃ w < 2 ^ 24, w % 2 ^ (8 * (3 - z.length)) = 0 ∧ wordBytes (3 - z.length) w = z := by
  match z with
  | [a] =>
    refine ⟨a.toNat * 2 ^ 16, by omega, Nat.mul_mod_left _ _, ?_⟩
    exact congrArg (fun a => [a]) (ofNat_eq_byte (by omega))
  | [a, b] =>
    refine ⟨a.toNat * 2 ^ 16 + b.toNat * 2 ^ 8, by omega, ?_, ?_⟩
    · change (_ : Nat) % 2 ^ 8 = 0
      omega
    · exact congrArg₂ (fun a b => [a, b]) (ofNat_eq_byte (by omega)) (ofNat_eq_byte (by omega))
  | [a, b, c] =>
    refine ⟨a.toNat * 2 ^ 16 + b.toNat * 2 ^ 8 + c.toNat, by omega, Nat.mod_one _, ?_⟩
    change [_, _, _] = _
    rw [ofNat_eq_byte (b := a) (by omega), ofNat_eq_byte (b := b) (by omega),
      ofNat_eq_byte (b := c) (by omega)]

/-- The pads of a group are counted by `padCount` (47_base64.md R202). -/
theorem take_append_pads (q0 q1 q2 q3 : Byte) :
    [q0, q1, q2, q3].take (4 - padCount q2 q3) ++ List.replicate (padCount q2 q3) padByte =
      [q0, q1, q2, q3] := by
  obtain ⟨hpad, -⟩ | ⟨hpad, -, rfl⟩ | ⟨hpad, rfl, rfl⟩ := padCount_cases q2 q3
  all_goals rw [hpad]; rfl

theorem padCount_le_two (q2 q3 : Byte) : padCount q2 q3 ≤ 2 := by
  obtain ⟨hpad, -⟩ | ⟨hpad, -⟩ | ⟨hpad, -⟩ := padCount_cases q2 q3
  all_goals omega

/-- The characters of 24 bits end in as many pads as were put there: no code is the pad. -/
theorem padCount_of_wordText {pad w : Nat} (hpad : pad ≤ 2) {q0 q1 q2 q3 : Byte}
    (h : wordText pad w = [q0, q1, q2, q3]) : padCount q2 q3 = pad := by
  have hcode (n : Nat) : alphaByte (n % 64) ≠ padByte :=
    alphaByte_ne_padByte (Nat.mod_lt n (by decide))
  interval_cases pad
  · cases h
    rw [padCount, if_neg fun h => hcode _ h.1, if_neg (hcode _)]
  · cases h
    rw [padCount, if_neg fun h => hcode _ h.2, if_pos rfl]
  · cases h
    rfl

/-- A group is decoded when it is the characters of 24 bits with no pad before the end, and then to
the bytes of the 24 bits (47_base64.md R202). -/
theorem b64DecodeGroup_eq_ok_iff_wordText {last : Bool} {q0 q1 q2 q3 : Byte} {z : List Byte} :
    b64DecodeGroup last q0 q1 q2 q3 = .ok z ↔
      ∃ pad ≤ 2, ∃ w < 2 ^ 24, (0 < pad → last = true) ∧ w % 2 ^ (8 * pad) = 0 ∧
        wordText pad w = [q0, q1, q2, q3] ∧ wordBytes pad w = z := by
  rw [b64DecodeGroup_eq_ok_iff]
  constructor
  · rintro ⟨hlast, is, his, hbits2, hbits1, hz⟩
    have hpad := padCount_le_two q2 q3
    have hchars := take_append_pads q0 q1 q2 q3
    obtain ⟨hlt, hmap⟩ := alphaIndices_eq_some_iff.mp his
    have hlen : is.length = 4 - padCount q2 q3 := by
      rw [← List.length_map alphaByte, hmap]
      exact List.length_take_of_le (Nat.sub_le 4 _)
    obtain ⟨hw, hindices⟩ := wordIndices_groupValue hpad hlen hlt
    refine ⟨padCount q2 q3, hpad, groupValue is, hw, hlast, ?_, ?_, hz⟩
    · obtain ⟨h, -⟩ | ⟨h, -⟩ | ⟨h, -⟩ := padCount_cases q2 q3
      · rw [h]; exact Nat.mod_one _
      · rw [h]; exact hbits1 h
      · rw [h]; exact hbits2 h
    · rw [wordText, hindices, hmap, hchars]
  · rintro ⟨pad, hpad, w, hw, hlast, hbits, htext, hz⟩
    obtain rfl := padCount_of_wordText hpad htext
    refine ⟨hlast, (wordIndices w).take (4 - padCount q2 q3), ?_, ?_⟩
    · rw [alphaIndices_eq_some_iff, ← htext, wordText]
      refine ⟨fun i hi => lt_of_mem_wordIndices (List.mem_of_mem_take hi), ?_⟩
      exact (List.take_left' (by simp [wordIndices])).symm
    · rw [groupValue_wordIndices hpad hw hbits]
      exact ⟨fun h => by rwa [h] at hbits, fun h => by rwa [h] at hbits, hz⟩

/-- A group is decoded when it is the encoding of one to three bytes, three unless it is the last, and
then to those bytes (47_base64.md R202, R204). -/
theorem b64DecodeGroup_eq_ok_iff_b64Encode {last : Bool} {q0 q1 q2 q3 : Byte} {z : List Byte} :
    b64DecodeGroup last q0 q1 q2 q3 = .ok z ↔
      (1 ≤ z.length ∧ z.length ≤ 3) ∧ (z.length < 3 → last = true) ∧
        b64Encode z = [q0, q1, q2, q3] := by
  rw [b64DecodeGroup_eq_ok_iff_wordText]
  constructor
  · rintro ⟨pad, hpad, w, hw, hlast, hbits, htext, rfl⟩
    rw [b64Encode_wordBytes hpad hw hbits, length_wordBytes hpad]
    exact ⟨by omega, fun h => hlast (by omega), htext⟩
  · rintro ⟨⟨h1, h3⟩, hlast, htext⟩
    obtain ⟨w, hw, hbits, hz⟩ := exists_wordBytes h1 h3
    refine ⟨3 - z.length, by omega, w, hw, fun h => hlast (by omega), hbits, ?_, hz⟩
    rw [← b64Encode_wordBytes (by omega) hw hbits, hz, htext]

/-- The encoding of three bytes, or of all there are, stands before that of the rest. -/
theorem b64Encode_append {z x : List Byte} (h1 : 1 ≤ z.length) (h3 : z.length ≤ 3)
    (hx : z.length < 3 → x = []) : b64Encode (z ++ x) = b64Encode z ++ b64Encode x := by
  match z with
  | [a] | [a, b] => rw [hx (by simp)]; simp [b64Encode]
  | [a, b, c] => simp [b64Encode]

theorem b64Encode_eq_nil_iff {x : List Byte} : b64Encode x = [] ↔ x = [] := by
  rw [← List.length_eq_zero_iff, length_b64Encode, ← List.length_eq_zero_iff]
  omega

/-- The groups decoded are those of an encoding, and only those (47_base64.md R204). -/
theorem b64DecodeGroups_eq_ok_iff : ∀ {t x : List Byte},
    b64DecodeGroups t = .ok x ↔ b64Encode x = t
  | [], x => by rw [b64DecodeGroups, Except.ok.injEq, eq_comm, b64Encode_eq_nil_iff]
  | [_], x | [_, _], x | [_, _, _], x => by
    refine iff_of_false nofun fun h => ?_
    have hlen := congrArg List.length h
    rw [length_b64Encode] at hlen
    simp only [List.length_cons, List.length_nil] at hlen
    omega
  | q0 :: q1 :: q2 :: q3 :: t, x => by
    have ih {x : List Byte} : b64DecodeGroups t = .ok x ↔ b64Encode x = t :=
      b64DecodeGroups_eq_ok_iff
    simp only [b64DecodeGroups_cons_eq_ok_iff, ih, b64DecodeGroup_eq_ok_iff_b64Encode,
      List.isEmpty_iff]
    constructor
    · rintro ⟨z, z', ⟨⟨h1, h3⟩, hlast, htext⟩, rfl, rfl⟩
      rw [b64Encode_append h1 h3 fun h => b64Encode_eq_nil_iff.mp (hlast h), htext]
      rfl
    · intro h
      have hx : x ≠ [] := by rintro rfl; cases h
      have h1 : 1 ≤ (x.take 3).length := by
        have := List.length_pos_of_ne_nil hx
        rw [List.length_take]; omega
      have h3 : (x.take 3).length ≤ 3 := List.length_take_le 3 x
      have hrest (hlt : (x.take 3).length < 3) : x.drop 3 = [] := by
        rw [List.length_take] at hlt
        exact List.drop_eq_nil_of_le (by omega)
      have hgroups := b64Encode_append h1 h3 hrest
      rw [List.take_append_drop, h] at hgroups
      have hfour : (b64Encode (x.take 3)).length = [q0, q1, q2, q3].length := by
        rw [length_b64Encode, List.length_cons, List.length_cons, List.length_cons,
          List.length_singleton]
        omega
      obtain ⟨hfirst, htail⟩ := List.append_inj (s₁ := [q0, q1, q2, q3]) hgroups hfour.symm
      refine ⟨x.take 3, x.drop 3, ⟨⟨h1, h3⟩, fun hlt => ?_, hfirst.symm⟩, htail.symm,
        List.take_append_drop 3 x⟩
      rw [htail, hrest hlt]
      rfl

/-- What is an encoding has whole groups, so the length test adds nothing (47_base64.md R202). -/
theorem b64Decode_eq_b64DecodeGroups_iff {t x : List Byte} :
    b64Decode t = .ok x ↔ b64DecodeGroups t = .ok x := by
  rw [b64Decode]
  split
  next hlen =>
    refine iff_of_false nofun fun h => hlen ?_
    rw [← b64DecodeGroups_eq_ok_iff.mp h, length_b64Encode, Nat.mul_mod_right]
  next => rfl

/-- Laws 1 and 3 of 47_base64.md R204, over the streams: the decoder is the inverse of the encoder and
takes canonical text only. -/
theorem b64Decode_eq_ok_iff {t x : List Byte} : b64Decode t = .ok x ↔ b64Encode x = t := by
  rw [b64Decode_eq_b64DecodeGroups_iff, b64DecodeGroups_eq_ok_iff]

/-- Settles O51: the decoder is the inverse of the encoder. -/
theorem b64Laws : Obligations.B64Laws := by
  refine ⟨fun s s' out hout hin => ?_, fun s => ?_, fun s s' out hout hin => ?_⟩
  · rw [exec_b64Enc, next_answered_inj] at hout
    rw [exec_b64Dec, endStream_eq_answered_iff, b64Decode_eq_ok_iff, hin, hout]
  · exact ⟨_, exec_b64Enc s, length_b64Encode _, fun c hc => mem_b64Encode hc⟩
  · rw [exec_b64Dec, endStream_eq_answered_iff, b64Decode_eq_ok_iff] at hout
    rw [exec_b64Enc, hin, hout]

/-! ### The groups of a text -/

/-- What makes a text malformed: a length that is not whole groups, or a malformed group
(47_base64.md R202). -/
def malformedText (t : List Byte) : Prop :=
  t.length % 4 ≠ 0 ∨ ∃ g < t.length / 4, textGroupBad t g

theorem forall_mem_take_iff_getD {l : List Byte} {n : Nat} (hn : n ≤ l.length) {p : Byte → Prop} :
    (∀ c ∈ l.take n, p c) ↔ ∀ k < n, p (l.getD k 0) := by
  rw [List.forall_mem_iff_getElem]
  simp only [List.length_take_of_le hn, List.getElem_take]
  exact forall₂_congr fun k hk => by rw [List.getD_eq_getElem _ _ (hk.trans_le hn)]

section TextGroups

variable (q0 q1 q2 q3 : Byte) (t : List Byte)

theorem length_cons_group_div :
    (q0 :: q1 :: q2 :: q3 :: t).length / 4 = t.length / 4 + 1 :=
  length_div_record (p := [q0, q1, q2, q3]) Nat.ofNat_pos rfl t

theorem getD_group_succ (g j : Nat) :
    (q0 :: q1 :: q2 :: q3 :: t).getD (4 * (g + 1) + j) 0 = t.getD (4 * g + j) 0 :=
  getD_record_succ (p := [q0, q1, q2, q3]) rfl t g j

theorem textPad_succ (g : Nat) :
    textPad (q0 :: q1 :: q2 :: q3 :: t) (g + 1) = textPad t g := by
  simp only [textPad, getD_group_succ]

theorem textValue_succ (g : Nat) :
    textValue (q0 :: q1 :: q2 :: q3 :: t) (g + 1) = textValue t g := by
  simp only [textValue, textPad_succ, getD_group_succ]

theorem textBytes_succ (g : Nat) :
    textBytes (q0 :: q1 :: q2 :: q3 :: t) (g + 1) = textBytes t g := by
  simp only [textBytes, textPad_succ, textValue_succ]

theorem textGroupBad_succ (g : Nat) :
    textGroupBad (q0 :: q1 :: q2 :: q3 :: t) (g + 1) ↔ textGroupBad t g := by
  simp only [textGroupBad, textPad_succ, textValue_succ, getD_group_succ, length_cons_group_div,
    ne_eq, Nat.add_right_cancel_iff]

theorem malformedText_cons :
    malformedText (q0 :: q1 :: q2 :: q3 :: t) ↔
      textGroupBad (q0 :: q1 :: q2 :: q3 :: t) 0 ∨ malformedText t := by
  have hmod : (q0 :: q1 :: q2 :: q3 :: t).length % 4 = t.length % 4 :=
    Nat.add_mod_right t.length 4
  simp only [malformedText, hmod, length_cons_group_div, Nat.exists_lt_succ_left,
    textGroupBad_succ]
  exact or_left_comm

theorem textPad_zero : textPad (q0 :: q1 :: q2 :: q3 :: t) 0 = padCount q2 q3 := rfl

/-- The value of the first group, from the indices of its characters (47_base64.md R202). -/
theorem groupValue_eq_textValue :
    groupValue (([q0, q1, q2, q3].take (4 - padCount q2 q3)).map fun c => (alphaIndex c).getD 0) =
      textValue (q0 :: q1 :: q2 :: q3 :: t) 0 := by
  rw [textValue, textPad_zero]
  have hpad := padCount_le_two q2 q3
  interval_cases padCount q2 q3
  all_goals simp [groupValue, Finset.sum_range_succ]

/-- The characters of the first group before its pads, by their places. -/
theorem forall_mem_group {p : Byte → Prop} :
    (∀ c ∈ [q0, q1, q2, q3].take (4 - padCount q2 q3), p c) ↔
      ∀ k < 4 - padCount q2 q3, p ((q0 :: q1 :: q2 :: q3 :: t).getD (4 * 0 + k) 0) := by
  have hchar (k : Nat) (hk : k < 4 - padCount q2 q3) :
      (q0 :: q1 :: q2 :: q3 :: t).getD (4 * 0 + k) 0 = [q0, q1, q2, q3].getD k 0 := by
    rw [Nat.mul_zero, Nat.zero_add]
    exact List.getD_append [q0, q1, q2, q3] t 0 k (hk.trans_le (Nat.sub_le 4 _))
  rw [forall_mem_take_iff_getD (Nat.sub_le 4 _)]
  exact forall₂_congr fun k hk => by rw [hchar k hk]

theorem wordBytes_textValue :
    wordBytes (padCount q2 q3) (textValue (q0 :: q1 :: q2 :: q3 :: t) 0) =
      textBytes (q0 :: q1 :: q2 :: q3 :: t) 0 := by
  have hbyte (n : Nat) : BitVec.ofNat 8 (n % 256) = BitVec.ofNat 8 n :=
    ofNat_eq_byte (by simp)
  simp only [wordBytes, textBytes, textPad_zero, hbyte]

end TextGroups

/-- The first group of a text of whole groups is decoded when it is not malformed
(47_base64.md R202). -/
theorem b64DecodeGroup_eq_ok_iff_not_textGroupBad {q0 q1 q2 q3 : Byte} {t z : List Byte}
    (hlen : t.length % 4 = 0) :
    b64DecodeGroup t.isEmpty q0 q1 q2 q3 = .ok z ↔
      ¬ textGroupBad (q0 :: q1 :: q2 :: q3 :: t) 0 ∧
        textBytes (q0 :: q1 :: q2 :: q3 :: t) 0 = z := by
  have hlast : t.isEmpty = true ↔ 0 + 1 = (q0 :: q1 :: q2 :: q3 :: t).length / 4 := by
    rw [length_cons_group_div, List.isEmpty_iff_length_eq_zero]
    omega
  simp only [b64DecodeGroup_eq_ok_iff, alphaIndices_eq_some_iff_map, and_assoc,
    exists_and_left, exists_eq_left', groupValue_eq_textValue q0 q1 q2 q3 t, wordBytes_textValue,
    forall_mem_group q0 q1 q2 q3 t, textGroupBad, textPad_zero, hlast]
  push Not
  simp only [and_assoc]

/-- The text is decoded when it is not malformed, to the bytes of its groups (47_base64.md R202). -/
theorem b64DecodeGroups_eq_ok_iff_not_malformedText : ∀ {t x : List Byte},
    b64DecodeGroups t = .ok x ↔
      ¬ malformedText t ∧ (List.range (t.length / 4)).flatMap (textBytes t) = x
  | [], x => by simp [b64DecodeGroups, malformedText]
  | [_], x | [_, _], x | [_, _, _], x =>
    iff_of_false nofun fun ⟨h, _⟩ => h (.inl (by simp))
  | q0 :: q1 :: q2 :: q3 :: t, x => by
    have ih {x : List Byte} : b64DecodeGroups t = .ok x ↔
        ¬ malformedText t ∧ (List.range (t.length / 4)).flatMap (textBytes t) = x :=
      b64DecodeGroups_eq_ok_iff_not_malformedText
    rw [b64DecodeGroups_cons_eq_ok_iff, malformedText_cons, length_cons_group_div,
      List.range_succ_eq_map, List.flatMap_cons, List.flatMap_map]
    simp only [ih, textBytes_succ]
    by_cases hrest : malformedText t
    · simp [hrest]
    · have hlen : t.length % 4 = 0 := not_not.mp (not_or.mp hrest).1
      simp [hrest, b64DecodeGroup_eq_ok_iff_not_textGroupBad hlen]

/-- Settles O48: a text is decoded exactly when it is not malformed, and every other text is a
FormatError. -/
theorem b64DecFollowsRule : Obligations.B64DecFollowsRule := by
  refine ⟨decodeEncodeRoundTrip .b64Dec rfl, fun s => ?_⟩
  intro t bad
  have hdec (x : List Byte) : b64Decode t = .ok x ↔
      ¬ bad ∧ (List.range (t.length / 4)).flatMap (textBytes t) = x :=
    b64Decode_eq_b64DecodeGroups_iff.trans b64DecodeGroups_eq_ok_iff_not_malformedText
  rw [exec_b64Dec]
  refine ⟨fun hbad => ?_, fun hgood => endStream_eq_answered_iff.mpr ((hdec _).mpr ⟨hgood, rfl⟩)⟩
  cases h : b64Decode t with
  | ok x => exact absurd hbad ((hdec x).mp h).1
  | error e => rw [b64Decode_error h, endStream_error]

end Sys2Proof.Machine
end

section
/-! The statuses: what the response of a command says of its effect, and what ERR says of the responses
of a run (60_exceptions.md, 70_reset_and_hazards.md). -/

namespace Sys2Proof.Machine

variable {i : Instr} {s t u : State} {r : Response}

/-! ### One command -/

/-- A response tells an error from a success: either it carries the code of one of the unit's own
errors and the command left what that error leaves, or its status is OK (60_exceptions.md R211,
R214). -/
theorem CommandEffect.failed_or_ok (h : CommandEffect i s t)
    (hresp : t.responses = s.responses ++ [r]) :
    (∃ e, e ≠ ErrorKind.structureError ∧ r = ⟨e.code, 0, []⟩ ∧ t = (s.atChecks i).raised e) ∨
      r.st = 0 := by
  cases h with
  | failed e he =>
    obtain rfl : (⟨e.code, 0, []⟩ : Response) = r := by simpa using hresp
    exact .inl ⟨e, he, rfl, rfl⟩
  | answers v out =>
    obtain rfl : (⟨0, v, out⟩ : Response) = r := by simpa using hresp
    exact .inr rfl
  | reads k v =>
    obtain rfl : (⟨0, v, []⟩ : Response) = r := by simpa using hresp
    exact .inr rfl
  | opens | writes =>
    obtain rfl : (⟨0, 0, []⟩ : Response) = r := by simpa using hresp
    exact .inr rfl

/-- Settles O16: a response with a status other than OK is that of an error, taken in the state in
which the command made its checks. -/
theorem failedCommandEffect : Obligations.FailedCommandEffect := by
  intro i s t r h hresp hst
  obtain ⟨e, -, rfl, rfl⟩ | hok := (exec_effect h).failed_or_ok hresp
  · exact ⟨rfl, rfl, rfl⟩
  · exact absurd hok hst

/-- The errors but StructureError have the codes 1, 2, 4 and 5 (60_exceptions.md R211). -/
theorem code_of_ne_structureError {e : ErrorKind} (he : e ≠ .structureError) :
    e.code = 1 ∨ e.code = 2 ∨ e.code = 4 ∨ e.code = 5 := by
  cases e with
  | structureError => exact absurd rfl he
  | boundsError | valueRangeError | formatError | illegalCommand => decide

/-- Settles O18: a command fails with one of the unit's own errors, or its status is OK. -/
theorem unitNeverAnswersUnusedCodes : Obligations.UnitNeverAnswersUnusedCodes := by
  intro i s t r h hresp
  obtain ⟨e, he, rfl, -⟩ | hok := (exec_effect h).failed_or_ok hresp
  · exact .inr (code_of_ne_structureError he)
  · exact .inl hok

/-! ### A step and a run -/

/-- Settles O10: the step of an empty list of inputs waits. -/
theorem unitWaitsWithoutInput : Obligations.UnitWaitsWithoutInput := by
  intro s hin
  simp only [step, takeInput, hin]

/-- A step takes the first of the inputs, if there is one. -/
theorem step_inputs (h : step s = .next t) : t.inputs = s.inputs.tail := by
  obtain ⟨hin, ht⟩ | ⟨rest, -, ht⟩ | ⟨p, rest, x, -, -, ht⟩ | ⟨p, rest, i, -, -, ht⟩ := step_cases h
  · cases ht; simp [hin]
  · cases ht; rfl
  · cases ht; rfl
  · obtain ⟨-, -, -, hinputs⟩ := commandGivesOneResponse _ _ _ ht.symm
    exact hinputs

/-- A step of a run without reset leaves a run without reset (70_reset_and_hazards.md R244). -/
theorem step_keeps_commandsOnly (hs : s.commandsOnly) (h : step s = .next t) : t.commandsOnly :=
  fun x hx => hs x (List.mem_of_mem_tail (step_inputs h ▸ hx))

/-- From `s` to `t` responses were added, and ERR is 0 at the end exactly when it was 0 at the
beginning and all of them have the status OK (10_state.md R25). -/
def ErrRecords (s t : State) : Prop :=
  ∃ rs, t.responses = s.responses ++ rs ∧ (t.err = 0 ↔ s.err = 0 ∧ ∀ r ∈ rs, r.st = 0)

theorem errRecords_refl (s : State) : ErrRecords s s := ⟨[], by simp, by simp⟩

theorem ErrRecords.trans (h : ErrRecords s t) (h' : ErrRecords t u) : ErrRecords s u := by
  obtain ⟨rs, hrs, herr⟩ := h
  obtain ⟨rs', hrs', herr'⟩ := h'
  refine ⟨rs ++ rs', by rw [hrs', hrs, List.append_assoc], ?_⟩
  rw [herr', herr, List.forall_mem_append, and_assoc]

/-- After an error ERR is not 0: it takes the code or holds an earlier one (10_state.md R25). -/
theorem stickyErr_ne_zero (c : Code) (e : ErrorKind) : stickyErr c e ≠ 0 := by
  unfold stickyErr
  split
  · exact code_ne_zero e
  · assumption

/-- Taking an error gives a response that is not OK and leaves ERR other than 0 (60_exceptions.md
R214). -/
theorem errRecords_raised (s : State) (e : ErrorKind) : ErrRecords s (s.raised e) :=
  ⟨[⟨e.code, 0, []⟩], rfl,
    iff_of_false (stickyErr_ne_zero s.err e) fun ⟨_, hok⟩ => code_ne_zero e (hok _ (List.mem_singleton_self _))⟩

/-- ERR records the response of a command. -/
theorem exec_errRecords (h : exec i s = .next t) : ErrRecords s t := by
  obtain ⟨⟨r, hresp⟩, -⟩ := commandGivesOneResponse i s t h
  obtain ⟨e, -, -, rfl⟩ | hok := (exec_effect h).failed_or_ok hresp
  · exact errRecords_raised (s.atChecks i) e
  · have herr : t.err = s.err := successLeavesErr i s t r h hresp hok
    exact ⟨[r], hresp, by simp [herr, hok]⟩

/-- ERR records the response of a step that is not a reset. -/
theorem step_errRecords (hs : s.commandsOnly) (h : step s = .next t) : ErrRecords s t := by
  obtain ⟨-, ht⟩ | ⟨rest, hin, -⟩ | ⟨p, rest, x, -, -, ht⟩ | ⟨p, rest, i, -, -, ht⟩ := step_cases h
  · cases ht; exact errRecords_refl s
  · exact absurd rfl (hs .reset (by simp [hin]))
  · cases ht; exact errRecords_raised (s.dropInput.receive p) .illegalCommand
  · exact exec_errRecords (s := s.dropInput.receive p) ht.symm

/-- A run of `k + 1` steps that stops nowhere is a step and a run of `k`. -/
theorem run_succ_eq_next {M : Host.Core} {k : Nat} {x y : M.State} (h : M.run (k + 1) x = .next y) :
    ∃ z, M.step x = .next z ∧ M.run k z = .next y := by
  rw [Host.Core.run] at h
  cases hstep : M.step x with
  | next z => exact ⟨z, rfl, by rwa [hstep] at h⟩
  | fault => simp [hstep] at h
  | refused => simp [hstep] at h

/-- ERR records the responses of a run without reset (70_reset_and_hazards.md R244). -/
theorem run_errRecords {k : Nat} (hs : s.commandsOnly) (h : core.run k s = .next t) :
    ErrRecords s t := by
  induction k generalizing s with
  | zero => cases h; exact errRecords_refl _
  | succ k ih =>
    obtain ⟨u, hstep, hrun⟩ := run_succ_eq_next h
    exact (step_errRecords hs hstep).trans (ih (step_keeps_commandsOnly hs hstep) hrun)

/-- Settles O21: ERR records the responses of the run, and was 0 at its beginning. -/
theorem runErrorFreeIffErrZero : Obligations.RunErrorFreeIffErrZero := by
  intro k s t hs herr0 h
  obtain ⟨rs, hresp, herr⟩ := run_errRecords hs h
  rw [herr, hresp, List.drop_left]
  exact and_iff_right herr0

end Sys2Proof.Machine
end
